-- ==== Sys2Proof/Word.lean ====
section
/-! DEFINITION. The word types: bytes of the serial line, 16-bit EEPROM words and line-register values, 32-bit command and
response words (R6: bit 0 is the least significant bit, everything is unsigned). -/

namespace Sys2Proof

/-- Eight bits: an EEPROM instruction code, an address byte, half of a data word. -/
abbrev Byte := BitVec 8

/-- Sixteen bits: an EEPROM word, a value of the line register, an access on the master port. -/
abbrev Half := BitVec 16

/-- Thirty-two bits: a command word or a response word. -/
abbrev Word := BitVec 32

/-- A word slot of the EEPROM or of the buffer, 0 to 127 (R69, R79). -/
abbrev Index := BitVec 7

end Sys2Proof
end

