-- ==== Sys2Proof/Config.lean ====
section
/-! DEFINITION. What an implementation fixes (R5) and the values the spec leaves open. The constants without a body are the
parameters marked OPEN and the free values: nothing can prove what they are, so a claim about them holds for every value. -/

namespace Sys2Proof

/-- Number of word slots, `NWORDS` (R5). -/
def Config.nwords : Nat := 128

/-- EEPROM instruction code "write", `OP_WRITE` (R5, R108). -/
def Config.opWrite : Byte := 0xAF#8

/-- EEPROM instruction code "read", `OP_READ` (R5, R108). -/
def Config.opRead : Byte := 0xAE#8

/-- The line value of the idle-inactive state, `IDLE_VALUE` (R5). -/
def Config.idleValue : Half := 0x0000#16

/-- `T_MIN`, the lower bound of one delay (R5), in picoseconds: 1 microsecond. -/
def Config.tMinPs : Nat := 1000000

/-- `REG_OFFSET` of the machine that `State.reset` describes: OPEN (R5, U1). -/
opaque Config.regOffset : Nat

/-- `ADDR_W` of the machine that `State.reset` describes: OPEN (R5, U1). -/
opaque Config.addrW : Nat

/-- `DELAY_CYCLES` of the machine that `State.reset` describes: OPEN (R5, U1). -/
opaque Config.delayCycles : Nat

/-- `T_clk` of the machine that `State.reset` describes, in picoseconds: the spec gives no clock (R5, R265). -/
opaque Config.tClkPs : Nat

/-- FREE VALUE: what the target puts on `m_rdata` at a read for which State lists no answer (R37, U2, U13; DESIGN CHOICE log 2). -/
opaque Config.freeRead : Nat → Half

/-- FREE VALUE: what an entry of `BUF` that nothing has written since reset reads as (R36, U6; DESIGN CHOICE log 3). -/
opaque Config.freeBuf : Nat → Half

/-- FREE VALUE: the line register of a base address that no access has reached yet (R25, U7; DESIGN CHOICE log 4). -/
opaque Config.freeLine : Nat → Half

/-- The build parameters of R5. `State.par` holds the ones of the machine at hand, so that a claim over all states is a claim
over all builds; no step writes them (DESIGN CHOICE log 6). -/
structure Params where
  /-- `REG_OFFSET`. -/
  regOffset : Nat
  /-- `ADDR_W`. -/
  addrW : Nat
  /-- `SWAP`. -/
  swap : Bool
  /-- `DELAY_CYCLES`. -/
  delayCycles : Nat
  /-- `T_clk` in picoseconds. -/
  tClkPs : Nat
  /-- `ACK1_CLEANUP`. -/
  ack1Cleanup : Bool
  deriving DecidableEq, Repr

/-- The constraint of R5 on a build: `DELAY_CYCLES * T_clk >= T_MIN`. Time claims take it as a premise (R254, U14). -/
def Params.timed (p : Params) : Prop := Config.tMinPs ≤ p.delayCycles * p.tClkPs

/-- The build with the defaults of R5: `SWAP` and `ACK1_CLEANUP` false, the OPEN parameters left open. -/
def Config.params : Params :=
  { regOffset := Config.regOffset, addrW := Config.addrW, swap := false,
    delayCycles := Config.delayCycles, tClkPs := Config.tClkPs, ack1Cleanup := false }

end Sys2Proof
end

