-- ==== Sys2Proof/Syntax.lean ====
section
/-! DEFINITION. The instructions: one constructor per row of spec/opcode_table.json (R104, R108, R114), with the operands R105
assembles, and the two encoded forms an instruction comes in (R100). -/

namespace Sys2Proof

/-- The instructions of the block. Operands have exactly the width of their field, so no index above 127 can be written (R69). -/
inductive Instr
  /-- `DELAY` (R143). -/
  | delay
  /-- `BITCLK dbs, lastdbs` (R144). -/
  | bitclk (dbs lastdbs : Bool)
  /-- `SELECT` (R145). -/
  | select
  /-- `DESELECT` (R146). -/
  | deselect
  /-- `START` (R147). -/
  | start
  /-- `STOP` (R148). -/
  | stop
  /-- `SENDOP code` (R149). -/
  | sendop (code : Byte)
  /-- `RDWORD index` (R183). -/
  | rdword (index : Index)
  /-- `WRWORD index, data` (R180). -/
  | wrword (index : Index) (data : Half)
  /-- `RDALL` (R200). -/
  | rdall
  /-- `WRALL` (R201). -/
  | wrall
  /-- `BUFRD index` (R202). -/
  | bufrd (index : Index)
  /-- `BUFWR index, data` (R203). -/
  | bufwr (index : Index) (data : Half)
  /-- The reserved command code `0x0` (R114). -/
  | reserved0
  /-- The reserved command code `0xE` (R114). -/
  | reservedE
  /-- The reserved command code `0xF` (R114). -/
  | reservedF
  /-- The EEPROM instruction code "write", `0xAF` (R108). -/
  | eeWrite
  /-- The EEPROM instruction code "read", `0xAE` (R108). -/
  | eeRead
  deriving DecidableEq, Repr

/-- An encoded instruction: a 32-bit command word (format `CMD`, R103) or an 8-bit EEPROM instruction code (format `EEOP`,
R108). -/
inductive Code
  | cmd (word : Word)
  | eeop (code : Byte)
  deriving DecidableEq, Repr

end Sys2Proof
end

