-- ==== Sys2Proof/WellFormed.lean ====
section
/-! DEFINITION. Well-formed encodings. Every term of `Instr` is well-formed by its types; what can be ill-formed is a `Code`:
a command word whose reserved or unused fields are not zero ("The host should write them as zero", R115), or a byte that is no
EEPROM instruction code (R108). The block ignores the fields and never refuses a command for them. -/

namespace Sys2Proof

/-- The bits of a command word that its command uses (R104, R115): `OP` and the operand fields. -/
def WellFormed.usedBits (op : BitVec 4) : Word :=
  match op.toNat with
  | 0x2 => 0xF0030000#32
  | 0x7 => 0xF0FF0000#32
  | 0x8 => 0xF07F0000#32
  | 0x9 => 0xF07FFFFF#32
  | 0xC => 0xF07F0000#32
  | 0xD => 0xF07FFFFF#32
  | _ => 0xF0000000#32

/-- A well-formed encoding: reserved and unused fields zero, a known EEPROM instruction code. -/
def Code.wellFormed : Code → Bool
  | .cmd w => w &&& ~~~(WellFormed.usedBits (w.extractLsb' 28 4)) == 0#32
  | .eeop b => b == Config.opWrite || b == Config.opRead

end Sys2Proof
end

