-- ==== Sys2Proof/Decode.lean ====
section
/-! DEFINITION. Decoding and encoding: the fields of a command word (R103, R105), the decoder of both formats (R104, R108, R114),
the encoder, and the host's `decodeTableWord`. Bits of a command word that no field uses are ignored (R115). -/

namespace Sys2Proof

/-- Why a code is no instruction. -/
inductive Reject
  /-- A byte presented as an EEPROM instruction code that is neither `0xAF` nor `0xAE` (R108). -/
  | unknownEepromCode (code : Byte)
  deriving DecidableEq, Repr

/-- `OP = cmd_word[31:28]` (R103). -/
def Decode.op (w : Word) : BitVec 4 := w.extractLsb' 28 4

/-- `A = cmd_word[23:16]` (R103). -/
def Decode.a (w : Word) : Byte := w.extractLsb' 16 8

/-- `DATA = cmd_word[15:0]` (R103). -/
def Decode.data (w : Word) : Half := w.extractLsb' 0 16

/-- `INDEX = A[6:0]` (R29, R105). -/
def Decode.index (a : Byte) : Index := a.extractLsb' 0 7

/-- `DBS = A[0]` (R29, R105). -/
def Decode.dbs (a : Byte) : Bool := a.getLsbD 0

/-- `LASTARG = A[1]` (R29, R105). -/
def Decode.lastarg (a : Byte) : Bool := a.getLsbD 1

/-- The command that the latches `OP`, `A`, `DATA` name (R104, R105); total, since every command code has a meaning. -/
def Decode.fields (op : BitVec 4) (a : Byte) (data : Half) : Instr :=
  match op.toNat with
  | 0x0 => .reserved0
  | 0x1 => .delay
  | 0x2 => .bitclk (Decode.dbs a) (Decode.lastarg a)
  | 0x3 => .select
  | 0x4 => .deselect
  | 0x5 => .start
  | 0x6 => .stop
  | 0x7 => .sendop a
  | 0x8 => .rdword (Decode.index a)
  | 0x9 => .wrword (Decode.index a) data
  | 0xA => .rdall
  | 0xB => .wrall
  | 0xC => .bufrd (Decode.index a)
  | 0xD => .bufwr (Decode.index a) data
  | 0xE => .reservedE
  | _ => .reservedF -- the one value left of a 4-bit field: 0xF

/-- The EEPROM instruction codes (R108); any other byte is rejected by name. -/
def Decode.eeprom (b : Byte) : Except Reject Instr :=
  if b = Config.opWrite then .ok .eeWrite
  else if b = Config.opRead then .ok .eeRead
  else .error (.unknownEepromCode b)

/-- The decoder of both formats (R100). -/
def decode : Code → Except Reject Instr
  | .cmd w => .ok (Decode.fields (Decode.op w) (Decode.a w) (Decode.data w))
  | .eeop b => Decode.eeprom b

/-- A command word from its fields, with `cmd_word[27:24] = 0` (R103, R115). -/
def Encode.cmd (op : BitVec 4) (a : Byte) (data : Half) : Code := .cmd (op ++ 0#4 ++ a ++ data)

/-- The argument byte of an index: `A[7] = 0`, `A[6:0] = index` (R105, R115). -/
def Encode.index (i : Index) : Byte := 0#1 ++ i

/-- The argument byte of `BITCLK`: `A[1] = lastdbs`, `A[0] = dbs`, the rest 0 (R104, R115). -/
def Encode.bits (dbs lastdbs : Bool) : Byte := 0#6 ++ BitVec.ofBool lastdbs ++ BitVec.ofBool dbs

/-- The encoder (R104, R108): reserved and unused fields are zero. -/
def encode : Instr → Code
  | .delay => Encode.cmd 0x1#4 0#8 0#16
  | .bitclk dbs lastdbs => Encode.cmd 0x2#4 (Encode.bits dbs lastdbs) 0#16
  | .select => Encode.cmd 0x3#4 0#8 0#16
  | .deselect => Encode.cmd 0x4#4 0#8 0#16
  | .start => Encode.cmd 0x5#4 0#8 0#16
  | .stop => Encode.cmd 0x6#4 0#8 0#16
  | .sendop code => Encode.cmd 0x7#4 code 0#16
  | .rdword index => Encode.cmd 0x8#4 (Encode.index index) 0#16
  | .wrword index data => Encode.cmd 0x9#4 (Encode.index index) data
  | .rdall => Encode.cmd 0xA#4 0#8 0#16
  | .wrall => Encode.cmd 0xB#4 0#8 0#16
  | .bufrd index => Encode.cmd 0xC#4 (Encode.index index) 0#16
  | .bufwr index data => Encode.cmd 0xD#4 (Encode.index index) data
  | .reserved0 => Encode.cmd 0x0#4 0#8 0#16
  | .reservedE => Encode.cmd 0xE#4 0#8 0#16
  | .reservedF => Encode.cmd 0xF#4 0#8 0#16
  | .eeWrite => .eeop Config.opWrite
  | .eeRead => .eeop Config.opRead

/-- The code whose bits are `w`: a row of at most 8 bits is of format `EEOP`, any other of format `CMD` (R100). -/
def Decode.tableCode (nbits w : Nat) : Code :=
  if nbits ≤ 8 then .eeop (BitVec.ofNat 8 w) else .cmd (BitVec.ofNat 32 w)

/-- The instruction whose bits are `w`, numbered as the opcode table numbers them. -/
def decodeTableWord (nbits w : Nat) : Option Instr :=
  match decode (Decode.tableCode nbits w) with
  | .ok i => some i
  | .error _ => none

end Sys2Proof
end

