-- ==== Sys2Proof/Machine/State.lean ====
section
/-! DEFINITION. The machine's state as plain data: the controller's registers and buffer (R21, R38), its ports (R61, R103, R250),
the targets behind the master port (R22, R37, R81), and the model's own record of events (R8). Then the reasons a step can
stop, and the state after reset. -/

namespace Sys2Proof.Machine

/-! ### The sequencer position (R26) -/

/-- The stages of the commands that have one stage: of a primitive command, named as the command (R142). The spec names no stage for
`BUFRD`, `BUFWR` and the reserved codes, which have no event; that the first two have one each and the three reserved codes share
one is the model's choice (DESIGN CHOICE log 27). -/
inductive Prim
  | delay | bitclk | select | deselect | start | stop | sendop | bufrd | bufwr | illegal
  deriving DecidableEq, Repr

/-- The stages of a word write (R181). The abort stages carry the code the command will report. -/
inductive WStage
  | select | start | opcode | ack1 | addr | ack2 | dhi | ack3 | dlo | ack4 | stop | deselect
  | abortStop (code : BitVec 4)
  | abortDeselect (code : BitVec 4)
  deriving DecidableEq, Repr

/-- The stages of a word read (R184). -/
inductive RStage
  | select | start | opcodeW | ack1 | addr | ack2 | restart | opcodeR | ack3 | rxhi | mack | rxlo | mnack | stop | deselect
  deriving DecidableEq, Repr

/-- A stage of a running command (R26): of a primitive, of `WRWORD`, of `RDWORD`, or of one word inside `RDALL` (`A_WORD(i)`,
R200) or `WRALL` (`B_WORD(i)`, R201). -/
inductive Stage
  | prim (p : Prim)
  | word (w : WStage)
  | read (r : RStage)
  | aWord (i : Index) (r : RStage)
  | bWord (i : Index) (w : WStage)
  deriving DecidableEq, Repr

/-- `SEQ`: `IDLE`, or a stage and the index of the next event inside its micro-sequence (R26). -/
inductive Seq
  | idle
  | run (stage : Stage) (step : Nat)
  deriving DecidableEq, Repr

/-! ### Events (R8) -/

/-- The events of the trace, each tagged with the base address in force: a write of a logical value to the line register, a
delay, a read that returned a logical value (R8). -/
inductive Event
  | w (base : Nat) (v : Half)
  | d (base : Nat)
  | r (base : Nat) (v : Half)
  deriving DecidableEq, Repr

/-! ### The target side -/

/-- What a byte received by the reference responder is (R81). -/
inductive RxKind
  | ctrl | addr | data
  deriving DecidableEq, Repr

/-- What follows an acknowledge of the reference responder (R81). -/
inductive AckNext
  | rxAddr | rxData | tx
  deriving DecidableEq, Repr

/-- The mode of the reference responder (R81). -/
inductive Mode
  | idle
  | rx (kind : RxKind) (n : Nat) (sh : Byte)
  | ack (next : AckNext)
  | tx (n : Nat) (sh : Byte)
  | mack
  | mackd (a : Bool)
  deriving DecidableEq, Repr

/-- The reference responder (R81); `acksLeft` is the number of acknowledges it still gives, `none` for all of them (R89). -/
structure Responder where
  /-- `CS` of the previous write. -/
  pcs : Bool
  /-- `CLK` of the previous write. -/
  pclk : Bool
  /-- `DATA` of the previous write. -/
  pd : Bool
  /-- The responder pulls the data line low. -/
  pull : Bool
  /-- The byte pointer. -/
  ptr : Byte
  /-- The bytes `mem[0..255]`; an unlisted byte reads as `0xFF` (DESIGN CHOICE log 12). -/
  mem : List Host.Cell
  /-- The mode. -/
  mode : Mode
  /-- Acknowledges left to give. -/
  acksLeft : Option Nat
  deriving DecidableEq, Repr

/-- What answers the reads of one base address. -/
inductive Device
  /-- Any target: these words come back on `m_rdata`, in this order, and free values after them (R8, R37). -/
  | oracle (answers : List Half)
  /-- The reference responder, complete or mute after some acknowledges (R80 to R89). -/
  | responder (r : Responder)
  /-- Nothing ever pulls: a read returns the data bit of the last write (R89). -/
  | absent
  /-- The data line is stuck low: a read returns data bit 0 (R89). -/
  | stuckLow
  deriving DecidableEq, Repr

/-- The target of one base address (R20, R22). -/
structure Module where
  /-- `LINE`: the logical value of the last completed write (R22). -/
  line : Half
  /-- What answers reads and takes writes. -/
  device : Device
  /-- How many more accesses the target acknowledges; `none` for all of them (R74, DESIGN CHOICE log 10). -/
  grants : Option Nat
  deriving DecidableEq, Repr

/-! ### Ports -/

/-- The master port's signals (R61). `req` stays raised while an access waits for its acknowledge. -/
structure MasterPort where
  /-- `m_req`. -/
  req : Bool
  /-- `m_we`. -/
  we : Bool
  /-- `m_addr`. -/
  addr : Nat
  /-- `m_wdata`. -/
  wdata : Half
  /-- `m_rdata`. -/
  rdata : Half
  /-- `m_ack`. -/
  ack : Bool
  deriving DecidableEq, Repr

/-- What the host presents at the command port: `cmd_word` (or an EEPROM instruction code, DEDUCED log 7) and `cmd_base` (R103). -/
structure Request where
  /-- The encoded command. -/
  code : Code
  /-- `cmd_base`; the port carries its low `ADDR_W` bits (R103). -/
  base : Nat
  deriving DecidableEq, Repr

/-! ### The state -/

/-- The machine's state. The first sixteen fields are the controller's (R21, R76), then its ports, its targets, and the
model's own fields. -/
structure State where
  /-- `BUSY` (R27). -/
  busy : Bool
  /-- `SEQ` (R26). -/
  seq : Seq
  /-- `OP` (R29). -/
  op : BitVec 4
  /-- `BASE`, below `2^ADDR_W` (R29): acceptance latches the port's `ADDR_W` bits. -/
  base : Nat
  /-- `A` (R29). -/
  a : Byte
  /-- `DATA` (R29). -/
  data : Half
  /-- `LASTD` (R28). -/
  lastd : Bool
  /-- `SAMPLE` (R30). -/
  sample : Bool
  /-- `ACC` (R31). -/
  acc : Half
  /-- `RDACK` (R32). -/
  rdack : BitVec 3
  /-- `BITCNT` (R33). -/
  bitcnt : BitVec 4
  /-- `WIDX` (R33). -/
  widx : BitVec 8
  /-- `DLYCNT` (R34). -/
  dlycnt : Nat
  /-- `RSP` (R35). -/
  rsp : Word
  /-- `BUF` (R36): the entries written since reset, by rising index. -/
  buf : List (Nat × Half)
  /-- The word `WRALL` took from `BUF` at the start of the running word (R76, DEDUCED log 15). -/
  wword : Half
  /-- The master port (R61). -/
  mport : MasterPort
  /-- The command port: what the host presents, first request first; `cmd_valid` while it is not empty (R103, R118). -/
  script : List Request
  /-- The reset input: `some n` when `rst` rises after `n` more events (R250, R253, DESIGN CHOICE log 9). -/
  rst : Option Nat
  /-- The targets by base address, rising (R22). -/
  modules : List (Nat × Module)
  /-- The build parameters: not state, no step writes them (R5, DESIGN CHOICE log 6). -/
  par : Params
  /-- The trace, newest event first (R8, DESIGN CHOICE log 14). -/
  trace : List Event
  /-- How many free values have been drawn (DESIGN CHOICE log 2). -/
  draws : Nat
  deriving DecidableEq, Repr

/-- Why a step has no next state although an instruction was not refused. -/
inductive Fault
  /-- Raised by `step` alone, never by an instruction: `BUSY = 1` and `SEQ` names no event, a state the spec does not have
  (R26) and no run reaches. Safe: nothing is claimed of what follows (DESIGN CHOICE log 18). -/
  | illegalSequence
  deriving DecidableEq, Repr

/-- Why an instruction has no meaning. -/
inductive Refusal
  /-- Raised by an arm of `exec` for an instruction without a meaning; no arm does. Safe. -/
  | notModelled (mnemonic : String)
  /-- Raised by `step` for a byte presented as an EEPROM instruction code that is neither `0xAF` nor `0xAE` (R108). Safe
  (DESIGN CHOICE log 22). -/
  | unknownEepromCode (code : Byte)
  deriving DecidableEq, Repr

/-- The master port after reset: no request (R252). The other signals carry nothing then (DESIGN CHOICE log 17). -/
def MasterPort.idle : MasterPort :=
  { req := false, we := false, addr := 0, wdata := 0#16, rdata := 0#16, ack := false }

/-- The state right after reset (R38, R250 to R252). `OP`, `BASE`, `A`, `DATA`, `SAMPLE`, `ACC`, `BITCNT`, `WIDX` are unspecified
there and hold 0 here (DESIGN CHOICE log 5); `BUF` lists nothing (DESIGN CHOICE log 3); no target has been reached yet (DESIGN CHOICE log 4); the host presents nothing
(DESIGN CHOICE log 16). -/
def State.reset : State :=
  { busy := false, seq := .idle, op := 0#4, base := 0, a := 0#8, data := 0#16,
    lastd := false, sample := false, acc := 0#16, rdack := 0#3, bitcnt := 0#4, widx := 0#8,
    dlycnt := 0, rsp := 0#32, buf := [], wword := 0#16,
    mport := MasterPort.idle, script := [], rst := none, modules := [],
    par := Config.params, trace := [], draws := 0 }

end Sys2Proof.Machine
end

