-- ==== Sys2Proof/Machine/Operands.lean ====
section
/-! DEFINITION. Operand forms: the bytes a command sends (R109, R110, R187), the line values of a bit clock (R102), the byte order of
the register access (R63), the effective address (R160), and the packed words of the response (R106). -/

namespace Sys2Proof.Machine

/-- `ADDRBYTE = {INDEX[6:0], 1'b0}` (R109). -/
def Operand.addrByte (i : Index) : Byte := i ++ 0#1

/-- `WDATA[15:8]` (R110). -/
def Operand.hiByte (w : Half) : Byte := w.extractLsb' 8 8

/-- `WDATA[7:0]` (R110). -/
def Operand.loByte (w : Half) : Byte := w.extractLsb' 0 8

/-- The bit of `b` that bit clock number `n` of a byte carries, `b[7-n]` (R111, R150). -/
def Operand.msbFirst (b : Byte) (n : Nat) : Bool := b.getLsbD (7 - n)

/-- Chip-select asserted, clock low, data as given: `0x0020 | data << 3` (R102). -/
def Operand.clockLow (d : Bool) : Half := if d then 0x0028#16 else 0x0020#16

/-- Chip-select asserted, clock high, data as given: `0x0030 | data << 3` (R102). -/
def Operand.clockHigh (d : Bool) : Half := if d then 0x0038#16 else 0x0030#16

/-- Exchange the two bytes of a 16-bit value. -/
def Operand.swapBytes (v : Half) : Half := v.extractLsb' 0 8 ++ v.extractLsb' 8 8

/-- `marshal` (R63). -/
def Operand.marshal (p : Params) (v : Half) : Half := if p.swap then Operand.swapBytes v else v

/-- `unmarshal` (R63). -/
def Operand.unmarshal (p : Params) (w : Half) : Half := if p.swap then Operand.swapBytes w else w

/-- `cmd_base[ADDR_W-1:0]`: the bits of a presented base address that the port carries (R29, R103). -/
def Operand.baseBits (p : Params) (b : Nat) : Nat := b % 2 ^ p.addrW

/-- `(BASE + REG_OFFSET) mod 2^ADDR_W` (R61, R160). -/
def Operand.effAddr (p : Params) (base : Nat) : Nat := (base + p.regOffset) % 2 ^ p.addrW

/-- The word slot that a word counter names, `WIDX[6:0]` (R204). -/
def Operand.slot (widx : BitVec 8) : Index := widx.extractLsb' 0 7

/-- `RSP = {9'0, RDACK, status, rdata}` (R35, R106). -/
def Operand.response (rdack : BitVec 3) (status : BitVec 4) (rdata : Half) : Word :=
  0#9 ++ rdack ++ status ++ rdata

/-- `RDATA` of `BITCLK`: `{15'0, SAMPLE}` (R106). -/
def Operand.bitData (s : Bool) : Half := 0#15 ++ BitVec.ofBool s

/-- `RDATA` of a failed `WRALL`: `{1'0, index, 4'0, code}` (R106, R201). -/
def Operand.failure (i : Index) (code : BitVec 4) : Half := 0#1 ++ i ++ 0#4 ++ code

/-- The latched command as a code again: what the running command's operands are read from (R29, R76). -/
def Operand.latched (c : Code) (s : State) : Code :=
  match c with
  | .cmd _ => .cmd (s.op ++ 0#4 ++ s.a ++ s.data)
  | .eeop _ => .eeop s.a

end Sys2Proof.Machine
end

