-- ==== Sys2Proof/Machine/Flags.lean ====
section
/-! DEFINITION. When the sequence may go on, and the one-bit and counting registers that commands write beside their events: `RDACK`
(R32), `ACC` (R31, R186), `BITCNT`, `WIDX` (R33), and the hold register of `WRALL` (R76). Every update is void once the
sequence has stopped, on an access that waits for its acknowledge (R74) or at a reset (R253). -/

namespace Sys2Proof.Machine

/-- The sequence has stopped: an access waits for its acknowledge (R74), or `rst` has risen (R253). -/
def State.blocked (s : State) : Bool := s.mport.req || s.rst == some 0

/-- Do `f`, unless the sequence has stopped. -/
def State.live (f : State → State) (s : State) : State := if s.blocked then s else f s

/-- `RDACK[k-1] <- 1` when the acknowledge sample is nonzero (R32, R183). -/
def State.noteAck (k : Nat) : State → State :=
  State.live fun s => if s.sample then { s with rdack := s.rdack ||| (1#3 <<< (k - 1)) } else s

/-- `ACC <- v`. -/
def State.setAcc (v : Half) : State → State := State.live fun s => { s with acc := v }

/-- `ACC <- {ACC[14:0], SAMPLE}` (R31, R186). -/
def State.shiftAcc : State → State :=
  State.live fun s => { s with acc := s.acc.extractLsb' 0 15 ++ BitVec.ofBool s.sample }

/-- `BITCNT <- v` (R33). -/
def State.setBitcnt (v : BitVec 4) : State → State := State.live fun s => { s with bitcnt := v }

/-- `WIDX <- v` (R33). -/
def State.setWidx (v : BitVec 8) : State → State := State.live fun s => { s with widx := v }

/-- The hold register of `WRALL` (R76). -/
def State.setWword (v : Half) : State → State := State.live fun s => { s with wword := v }

end Sys2Proof.Machine
end

