-- ==== Sys2Proof/Machine/Memory.lean ====
section
/-! DEFINITION. Lists of key and value pairs in canonical form, keys strictly rising: `BUF` (R79), the targets by base address (R22),
and the bytes of the reference responder (R81), where an unlisted byte reads as `0xFF` and no listed byte equals that. -/

namespace Sys2Proof.Machine

/-- The value listed under a key. -/
def Table.get {α : Type} (k : Nat) : List (Nat × α) → Option α
  | [] => none
  | (j, v) :: rest => if j = k then some v else Table.get k rest

/-- List a value under a key, in its place, over what was there. -/
def Table.put {α : Type} (k : Nat) (v : α) : List (Nat × α) → List (Nat × α)
  | [] => [(k, v)]
  | (j, u) :: rest =>
    if k < j then (k, v) :: (j, u) :: rest
    else if k = j then (k, v) :: rest
    else (j, u) :: Table.put k v rest

/-- Take a key out. -/
def Table.drop {α : Type} (k : Nat) : List (Nat × α) → List (Nat × α)
  | [] => []
  | (j, u) :: rest => if j = k then rest else (j, u) :: Table.drop k rest

/-- The keys rise strictly. -/
def Table.rising {α : Type} : List (Nat × α) → Bool
  | [] => true
  | [_] => true
  | (j, _) :: (k, v) :: rest => decide (j < k) && Table.rising ((k, v) :: rest)

/-- Every key lies below a bound. -/
def Table.below {α : Type} (bound : Nat) (t : List (Nat × α)) : Bool := t.all fun e => decide (e.1 < bound)

/-- What an unlisted byte of the responder's memory reads as (DESIGN CHOICE log 12). -/
def Memory.blank : Byte := 0xFF#8

/-- The byte at an address. -/
def Memory.read (m : List Host.Cell) (a : Nat) : Byte := (Table.get a m).getD Memory.blank

/-- Store a byte; storing what an unlisted byte reads as takes the entry out. -/
def Memory.write (m : List Host.Cell) (a : Nat) (b : Byte) : List Host.Cell :=
  if b = Memory.blank then Table.drop a m else Table.put a b m

/-- The canonical form: addresses rise strictly, lie below 256 (R81), and no listed byte is the unlisted one. -/
def Memory.wf (m : List Host.Cell) : Bool :=
  Table.rising m && Table.below 256 m && m.all fun e => decide (e.2 ≠ Memory.blank)

end Sys2Proof.Machine
end

