-- ==== Sys2Proof/Machine/Responder.lean ====
section
/-! DEFINITION. The reference responder (R80 to R88), its mute form (R89) and the degenerate targets (R89): how each takes a write
and answers a read. They are the spec's test environment, no part of the block (R4); an oracle target stands for any other. -/

namespace Sys2Proof.Machine

/-- The control lines of a line-register value (R22, R101). -/
def Line.cs (v : Half) : Bool := v.getLsbD 5

/-- The clock line (R22, R101). -/
def Line.clk (v : Half) : Bool := v.getLsbD 4

/-- The data line (R22, R101). -/
def Line.data (v : Half) : Bool := v.getLsbD 3

/-- Back to the idle mode with the line released (R82, R84, R86). -/
def Responder.toIdle (r : Responder) : Responder := { r with mode := .idle, pull := false }

/-- The next point of acknowledge: pull the line and go on to `next` with `store` done, or, when no acknowledge is left to give,
go idle and store nothing (R86, R89). -/
def Responder.acknowledge (next : AckNext) (store : Responder → Responder) (r : Responder) : Responder :=
  match r.acksLeft with
  | some 0 => r.toIdle
  | left => { store r with pull := true, mode := .ack next, acksLeft := left.map (· - 1) }

/-- Fetch the byte at the pointer and begin to send it (R86). -/
def Responder.beginTx (r : Responder) : Responder :=
  let sh := Memory.read r.mem r.ptr.toNat
  { r with ptr := r.ptr + 1#8, mode := .tx 0 sh, pull := !sh.getLsbD 7 }

/-- Take `sh` as the byte pointer (R86). -/
def Responder.setPtr (sh : Byte) (r : Responder) : Responder := { r with ptr := sh }

/-- Store `sh` at the byte pointer and move the pointer on (R86). -/
def Responder.store (sh : Byte) (r : Responder) : Responder :=
  { r with mem := Memory.write r.mem r.ptr.toNat sh, ptr := r.ptr + 1#8 }

/-- A rising clock edge with data bit `d` (R85). -/
def Responder.rise (d : Bool) (r : Responder) : Responder :=
  match r.mode with
  | .rx kind n sh =>
    if n < 8 then { r with mode := .rx kind (n + 1) (sh.extractLsb' 0 7 ++ BitVec.ofBool d) } else r
  | .tx n sh => { r with mode := .tx (n + 1) sh }
  | .mack => { r with mode := .mackd d }
  | .idle => r
  | .ack _ => r
  | .mackd _ => r

/-- The eighth bit of a byte is in and the clock falls (R86). -/
def Responder.received (kind : RxKind) (sh : Byte) (r : Responder) : Responder :=
  match kind with
  | .ctrl =>
    if sh = Config.opWrite then r.acknowledge .rxAddr id
    else if sh = Config.opRead then r.acknowledge .tx id
    else r.toIdle
  | .addr => r.acknowledge .rxData (Responder.setPtr sh)
  | .data => r.acknowledge .rxData (Responder.store sh)

/-- A falling clock edge (R86). -/
def Responder.fall (r : Responder) : Responder :=
  match r.mode with
  | .rx kind n sh => if n = 8 then r.received kind sh else r
  | .ack .rxAddr => { r with pull := false, mode := .rx .addr 0 0#8 }
  | .ack .rxData => { r with pull := false, mode := .rx .data 0 0#8 }
  | .ack .tx => r.beginTx
  | .tx n sh =>
    if n = 8 then { r with pull := false, mode := .mack }
    else if 1 ≤ n ∧ n ≤ 7 then { r with pull := !sh.getLsbD (7 - n) }
    else r
  | .mack => r
  | .mackd a => if a then r.toIdle else r.beginTx
  | .idle => r

/-- The response to the lines alone, before they are remembered (R82 to R86, tested in that order). -/
def Responder.edge (cs clk d : Bool) (r : Responder) : Responder :=
  if !cs || !r.pcs then r.toIdle
  else if r.pclk && clk && r.pd && !d then { r with mode := .rx .ctrl 0 0#8, pull := false }
  else if r.pclk && clk && !r.pd && d then r.toIdle
  else if !r.pclk && clk then r.rise d
  else if r.pclk && !clk then r.fall
  else r

/-- A write `W(v)` as the responder takes it (R82). -/
def Responder.take (v : Half) (r : Responder) : Responder :=
  { r.edge (Line.cs v) (Line.clk v) (Line.data v) with
    pcs := Line.cs v, pclk := Line.clk v, pd := Line.data v }

/-- A line-register value from its three lines (R101). -/
def Line.value (cs clk d : Bool) : Half := 0#10 ++ BitVec.ofBool cs ++ BitVec.ofBool clk ++ BitVec.ofBool d ++ 0#3

/-- The logical value a read returns (R87): the line is the AND of what both sides drive (R73). -/
def Responder.answer (r : Responder) : Half := Line.value r.pcs r.pclk (r.pd && !r.pull)

/-- The responder of R81 with the given memory, before any write. -/
def Responder.fresh (mem : List Host.Cell) (acksLeft : Option Nat) : Responder :=
  { pcs := false, pclk := false, pd := false, pull := false, ptr := 0#8, mem := mem, mode := .idle, acksLeft := acksLeft }

/-- A device takes a write of a logical value (R20, R82). -/
def Device.take (v : Half) : Device → Device
  | .responder r => .responder (r.take v)
  | .oracle answers => .oracle answers
  | .absent => .absent
  | .stuckLow => .stuckLow

/-- The target of a base address that no access has reached: an unknown line value (R25), any answers (R37), every access
acknowledged (DESIGN CHOICE log 4, DESIGN CHOICE log 10, DESIGN CHOICE log 11). -/
def Module.unknown (base : Nat) : Module :=
  { line := Config.freeLine base, device := .oracle [], grants := none }

/-- One access fewer to acknowledge (R74). -/
def Module.granted (m : Module) : Module := { m with grants := m.grants.map (· - 1) }

/-- The target has taken a write of the logical value `v` (R22, R65). -/
def Module.take (v : Half) (m : Module) : Module := { m with line := v, device := m.device.take v }

end Sys2Proof.Machine
end

