-- ==== Sys2Proof/Machine/Ops.lean ====
section
/-! DEFINITION. The named operations: the three events (R7), the buffer (R36), the life of a command (R140, R141), the
micro-sequences (R144 to R154), the one exception (R220), acceptance (R140) and reset (R250). -/

namespace Sys2Proof.Machine

/-! ### Events -/

/-- The target of a base address (R22). -/
def State.moduleAt (s : State) (base : Nat) : Module := (Table.get base s.modules).getD (Module.unknown base)

/-- `SEQ` moves on by one event inside its stage (R26). -/
def Seq.advance : Seq → Seq
  | .idle => .idle
  | .run st k => .run st (k + 1)

/-- An event is complete: it enters the trace, `SEQ` moves on, and a reset to come is one event nearer (R8, R26, R253). -/
def State.emit (e : Event) (s : State) : State :=
  { s with trace := e :: s.trace, seq := s.seq.advance, rst := s.rst.map (· - 1) }

/-- The master port with a write request raised (R61, R63). -/
def State.writeRequest (s : State) (v : Half) : MasterPort :=
  { s.mport with req := true, we := true, ack := false,
                 addr := Operand.effAddr s.par s.base, wdata := Operand.marshal s.par v }

/-- The master port with a read request raised (R61). -/
def State.readRequest (s : State) : MasterPort :=
  { s.mport with req := true, we := false, ack := false, addr := Operand.effAddr s.par s.base }

/-- The acknowledged access is over: the request falls, read data stand (R61). -/
def MasterPort.done (p : MasterPort) (rdata : Half) : MasterPort := { p with req := false, ack := true, rdata := rdata }

/-- `LineWrite(v)` (R7): a 16-bit access that the target takes, then `LASTD <- v[3]` (R28). A target that gives no acknowledge
leaves the request raised for ever (R74). -/
def State.lineWrite (v : Half) : State → State :=
  State.live fun s =>
    let m := s.moduleAt s.base
    let p := s.writeRequest v
    if m.grants = some 0 then { s with mport := p }
    else
      State.emit (.w s.base v)
        { s with mport := p.done s.mport.rdata, lastd := v.getLsbD 3,
                 modules := Table.put s.base (m.granted.take v) s.modules }

/-- `DLYCNT` counts down to 0, once per clock cycle (R34, R233). -/
def Delay.countDown : Nat → Nat
  | 0 => 0
  | n + 1 => Delay.countDown n

/-- `Delay()` (R7, R143): `DLYCNT` is loaded with `DELAY_CYCLES` and counts down to 0. -/
def State.delay : State → State :=
  State.live fun s => State.emit (.d s.base) { s with dlycnt := Delay.countDown s.par.delayCycles }

/-- What a target puts on `m_rdata`, the device after it, and the number of free values drawn by then. A responder and the
degenerate targets answer a logical value, which travels marshalled (R63, R87, R89); an oracle answers with bus words (R37). -/
def Device.answer (p : Params) (line : Half) (draws : Nat) : Device → Half × Device × Nat
  | .oracle [] => (Config.freeRead draws, .oracle [], draws + 1)
  | .oracle (v :: vs) => (v, .oracle vs, draws)
  | .responder r => (Operand.marshal p r.answer, .responder r, draws)
  | .absent => (Operand.marshal p line, .absent, draws)
  | .stuckLow => (Operand.marshal p (line &&& 0xFFF7#16), .stuckLow, draws)

/-- `SAMPLE <- LineRead()[3]` (R7, R24, R30). -/
def State.readSample : State → State :=
  State.live fun s =>
    let m := s.moduleAt s.base
    let p := s.readRequest
    if m.grants = some 0 then { s with mport := p }
    else
      let ans := m.device.answer s.par m.line s.draws
      let v := Operand.unmarshal s.par ans.1
      State.emit (.r s.base v)
        { s with mport := p.done ans.1, sample := v.getLsbD 3, draws := ans.2.2,
                 modules := Table.put s.base { m.granted with device := ans.2.1 } s.modules }

/-! ### The buffer -/

/-- `BUF[i]`: the word written there, else a free value (R36, U6, DESIGN CHOICE log 3). -/
def State.bufValue (s : State) (i : Index) : Half := (Table.get i.toNat s.buf).getD (Config.freeBuf s.draws)

/-- A free value is used up when an entry that nothing has written is read (DESIGN CHOICE log 3). -/
def State.bufTouch (i : Index) : State → State :=
  State.live fun s => if (Table.get i.toNat s.buf).isSome then s else { s with draws := s.draws + 1 }

/-- `BUF[i] <- v` (R203). -/
def State.bufWrite (i : Index) (v : Half) : State → State :=
  State.live fun s => { s with buf := Table.put i.toNat v s.buf }

/-! ### Life of a command -/

/-- The part of acceptance that begins the sequence: `BUSY <- 1`, `RDACK <- 0`, `SEQ` at the first stage (R140). -/
def State.launch (st : Stage) : State → State :=
  State.live fun s => { s with busy := true, rdack := 0#3, seq := .run st 0 }

/-- `SEQ <- st` (R7, R26). -/
def State.enter (st : Stage) : State → State := State.live fun s => { s with seq := .run st 0 }

/-- `Complete(status, rdata)` (R141). -/
def State.complete (status : BitVec 4) (rdata : Half) : State → State :=
  State.live fun s => { s with rsp := Operand.response s.rdack status rdata, busy := false, seq := .idle }

/-! ### Micro-sequences -/

/-- A write and the delay that follows it (R155). -/
def State.writeDelay (v : Half) (s : State) : State := State.delay (State.lineWrite v s)

/-- `BitClk(dbs, last)` (R144): the sample is left in `SAMPLE`. -/
def State.bitClk (dbs last : Bool) (s : State) : State :=
  State.readSample
    (State.writeDelay (Operand.clockHigh dbs)
      (State.writeDelay (Operand.clockLow dbs) (State.writeDelay (Operand.clockLow last) s)))

/-- `Select()` (R145). -/
def State.selectSeq (s : State) : State := State.writeDelay 0x0038#16 (State.writeDelay Config.idleValue s)

/-- `Deselect()` (R146). -/
def State.deselectSeq (s : State) : State := State.writeDelay Config.idleValue s

/-- `Start()` (R147). -/
def State.startSeq (s : State) : State :=
  State.writeDelay 0x0030#16
    (State.writeDelay 0x0038#16 (State.writeDelay 0x0028#16 (State.writeDelay (Operand.clockLow s.lastd) s)))

/-- `Stop()` (R148). -/
def State.stopSeq (s : State) : State :=
  State.writeDelay 0x0038#16
    (State.writeDelay 0x0030#16 (State.writeDelay 0x0020#16 (State.writeDelay (Operand.clockLow s.lastd) s)))

/-- `BITCNT <- BITCNT + 1` (R33, R187). -/
def State.countBit (s : State) : State := State.setBitcnt (s.bitcnt + 1#4) s

/-- `n` more bits of `SendByte(b)`, the next one `b[7 - BITCNT]` (R150). -/
def State.sendBits (b : Byte) : Nat → State → State
  | 0, s => s
  | n + 1, s => State.sendBits b n (State.countBit (State.bitClk (Operand.msbFirst b s.bitcnt.toNat) s.lastd s))

/-- `SendByte(b)` (R150). -/
def State.sendByte (b : Byte) (s : State) : State := State.sendBits b 8 (State.setBitcnt 0#4 s)

/-- `AckChk()` (R151): the sample is left in `SAMPLE`. -/
def State.ackChk (s : State) : State := State.bitClk true s.lastd s

/-- `n` more bits of `RecvByte()` (R152). -/
def State.recvBits : Nat → State → State
  | 0, s => s
  | n + 1, s => State.recvBits n (State.countBit (State.shiftAcc (State.bitClk true s.lastd s)))

/-- `RecvByte()` (R152). -/
def State.recvByte (s : State) : State := State.recvBits 8 (State.setBitcnt 0#4 s)

/-- `SendAck()` (R153). -/
def State.sendAck (s : State) : State := State.bitClk false s.lastd s

/-- `SendNack()` (R154). -/
def State.sendNack (s : State) : State := State.bitClk true s.lastd s

/-! ### The exception -/

/-- The abort path of checkpoint `k` (R182): nothing at checkpoint 1 of a build that keeps the latent defect (R228), `Stop` and
`Deselect` otherwise. `at_` gives the stages their place in the running command. -/
def State.abortPath (at_ : WStage → Stage) (k : BitVec 4) (s : State) : State :=
  if k = 1#4 ∧ s.par.ack1Cleanup = false then s
  else
    State.deselectSeq (State.enter (at_ (.abortDeselect k)) (State.stopSeq (State.enter (at_ (.abortStop k)) s)))

/-- `raise NoAck(k)` (R220, R227): the abort path, then the completion the running command reports the failure with. There is no
return from it (R229): the block is idle and takes the next command. -/
def State.raiseNoAck (at_ : WStage → Stage) (k status : BitVec 4) (rdata : Half) (s : State) : State :=
  State.complete status rdata (State.abortPath at_ k s)

/-! ### Acceptance and reset -/

/-- The part of acceptance that latches the command, `BASE` with the `ADDR_W` bits of the port (R29, R103, R140). An EEPROM instruction code is latched as the `SENDOP` that
sends it (DEDUCED log 7). -/
def State.accept (r : Request) (s : State) : State :=
  match r.code with
  | .cmd w => { s with op := Decode.op w, a := Decode.a w, data := Decode.data w, base := Operand.baseBits s.par r.base }
  | .eeop b => { s with op := 0x7#4, a := b, data := 0#16, base := Operand.baseBits s.par r.base }

/-- The state after `rst` (R38, R250 to R253): the block as in `State.reset`; the targets keep their lines, the EEPROM its state;
the parameters, what the host presents, the trace and the count of free values are no state of the block. The dead registers
take `State.reset`'s values (DESIGN CHOICE log 21). An access in flight is abandoned "in a way the platform defines" (R253): here a
write that waits for its acknowledge is dropped and its target never takes it (DESIGN CHOICE log 26). -/
def State.afterReset (s : State) : State :=
  { State.reset with modules := s.modules, par := s.par, script := s.script, trace := s.trace, draws := s.draws }

/-- A reset takes place now: `rst` has risen, or it is due and the block performs no event any more (R250, R253, DESIGN CHOICE log 9). -/
def State.resetDue (s : State) : Bool :=
  s.rst == some 0 || (s.rst.isSome && (s.mport.req || (!s.busy && s.script.isEmpty)))

end Sys2Proof.Machine
end

