-- ==== Sys2Proof/Machine/WordOps.lean ====
section
/-! DEFINITION. The word operations: `ReadWord` and `WriteWord` as micro-sequences (R180, R183, 42_bulk_ops.md), and the meanings of
RDWORD and WRWORD. `at_` gives a stage its place in the running command (R181, R184, R200, R201). -/

namespace Sys2Proof.Machine

/-- A word read begins: `ACC <- 0`, the first stage (R183, R184). -/
def State.beginRead (at_ : RStage → Stage) (s : State) : State := State.enter (at_ .select) (State.setAcc 0#16 s)

/-- `ReadWord(i)` from its first stage on (R183, R184): the word is left in `ACC`. It never aborts (R185). -/
def State.readWord (at_ : RStage → Stage) (i : Index) (s : State) : State :=
  let s := State.startSeq (State.enter (at_ .start) (State.selectSeq s))
  let s := State.sendByte Config.opWrite (State.enter (at_ .opcodeW) s)
  let s := State.noteAck 1 (State.ackChk (State.enter (at_ .ack1) s))
  let s := State.sendByte (Operand.addrByte i) (State.enter (at_ .addr) s)
  let s := State.noteAck 2 (State.ackChk (State.enter (at_ .ack2) s))
  let s := State.startSeq (State.enter (at_ .restart) s)
  let s := State.sendByte Config.opRead (State.enter (at_ .opcodeR) s)
  let s := State.noteAck 3 (State.ackChk (State.enter (at_ .ack3) s))
  let s := State.recvByte (State.enter (at_ .rxhi) s)
  let s := State.sendAck (State.enter (at_ .mack) s)
  let s := State.recvByte (State.enter (at_ .rxlo) s)
  let s := State.sendNack (State.enter (at_ .mnack) s)
  State.deselectSeq (State.enter (at_ .deselect) (State.stopSeq (State.enter (at_ .stop) s)))

/-- A word write up to and with checkpoint 1 (R180, R181). -/
def State.writeCode (at_ : WStage → Stage) (s : State) : State :=
  let s := State.startSeq (State.enter (at_ .start) (State.selectSeq s))
  State.ackChk (State.enter (at_ .ack1) (State.sendByte Config.opWrite (State.enter (at_ .opcode) s)))

/-- `WriteWord(i, w)` from its first stage on, up to its first failing checkpoint, whose number comes with the state, or through to
the end with 0 (R180, R181). -/
def State.writeWord (at_ : WStage → Stage) (i : Index) (w : Half) (s : State) : BitVec 4 × State :=
  let s := State.writeCode at_ s
  if s.sample then (1#4, s) else
  let s := State.ackChk (State.enter (at_ .ack2) (State.sendByte (Operand.addrByte i) (State.enter (at_ .addr) s)))
  if s.sample then (2#4, s) else
  let s := State.ackChk (State.enter (at_ .ack3) (State.sendByte (Operand.hiByte w) (State.enter (at_ .dhi) s)))
  if s.sample then (3#4, s) else
  let s := State.ackChk (State.enter (at_ .ack4) (State.sendByte (Operand.loByte w) (State.enter (at_ .dlo) s)))
  if s.sample then (4#4, s) else
  (0#4, State.deselectSeq (State.enter (at_ .deselect) (State.stopSeq (State.enter (at_ .stop) s))))

/-- `RDWORD index` (R183). -/
def execRdword (i : Index) (s : State) : Host.Outcome State Fault Refusal :=
  let t := State.readWord .read i (State.beginRead .read (State.launch (.read .select) s))
  .next (State.complete 0#4 t.acc t)

/-- `WRWORD index, data` (R180). -/
def execWrword (i : Index) (w : Half) (s : State) : Host.Outcome State Fault Refusal :=
  let r := State.writeWord .word i w (State.launch (.word .select) s)
  .next (if r.1 = 0#4 then State.complete 0#4 0#16 r.2 else State.raiseNoAck .word r.1 r.1 0#16 r.2)

end Sys2Proof.Machine
end

