-- ==== Sys2Proof/Machine/BulkOps.lean ====
section
/-! DEFINITION. The bulk operations and buffer access: RDALL, WRALL, BUFRD, BUFWR (R200 to R204). -/

namespace Sys2Proof.Machine

/-- `WIDX <- WIDX + 1` (R187, R204). -/
def State.countWord (s : State) : State := State.setWidx (s.widx + 1#8) s

/-- One word of `RDALL` (R200): `BUF[WIDX] <- ReadWord(WIDX[6:0])`, then the next index. -/
def State.rdallWord (s : State) : State :=
  let i := Operand.slot s.widx
  let t := State.readWord (.aWord i) i (State.beginRead (.aWord i) s)
  State.countWord (State.bufWrite i t.acc t)

/-- `n` more words of `RDALL` (R200, R204). -/
def State.rdallWords : Nat → State → State
  | 0, s => s
  | n + 1, s => State.rdallWords n (State.rdallWord s)

/-- `RDALL` (R200). -/
def execRdall (s : State) : Host.Outcome State Fault Refusal :=
  .next (State.complete 0#4 0#16
    (State.rdallWords Config.nwords (State.setWidx 0#8 (State.launch (.aWord 0#7 .select) s))))

/-- A word of `WRALL` begins: `BUF[WIDX]` is read and held, the first stage (R76, R201). -/
def State.beginWrite (s : State) : State :=
  let i := Operand.slot s.widx
  State.enter (.bWord i .select) (State.bufTouch i (State.setWword (s.bufValue i) s))

/-- `n` more words of `WRALL` (R201, R204): the first failing word ends the command. -/
def State.wrallWords : Nat → State → State
  | 0, s => State.complete 0#4 0#16 s
  | n + 1, s =>
    let i := Operand.slot s.widx
    let t := State.beginWrite s
    let r := State.writeWord (.bWord i) i t.wword t
    if r.1 = 0#4 then State.wrallWords n (State.countWord r.2)
    else State.raiseNoAck (.bWord i) r.1 1#4 (Operand.failure i r.1) r.2

/-- `WRALL` (R201). -/
def execWrall (s : State) : Host.Outcome State Fault Refusal :=
  .next (State.wrallWords Config.nwords (State.setWidx 0#8 (State.launch (.bWord 0#7 .select) s)))

/-- `BUFRD index` (R202). -/
def execBufrd (i : Index) (s : State) : Host.Outcome State Fault Refusal :=
  let t := State.launch (.prim .bufrd) s
  .next (State.complete 0#4 (t.bufValue i) (State.bufTouch i t))

/-- `BUFWR index, data` (R203). -/
def execBufwr (i : Index) (w : Half) (s : State) : Host.Outcome State Fault Refusal :=
  .next (State.complete 0#4 0#16 (State.bufWrite i w (State.launch (.prim .bufwr) s)))

end Sys2Proof.Machine
end

