-- ==== Sys2Proof/Machine/Primitives.lean ====
section
/-! DEFINITION. The meanings of the primitive commands: DELAY, BITCLK, SELECT, DESELECT, START, STOP, SENDOP (R142 to R150). -/

namespace Sys2Proof.Machine

/-- `DELAY` (R143). -/
def execDelay (s : State) : Host.Outcome State Fault Refusal :=
  .next (State.complete 0#4 0#16 (State.delay (State.launch (.prim .delay) s)))

/-- `BITCLK dbs, lastdbs` (R144). -/
def execBitclk (dbs lastdbs : Bool) (s : State) : Host.Outcome State Fault Refusal :=
  let t := State.bitClk dbs lastdbs (State.launch (.prim .bitclk) s)
  .next (State.complete 0#4 (Operand.bitData t.sample) t)

/-- `SELECT` (R145). -/
def execSelect (s : State) : Host.Outcome State Fault Refusal :=
  .next (State.complete 0#4 0#16 (State.selectSeq (State.launch (.prim .select) s)))

/-- `DESELECT` (R146). -/
def execDeselect (s : State) : Host.Outcome State Fault Refusal :=
  .next (State.complete 0#4 0#16 (State.deselectSeq (State.launch (.prim .deselect) s)))

/-- `START` (R147). -/
def execStart (s : State) : Host.Outcome State Fault Refusal :=
  .next (State.complete 0#4 0#16 (State.startSeq (State.launch (.prim .start) s)))

/-- `STOP` (R148). -/
def execStop (s : State) : Host.Outcome State Fault Refusal :=
  .next (State.complete 0#4 0#16 (State.stopSeq (State.launch (.prim .stop) s)))

/-- The opcode primitive as a command (R149): the eight samples are discarded. -/
def State.opcodeCommand (code : Byte) (s : State) : State :=
  State.complete 0#4 0#16 (State.sendByte code (State.launch (.prim .sendop) s))

/-- `SENDOP code` (R149). -/
def execSendop (code : Byte) (s : State) : Host.Outcome State Fault Refusal := .next (State.opcodeCommand code s)

end Sys2Proof.Machine
end

