-- ==== Sys2Proof/Machine/EepromCodes.lean ====
section
/-! DEFINITION. The meanings of the two EEPROM instruction codes (R108): the opcode primitive sends the code on the line, most
significant bit first (R111, R149); what the device then does is the target's part (R86, DEDUCED log 7). -/

namespace Sys2Proof.Machine

/-- `EE_WRITE`: the code "write", `0xAF`, goes out on the line (R108). -/
def execEeWrite (s : State) : Host.Outcome State Fault Refusal := .next (State.opcodeCommand Config.opWrite s)

/-- `EE_READ`: the code "read", `0xAE`, goes out on the line (R108). -/
def execEeRead (s : State) : Host.Outcome State Fault Refusal := .next (State.opcodeCommand Config.opRead s)

end Sys2Proof.Machine
end

