-- ==== Sys2Proof/Machine/Illegal.lean ====
section
/-! DEFINITION. The meanings of the reserved command codes (R114, R224): an illegal command completes at once with status 15. -/

namespace Sys2Proof.Machine

/-- An illegal command: `Complete(0xF, 0x0000)` and no other effect (R114, R224). -/
def State.illegal (s : State) : State := State.complete 0xF#4 0#16 (State.launch (.prim .illegal) s)

/-- The reserved code `0x0` (R114). -/
def execReserved0 (s : State) : Host.Outcome State Fault Refusal := .next (State.illegal s)

/-- The reserved code `0xE` (R114). -/
def execReservedE (s : State) : Host.Outcome State Fault Refusal := .next (State.illegal s)

/-- The reserved code `0xF` (R114). -/
def execReservedF (s : State) : Host.Outcome State Fault Refusal := .next (State.illegal s)

end Sys2Proof.Machine
end

