-- ==== Sys2Proof/Machine/Dispatch.lean ====
section
/-! DEFINITION. The dispatch: one arm per instruction, each one call of its meaning. -/

namespace Sys2Proof.Machine

/-- The effect of a whole command, from the start of its sequence to its completion (R140, R141). -/
def exec (i : Instr) (s : State) : Host.Outcome State Fault Refusal :=
  match i with
  | .delay => Sys2Proof.Machine.execDelay s
  | .bitclk dbs lastdbs => Sys2Proof.Machine.execBitclk dbs lastdbs s
  | .select => Sys2Proof.Machine.execSelect s
  | .deselect => Sys2Proof.Machine.execDeselect s
  | .start => Sys2Proof.Machine.execStart s
  | .stop => Sys2Proof.Machine.execStop s
  | .sendop code => Sys2Proof.Machine.execSendop code s
  | .rdword index => Sys2Proof.Machine.execRdword index s
  | .wrword index data => Sys2Proof.Machine.execWrword index data s
  | .rdall => Sys2Proof.Machine.execRdall s
  | .wrall => Sys2Proof.Machine.execWrall s
  | .bufrd index => Sys2Proof.Machine.execBufrd index s
  | .bufwr index data => Sys2Proof.Machine.execBufwr index data s
  | .reserved0 => Sys2Proof.Machine.execReserved0 s
  | .reservedE => Sys2Proof.Machine.execReservedE s
  | .reservedF => Sys2Proof.Machine.execReservedF s
  | .eeWrite => Sys2Proof.Machine.execEeWrite s
  | .eeRead => Sys2Proof.Machine.execEeRead s

end Sys2Proof.Machine
end

