-- ==== Sys2Proof/Machine/Sequencer.lean ====
section
/-! DEFINITION. The sequencer one event at a time (R26): the micro-sequence of each stage (R142, R181, R184, R200, R201), the event at
each step of it (R158), and the stage that follows. `step` uses it while `BUSY = 1`; operands come from the latches (R29). -/

namespace Sys2Proof.Machine

/-- What a stage runs. -/
inductive Micro
  /-- No event: the command completes at once (R202, R203, R224); its stage is the model's (DESIGN CHOICE log 27). -/
  | none
  /-- `Delay()`. -/
  | delay
  /-- `BitClk(dbs, last)`; without `last` the data bit on the line, `LASTD`, is held. -/
  | bit (dbs : Bool) (last : Option Bool)
  /-- Writes, each with its delay (R145 to R148). -/
  | writes (ws : List Half)
  /-- `SendByte(b)`. -/
  | send (b : Byte)
  /-- `RecvByte()`. -/
  | recv
  deriving DecidableEq, Repr

/-- The writes of `Select` (R145). -/
def Micro.select : Micro := .writes [Config.idleValue, 0x0038#16]

/-- The write of `Deselect` (R146). -/
def Micro.deselect : Micro := .writes [Config.idleValue]

/-- The writes of `Start` with data bit `last` on the line (R147). -/
def Micro.start (last : Bool) : Micro := .writes [Operand.clockLow last, 0x0028#16, 0x0038#16, 0x0030#16]

/-- The writes of `Stop` with data bit `last` on the line (R148). -/
def Micro.stop (last : Bool) : Micro := .writes [Operand.clockLow last, 0x0020#16, 0x0030#16, 0x0038#16]

/-- The number of events (R158). -/
def Micro.length : Micro → Nat
  | .none => 0
  | .delay => 1
  | .bit _ _ => 7
  | .writes ws => 2 * ws.length
  | .send _ => 56
  | .recv => 56

/-- The micro-sequence of a stage of a word write (R181). -/
def WStage.micro (i : Index) (w : Half) (last : Bool) : WStage → Micro
  | .select => Micro.select
  | .start => Micro.start last
  | .opcode => .send Config.opWrite
  | .ack1 => .bit true Option.none
  | .addr => .send (Operand.addrByte i)
  | .ack2 => .bit true Option.none
  | .dhi => .send (Operand.hiByte w)
  | .ack3 => .bit true Option.none
  | .dlo => .send (Operand.loByte w)
  | .ack4 => .bit true Option.none
  | .stop => Micro.stop last
  | .deselect => Micro.deselect
  | .abortStop _ => Micro.stop last
  | .abortDeselect _ => Micro.deselect

/-- The micro-sequence of a stage of a word read (R184). -/
def RStage.micro (i : Index) (last : Bool) : RStage → Micro
  | .select => Micro.select
  | .start => Micro.start last
  | .opcodeW => .send Config.opWrite
  | .ack1 => .bit true Option.none
  | .addr => .send (Operand.addrByte i)
  | .ack2 => .bit true Option.none
  | .restart => Micro.start last
  | .opcodeR => .send Config.opRead
  | .ack3 => .bit true Option.none
  | .rxhi => .recv
  | .mack => .bit false Option.none
  | .rxlo => .recv
  | .mnack => .bit true Option.none
  | .stop => Micro.stop last
  | .deselect => Micro.deselect

/-- The micro-sequence of a one-stage command (R142). -/
def Prim.micro (a : Byte) (last : Bool) : Prim → Micro
  | .delay => .delay
  | .bitclk => .bit (Decode.dbs a) (some (Decode.lastarg a))
  | .select => Micro.select
  | .deselect => Micro.deselect
  | .start => Micro.start last
  | .stop => Micro.stop last
  | .sendop => .send a
  | .bufrd => .none
  | .bufwr => .none
  | .illegal => .none

/-- The micro-sequence of a stage, its operands taken from the latches (R29, R76). -/
def State.micro (s : State) : Stage → Micro
  | .prim p => p.micro s.a s.lastd
  | .word w => w.micro (Decode.index s.a) s.data s.lastd
  | .read r => r.micro (Decode.index s.a) s.lastd
  | .aWord i r => r.micro i s.lastd
  | .bWord i w => w.micro i s.wword s.lastd

/-- Event number `p` of a bit clock (R144). -/
def State.bitEvent (dbs last : Bool) (p : Nat) (s : State) : State :=
  match p with
  | 0 => State.lineWrite (Operand.clockLow last) s
  | 1 => State.delay s
  | 2 => State.lineWrite (Operand.clockLow dbs) s
  | 3 => State.delay s
  | 4 => State.lineWrite (Operand.clockHigh dbs) s
  | 5 => State.delay s
  | _ => State.readSample s

/-- Event number `k` of a micro-sequence, with what the block writes beside it (R150, R152). -/
def State.event (m : Micro) (k : Nat) (s : State) : State :=
  match m with
  | .none => s
  | .delay => State.delay s
  | .bit dbs last => State.bitEvent dbs (last.getD s.lastd) k s
  | .writes ws => if k % 2 = 0 then State.lineWrite (ws.getD (k / 2) 0#16) s else State.delay s
  | .send b =>
    let t := State.bitEvent (Operand.msbFirst b s.bitcnt.toNat) s.lastd (k % 7) s
    if k % 7 = 6 then State.countBit t else t
  | .recv =>
    let t := State.bitEvent true s.lastd (k % 7) s
    if k % 7 = 6 then State.countBit (State.shiftAcc t) else t

/-- Enter a stage that sends or receives a byte: the bit counter is loaded (R33). -/
def State.enterByte (st : Stage) (s : State) : State := State.setBitcnt 0#4 (State.enter st s)

/-- From one stage of a word write to the next (R181); `good` and `bad` complete the word. -/
def State.leaveWrite (at_ : WStage → Stage) (good : State → State) (bad : BitVec 4 → State → State) (w : WStage) (s : State) :
    State :=
  match w with
  | .select => State.enter (at_ .start) s
  | .start => State.enterByte (at_ .opcode) s
  | .opcode => State.enter (at_ .ack1) s
  | .ack1 =>
    if s.sample then (if s.par.ack1Cleanup then State.enter (at_ (.abortStop 1#4)) s else bad 1#4 s)
    else State.enterByte (at_ .addr) s
  | .addr => State.enter (at_ .ack2) s
  | .ack2 => if s.sample then State.enter (at_ (.abortStop 2#4)) s else State.enterByte (at_ .dhi) s
  | .dhi => State.enter (at_ .ack3) s
  | .ack3 => if s.sample then State.enter (at_ (.abortStop 3#4)) s else State.enterByte (at_ .dlo) s
  | .dlo => State.enter (at_ .ack4) s
  | .ack4 => if s.sample then State.enter (at_ (.abortStop 4#4)) s else State.enter (at_ .stop) s
  | .stop => State.enter (at_ .deselect) s
  | .deselect => good s
  | .abortStop k => State.enter (at_ (.abortDeselect k)) s
  | .abortDeselect k => bad k s

/-- From one stage of a word read to the next (R184); `good` completes the word. -/
def State.leaveRead (at_ : RStage → Stage) (good : State → State) (r : RStage) (s : State) : State :=
  match r with
  | .select => State.enter (at_ .start) s
  | .start => State.enterByte (at_ .opcodeW) s
  | .opcodeW => State.enter (at_ .ack1) s
  | .ack1 => State.enterByte (at_ .addr) (State.noteAck 1 s)
  | .addr => State.enter (at_ .ack2) s
  | .ack2 => State.enter (at_ .restart) (State.noteAck 2 s)
  | .restart => State.enterByte (at_ .opcodeR) s
  | .opcodeR => State.enter (at_ .ack3) s
  | .ack3 => State.enterByte (at_ .rxhi) (State.noteAck 3 s)
  | .rxhi => State.enter (at_ .mack) s
  | .mack => State.enterByte (at_ .rxlo) s
  | .rxlo => State.enter (at_ .mnack) s
  | .mnack => State.enter (at_ .stop) s
  | .stop => State.enter (at_ .deselect) s
  | .deselect => good s

/-- A one-stage command is at its end (R143 to R149, R202, R203, R224). -/
def State.leavePrim (p : Prim) (s : State) : State :=
  match p with
  | .delay => State.complete 0#4 0#16 s
  | .bitclk => State.complete 0#4 (Operand.bitData s.sample) s
  | .select => State.complete 0#4 0#16 s
  | .deselect => State.complete 0#4 0#16 s
  | .start => State.complete 0#4 0#16 s
  | .stop => State.complete 0#4 0#16 s
  | .sendop => State.complete 0#4 0#16 s
  | .bufrd => State.complete 0#4 (s.bufValue (Decode.index s.a)) (State.bufTouch (Decode.index s.a) s)
  | .bufwr => State.complete 0#4 0#16 (State.bufWrite (Decode.index s.a) s.data s)
  | .illegal => State.complete 0xF#4 0#16 s

/-- A word of `RDALL` is read: store it, count, and go on to the next one or complete (R200, R204). -/
def State.leaveAWord (i : Index) (s : State) : State :=
  let t := State.countWord (State.bufWrite i s.acc s)
  if t.widx = 128#8 then State.complete 0#4 0#16 t
  else State.beginRead (.aWord (Operand.slot t.widx)) t

/-- A word of `WRALL` is written: count, and go on to the next one or complete (R201, R204). -/
def State.leaveBWord (s : State) : State :=
  let t := State.countWord s
  if t.widx = 128#8 then State.complete 0#4 0#16 t else State.beginWrite t

/-- The end of a stage: `SEQ <-` the next one, or `Complete` (R26, R159). -/
def State.leave (st : Stage) (s : State) : State :=
  match st with
  | .prim p => State.leavePrim p s
  | .word w =>
    State.leaveWrite .word (State.complete 0#4 0#16) (fun k => State.complete k 0#16) w s
  | .read r => State.leaveRead .read (fun t => State.complete 0#4 t.acc t) r s
  | .aWord i r => State.leaveRead (.aWord i) (State.leaveAWord i) r s
  | .bWord i w =>
    State.leaveWrite (.bWord i) State.leaveBWord (fun k => State.complete 1#4 (Operand.failure i k)) w s

/-- `SEQ` names an event, or the completion of a command that has none (R26). -/
def State.seqNamesEvent (s : State) : Bool :=
  match s.seq with
  | .idle => false
  | .run st k => decide (k < (s.micro st).length) || (decide (s.micro st = .none) && decide (k = 0))

/-- The running command's next event, and what follows from it (R26). A sequence that has stopped stays as it is (R74, R253). -/
def State.tick (s : State) : State :=
  match s.seq with
  | .idle => s
  | .run st k =>
    let m := s.micro st
    let t := State.event m k s
    if k + 1 < m.length then t else State.leave st t

/-- `n` events. -/
def State.ticks : Nat → State → State
  | 0, s => s
  | n + 1, s => State.ticks n (State.tick s)

/-- The start of a command's sequence (R140): what `exec` does before its first event. -/
def State.begin (i : Instr) (s : State) : State :=
  match i with
  | .delay => State.launch (.prim .delay) s
  | .bitclk _ _ => State.launch (.prim .bitclk) s
  | .select => State.launch (.prim .select) s
  | .deselect => State.launch (.prim .deselect) s
  | .start => State.launch (.prim .start) s
  | .stop => State.launch (.prim .stop) s
  | .sendop _ => State.setBitcnt 0#4 (State.launch (.prim .sendop) s)
  | .rdword _ => State.beginRead .read (State.launch (.read .select) s)
  | .wrword _ _ => State.launch (.word .select) s
  | .rdall => State.beginRead (.aWord 0#7) (State.setWidx 0#8 (State.launch (.aWord 0#7 .select) s))
  | .wrall => State.beginWrite (State.setWidx 0#8 (State.launch (.bWord 0#7 .select) s))
  | .bufrd _ => State.launch (.prim .bufrd) s
  | .bufwr _ _ => State.launch (.prim .bufwr) s
  | .reserved0 => State.launch (.prim .illegal) s
  | .reservedE => State.launch (.prim .illegal) s
  | .reservedF => State.launch (.prim .illegal) s
  | .eeWrite => State.setBitcnt 0#4 (State.launch (.prim .sendop) s)
  | .eeRead => State.setBitcnt 0#4 (State.launch (.prim .sendop) s)

end Sys2Proof.Machine
end

