-- ==== Sys2Proof/Machine/Step.lean ====
section
/-! DEFINITION. One step of the machine. An idle block takes the presented command and runs it to its completion (R140, R141; DESIGN CHOICE log 1);
a busy block performs the running command's next event (R26) or waits (R74); a reset that is due takes place (R250). -/

namespace Sys2Proof.Machine

/-- Why `step` refuses a code that is no instruction. -/
def refuseCode : Reject → Refusal
  | .unknownEepromCode b => .unknownEepromCode b

/-- An idle block takes a request (R103, R140): it latches the command, decodes the latches and runs it. -/
def runRequest (r : Request) (s : State) : Host.Outcome State Fault Refusal :=
  let t := State.accept r s
  match decode (Operand.latched r.code t) with
  | .ok i => exec i t
  | .error e => .refused (refuseCode e)

/-- One step. A request is taken when `cmd_valid` and `cmd_ready` are 1, that is when one is presented and BUSY = 0 (R103, R140). -/
def step (s : State) : Host.Outcome State Fault Refusal :=
  if s.resetDue then .next s.afterReset
  else if s.busy then
    if s.seqNamesEvent then .next s.tick else .fault .illegalSequence
  else
    match s.script with
    | [] => .next s
    | r :: rest => runRequest r { s with script := rest }

/-- The state with the instruction whose bits are `w` presented at the command port of an idle block, so that the next step
takes and runs it (R103; DESIGN CHOICE log 16). -/
def State.withFetchWord (s : State) (nbits w : Nat) : State :=
  { s with busy := false, seq := .idle, rst := none, mport := { s.mport with req := false },
           script := { code := Decode.tableCode nbits w, base := s.base } :: s.script }

end Sys2Proof.Machine
end

