-- ==== Sys2Proof/Machine/Script.lean ====
section
/-! DEFINITION. Command scripts (R118) and their pseudo-instructions (R119): a line is a command or a name for a micro-sequence that is
none, whose expansion depends on the data bit of the last write before it. All lines here are for the latched base address; a
script whose lines name base addresses of their own (`@base`) is `State.script`, each request with its base (R103). -/

namespace Sys2Proof.Machine

/-- A number in C notation (R118). -/
def Script.number (n : Nat) : String := toString n

/-- A bit operand (R118). -/
def Script.bit (b : Bool) : String := if b then "1" else "0"

/-- A command as a script writes it: the mnemonic, then the operands, comma-separated (R118). The codes without a command of
their own are written by the opcode table's name. -/
def Script.text : Instr → String
  | .delay => "DELAY"
  | .bitclk dbs lastdbs => "BITCLK " ++ Script.bit dbs ++ ", " ++ Script.bit lastdbs
  | .select => "SELECT"
  | .deselect => "DESELECT"
  | .start => "START"
  | .stop => "STOP"
  | .sendop code => "SENDOP " ++ Script.number code.toNat
  | .rdword index => "RDWORD " ++ Script.number index.toNat
  | .wrword index data => "WRWORD " ++ Script.number index.toNat ++ ", " ++ Script.number data.toNat
  | .rdall => "RDALL"
  | .wrall => "WRALL"
  | .bufrd index => "BUFRD " ++ Script.number index.toNat
  | .bufwr index data => "BUFWR " ++ Script.number index.toNat ++ ", " ++ Script.number data.toNat
  | .reserved0 => "RESERVED_0"
  | .reservedE => "RESERVED_E"
  | .reservedF => "RESERVED_F"
  | .eeWrite => "EE_WRITE"
  | .eeRead => "EE_READ"

/-- A line of a script (R118, R119). -/
inductive Line
  | command (i : Instr)
  | ackChk
  | sendAck
  | sendNack
  | recvBit
  | sendByte (b : Byte)
  | recvByte
  deriving DecidableEq, Repr

/-- The commands a line stands for, when `LASTD` is `lastd` before it (R119). -/
def Line.expand (lastd : Bool) : Line → List Instr
  | .command i => [i]
  | .ackChk => [.bitclk true lastd]
  | .sendAck => [.bitclk false lastd]
  | .sendNack => [.bitclk true lastd]
  | .recvBit => [.bitclk true lastd]
  | .sendByte b => [.sendop b]
  | .recvByte => .bitclk true lastd :: List.replicate 7 (.bitclk true true)

/-- Commands issued one after another, each when the previous one has completed (R118). -/
def Script.commands : List Instr → State → Option State
  | [], s => some s
  | i :: rest, s =>
    match exec i s with
    | .next t => Script.commands rest t
    | .fault _ => none
    | .refused _ => none

/-- A script, line by line (R118, R119). -/
def Script.lines : List Line → State → Option State
  | [], s => some s
  | l :: rest, s => (Script.commands (l.expand s.lastd) s).bind (Script.lines rest)

/-- The script with the trace of `WRWORD i, w` when every `ACKCHK` returns 0 (R119). -/
def Script.wrword (i : Index) (w : Half) : List Line :=
  [.command .select, .command .start,
   .sendByte 0xAF#8, .ackChk, .sendByte (BitVec.ofNat 8 (2 * i.toNat)), .ackChk,
   .sendByte (BitVec.ofNat 8 (w.toNat / 256)), .ackChk, .sendByte (BitVec.ofNat 8 (w.toNat % 256)), .ackChk,
   .command .stop, .command .deselect]

/-- The script with the trace of `RDWORD i` (R113, R119; 95_test_vectors.md P5). -/
def Script.rdword (i : Index) : List Line :=
  [.command .select, .command .start,
   .sendByte 0xAF#8, .ackChk, .sendByte (BitVec.ofNat 8 (2 * i.toNat)), .ackChk,
   .command .start, .sendByte 0xAE#8, .ackChk,
   .recvByte, .sendAck, .recvByte, .sendNack, .command .stop, .command .deselect]

end Sys2Proof.Machine
end

