-- ==== Sys2Proof/Safety.lean ====
section
/-! DEFINITION. The terms claims are made in: the events of a command as a frame on the line (R8, R111 to R113), written from the
frames and not from the operations; when a command runs undisturbed; the laws of a trace (R102, R120, R155, R157); and the
invariants of the machine. -/

namespace Sys2Proof.Machine

/-! ### Events of a command -/

/-- An event without its base address and without the answer of a read: the part a command decides (R159). -/
inductive Item
  | w (v : Half)
  | d
  | r
  deriving DecidableEq, Repr

/-- The part of an event its command decides. -/
def Event.item : Event → Item
  | .w _ v => .w v
  | .d _ => .d
  | .r _ _ => .r

/-- The base address an event is tagged with (R8). -/
def Event.base : Event → Nat
  | .w b _ => b
  | .d b => b
  | .r b _ => b

/-- The answer of a read. -/
def Event.answer : Event → Option Half
  | .w _ _ => none
  | .d _ => none
  | .r _ v => some v

/-- The written value of a write. -/
def Item.written : Item → Option Half
  | .w v => some v
  | .d => none
  | .r => none

/-- The items of events, oldest first. -/
def Trace.items (evs : List Event) : List Item := evs.map Event.item

/-- The values written, oldest first. -/
def Trace.writes (evs : List Event) : List Half := (Trace.items evs).filterMap Item.written

/-- The values read, oldest first. -/
def Trace.reads (evs : List Event) : List Half := evs.filterMap Event.answer

/-- The samples taken, oldest first: bit 3 of each value read (R24, R231). -/
def Trace.samples (evs : List Event) : List Bool := (Trace.reads evs).map fun v => v.getLsbD 3

/-- Sample number `n`, counted from 0; false where there is none. -/
def Trace.sample (evs : List Event) (n : Nat) : Bool := (Trace.samples evs).getD n false

/-- The number of delays. -/
def Trace.delays (evs : List Event) : Nat := (Trace.items evs).count .d

/-- The least time a machine takes for events, in picoseconds: the delays alone (R265, R266). -/
def Trace.leastTime (p : Params) (evs : List Event) : Nat := Trace.delays evs * (p.delayCycles * p.tClkPs)

/-- From `s` to `t` exactly the events `evs` took place, oldest first, all tagged with the latched base address (R8). -/
def State.ran (s t : State) (evs : List Event) : Prop :=
  t.trace = evs.reverse ++ s.trace ∧ ∀ e ∈ evs, e.base = s.base

/-! ### Frames on the line -/

/-- Chip-select asserted, clock low: `0x0020 | data << 3` (R102). -/
def Frame.low (d : Bool) : Half := 0x0020#16 ||| ((BitVec.ofBool d).setWidth 16 <<< 3)

/-- Chip-select asserted, clock high: `0x0020 | 1 << 4 | data << 3` (R102). -/
def Frame.high (d : Bool) : Half := 0x0030#16 ||| ((BitVec.ofBool d).setWidth 16 <<< 3)

/-- Writes, a delay after each (R155). -/
def Frame.writes (vs : List Half) : List Item := vs.flatMap fun v => [.w v, .d]

/-- One bit clock (R144). -/
def Frame.bit (dbs last : Bool) : List Item := Frame.writes [Frame.low last, Frame.low dbs, Frame.high dbs] ++ [.r]

/-- Bits one after another, the data bit `last` on the line before them (R111). -/
def Frame.bits : Bool → List Bool → List Item
  | _, [] => []
  | last, b :: rest => Frame.bit b last ++ Frame.bits b rest

/-- The bits of a byte, most significant first (R111). -/
def Frame.msbFirst (b : Byte) : List Bool := [7, 6, 5, 4, 3, 2, 1, 0].map fun i => b.getLsbD i

/-- A byte sent (R111, R150). -/
def Frame.byte (last : Bool) (b : Byte) : List Item := Frame.bits last (Frame.msbFirst b)

/-- Select (R145). -/
def Frame.select : List Item := Frame.writes [0x0000#16, 0x0038#16]

/-- Deselect (R146). -/
def Frame.deselect : List Item := Frame.writes [0x0000#16]

/-- Start (R147). -/
def Frame.start (last : Bool) : List Item := Frame.writes [Frame.low last, 0x0028#16, 0x0038#16, 0x0030#16]

/-- Stop (R148). -/
def Frame.stop (last : Bool) : List Item := Frame.writes [Frame.low last, 0x0020#16, 0x0030#16, 0x0038#16]

/-- The address byte, `index * 2` (R109). -/
def Frame.address (i : Index) : Byte := BitVec.ofNat 8 (2 * i.toNat)

/-- The high byte of a word (R110). -/
def Frame.high8 (w : Half) : Byte := BitVec.ofNat 8 (w.toNat / 256)

/-- The low byte of a word (R110). -/
def Frame.low8 (w : Half) : Byte := BitVec.ofNat 8 (w.toNat % 256)

/-- The write frame up to and with acknowledge 1 (R112). -/
def Frame.write1 : List Item :=
  Frame.select ++ Frame.start true ++ Frame.byte false 0xAF#8 ++ Frame.bit true true

/-- The write frame up to and with acknowledge 2 (R112). -/
def Frame.write2 (i : Index) : List Item :=
  Frame.write1 ++ Frame.byte true (Frame.address i) ++ Frame.bit true ((Frame.address i).getLsbD 0)

/-- The write frame up to and with acknowledge 3 (R112). -/
def Frame.write3 (i : Index) (w : Half) : List Item :=
  Frame.write2 i ++ Frame.byte true (Frame.high8 w) ++ Frame.bit true ((Frame.high8 w).getLsbD 0)

/-- The write frame up to and with acknowledge 4 (R112). -/
def Frame.write4 (i : Index) (w : Half) : List Item :=
  Frame.write3 i w ++ Frame.byte true (Frame.low8 w) ++ Frame.bit true ((Frame.low8 w).getLsbD 0)

/-- Stop and deselect after an acknowledge (R112, R182). -/
def Frame.close : List Item := Frame.stop true ++ Frame.deselect

/-- The read frame (R113). -/
def Frame.read (i : Index) : List Item :=
  Frame.write2 i ++ Frame.start true ++ Frame.byte false 0xAE#8 ++ Frame.bit true false
    ++ Frame.bits true (List.replicate 8 true) ++ Frame.bit false true
    ++ Frame.bits false (List.replicate 8 true) ++ Frame.bit true true ++ Frame.close

/-- Bits as a number, the first one most significant (R186). -/
def Frame.number (bs : List Bool) : Nat := bs.foldl (fun n b => 2 * n + b.toNat) 0

/-- The word the samples of a read frame carry: samples 27 to 34 and 36 to 43 (R113, R186). -/
def Frame.word (samples : List Bool) : Half :=
  BitVec.ofNat 16 (Frame.number ((samples.drop 27).take 8 ++ (samples.drop 36).take 8))

/-- The acknowledge record of a read frame: samples 8, 17 and 26 (R32, R113). -/
def Frame.acks (samples : List Bool) : BitVec 3 :=
  BitVec.ofNat 3 ((samples.getD 8 false).toNat + 2 * (samples.getD 17 false).toNat + 4 * (samples.getD 26 false).toNat)

/-- The events of a word write, from its samples: the frame as far as the first missing acknowledge, and its close where the
abort path has one (R180, R182). -/
def Frame.write (p : Params) (i : Index) (w : Half) (sample : Nat → Bool) : List Item :=
  if sample 8 then (if p.ack1Cleanup then Frame.write1 ++ Frame.close else Frame.write1)
  else if sample 17 then Frame.write2 i ++ Frame.close
  else if sample 26 then Frame.write3 i w ++ Frame.close
  else Frame.write4 i w ++ Frame.close

/-- The code of a word write, from its samples: the first missing acknowledge, 0 for none (R107, R221). -/
def Frame.code (sample : Nat → Bool) : Nat :=
  if sample 8 then 1 else if sample 17 then 2 else if sample 26 then 3 else if sample 35 then 4 else 0

/-- The number of writes of a word write that fails at checkpoint `k`, its abort path counted (R182, R266). -/
def Frame.failedWrites (p : Params) (k : Nat) : Nat :=
  if k = 1 then (if p.ack1Cleanup then 38 else 33) else if k = 2 then 65 else if k = 3 then 92 else 119

/-- A response word from its fields (R106). -/
def Frame.rsp (rdack status rdata : Nat) : Word := BitVec.ofNat 32 (rdata + 65536 * status + 1048576 * rdack)

/-! ### Undisturbed commands and frames of state -/

/-- No access is waiting and no reset is coming (R74, R250). -/
def State.calm (s : State) : Prop := s.mport.req = false ∧ s.rst = none

/-- Calm, and the target of the latched base address acknowledges every access (R74, R141). -/
def State.ready (s : State) : Prop := s.calm ∧ (s.moduleAt s.base).grants = none

/-- What no command ever writes: the latches, the parameters, what the host presents, the reset input. -/
def State.untouched (s t : State) : Prop :=
  t.op = s.op ∧ t.base = s.base ∧ t.a = s.a ∧ t.data = s.data ∧ t.par = s.par ∧ t.script = s.script ∧ t.rst = s.rst

/-- The registers of the word and bulk commands. -/
def State.countersKept (s t : State) : Prop := t.acc = s.acc ∧ t.widx = s.widx ∧ t.wword = s.wword

/-- Every entry of `BUF` as before. -/
def State.bufKept (s t : State) : Prop := ∀ k, Table.get k t.buf = Table.get k s.buf

/-- The targets of the other base addresses are as before (R235). -/
def State.othersKept (s t : State) : Prop := ∀ b, b ≠ s.base → t.moduleAt b = s.moduleAt b

/-- The block is idle with a response of the given fields (R106, R141). -/
def State.completed (t : State) (rdack status rdata : Nat) : Prop :=
  t.busy = false ∧ t.seq = .idle ∧ t.rsp = Frame.rsp rdack status rdata ∧ t.rdack = BitVec.ofNat 3 rdack

/-- What stands in the target and in the block when the last write of a command was `v` (R22, R28): no request is raised (R61), and
the delay is over (R34). -/
def State.lineLeft (s t : State) (v : Half) : Prop :=
  (t.moduleAt s.base).line = v ∧ t.lastd = v.getLsbD 3 ∧ t.mport.req = false ∧ t.dlycnt = 0

/-- What the address and write-data signals of the master port carry for a write of `v` (R61, R63). That they keep it after the
request has fallen is DESIGN CHOICE log 17. -/
def State.portCarries (s t : State) (v : Half) : Prop :=
  t.mport.addr = Operand.effAddr s.par s.base ∧ t.mport.wdata = Operand.marshal s.par v

/-- The value of the first write of a command that reaches a target (R144 to R149, R180, R183). -/
def Frame.first (i : Instr) (last : Bool) : Half :=
  match i with
  | .bitclk _ lastdbs => Frame.low lastdbs
  | .start | .stop | .sendop _ | .eeWrite | .eeRead => Frame.low last
  | .select | .deselect | .rdword _ | .wrword _ _ | .rdall | .wrall => 0x0000#16
  | .delay | .bufrd _ | .bufwr _ _ | .reserved0 | .reservedE | .reservedF => 0x0000#16 -- no access

/-! ### Laws of a trace -/

/-- The five values a machine writes to the line register (R23, R102). -/
def Line.legal : List Half := [0x0000#16, 0x0020#16, 0x0028#16, 0x0030#16, 0x0038#16]

/-- Every write is followed by its delay (R155). -/
def Trace.delayLaw : List Item → Bool
  | [] => true
  | .w _ :: .d :: rest => Trace.delayLaw rest
  | .w _ :: _ => false
  | .d :: rest => Trace.delayLaw rest
  | .r :: rest => Trace.delayLaw rest

/-- One write moves clock and data together with chip-select asserted (R157). -/
def Line.doubleMove (v w : Half) : Bool :=
  Line.cs v && Line.cs w && (Line.clk v != Line.clk w) && (Line.data v != Line.data w)

/-- No write of a sequence moves clock and data together (R157). -/
def Trace.noDoubleMove : List Half → Bool
  | v :: w :: rest => !Line.doubleMove v w && Trace.noDoubleMove (w :: rest)
  | _ => true

/-- How many start conditions a sequence of writes makes: `0x0038` then `0x0030` (R120). -/
def Trace.starts : List Half → Nat
  | v :: w :: rest => (if v = 0x0038#16 ∧ w = 0x0030#16 then 1 else 0) + Trace.starts (w :: rest)
  | _ => 0

/-- How many stop conditions a sequence of writes makes: `0x0030` then `0x0038` (R120). -/
def Trace.stops : List Half → Nat
  | v :: w :: rest => (if v = 0x0030#16 ∧ w = 0x0038#16 then 1 else 0) + Trace.stops (w :: rest)
  | _ => 0

/-! ### Invariants -/

/-- A mode's bit counter is in `0..8` (R81), with the clock line as of the previous write: all eight bits of a byte are out only while
the clock is still high after the eighth (R85, R86). -/
def Mode.wf (pclk : Bool) : Mode → Bool
  | .rx _ n _ => decide (n ≤ 8)
  | .tx n _ => decide (n ≤ 8) && (decide (n < 8) || pclk)
  | .idle => true
  | .ack _ => true
  | .mack => true
  | .mackd _ => true

/-- A target's memory is in canonical form and its mode's counters are in range. -/
def Module.wf (m : Module) : Bool :=
  match m.device with
  | .responder r => Memory.wf r.mem && r.mode.wf r.pclk
  | .oracle _ => true
  | .absent => true
  | .stuckLow => true

/-- Every step keeps: `BASE` and the targets' base addresses within `ADDR_W` bits (R29, R103), the lists in canonical form, `DLYCNT`
at 0 between events (R34), the zero bits of `RSP` (R35), and only legal values ever written to the line register (R23, R102). -/
def State.inv (s : State) : Prop :=
  s.base < 2 ^ s.par.addrW ∧ Table.below (2 ^ s.par.addrW) s.modules = true ∧
  Table.rising s.buf = true ∧ Table.below 128 s.buf = true
    ∧ Table.rising s.modules = true ∧ (∀ e ∈ s.modules, e.2.wf = true)
    ∧ s.dlycnt = 0 ∧ s.rsp.extractLsb' 23 9 = 0#9
    ∧ ∀ b v, Event.w b v ∈ s.trace → v ∈ Line.legal

/-- The counters of a running stage: `BITCNT` counts the bits of a byte (R33), `WIDX` the words of a bulk command (R204). -/
def State.countersFit (s : State) : Prop :=
  match s.seq with
  | .idle => True
  | .run st k =>
    (match s.micro st with
      | .send _ => s.bitcnt.toNat = k / 7
      | .recv => s.bitcnt.toNat = k / 7
      | _ => True)
    ∧ (match st with
      | .aWord i _ => s.widx.toNat = i.toNat
      | .bWord i _ => s.widx.toNat = i.toNat
      | _ => True)

/-- Every step keeps: an idle block is at `IDLE` with no access outstanding, a busy block is at an event of its stage with fitting
counters, unless a reset takes place next (R26, R27, R33, R253). -/
def State.sequenced (s : State) : Prop :=
  (s.busy = false → s.seq = .idle ∧ s.mport.req = false)
    ∧ (s.busy = true → s.rst = some 0 ∨ (s.seqNamesEvent = true ∧ s.countersFit))
    ∧ s.bitcnt.toNat ≤ 8 ∧ s.widx.toNat ≤ 128

end Sys2Proof.Machine
end

