-- ==== Sys2Proof/Certificates/Slice0/Obligations.lean ====
section
/-! DEFINITION. The statements for the provers: encodings, life of a command, each instruction's result and frame, the laws of the
trace, reset and stalls, the responder's round trips, and the invariants every step keeps. -/

open Sys2Proof Sys2Proof.Machine

/-! ### Encodings -/

/-- Decoding an encoded instruction gives it back, whatever its operands (R104, R105, R108). -/
def Obligations.DecodeOfEncode : Prop := ∀ i : Instr, decode (encode i) = .ok i

/-- A well-formed code is the encoding of the instruction it decodes to: no two well-formed codes mean one instruction. -/
def Obligations.EncodeOfDecode : Prop :=
  ∀ (c : Code) (i : Instr), c.wellFormed = true → decode c = .ok i → encode i = c

/-- R115: reserved and unused fields never make a command illegal, never change which command it is, and never change its behaviour:
two presented words that differ only in them lead to one next state, but for the latches that hold those bits. -/
def Obligations.UnusedFieldsIgnored : Prop :=
  (∀ w : Word, (∃ i, decode (.cmd w) = .ok i) ∧
    decode (.cmd (w &&& WellFormed.usedBits (w.extractLsb' 28 4))) = decode (.cmd w)) ∧
  ∀ (s : State) (w v : Word) (b : Nat) (rest : List Request),
    s.busy = false → s.resetDue = false → s.script = { code := .cmd w, base := b } :: rest →
    w &&& WellFormed.usedBits (w.extractLsb' 28 4) = v &&& WellFormed.usedBits (w.extractLsb' 28 4) →
    ∃ t, step s = .next t ∧
      step { s with script := { code := .cmd v, base := b } :: rest } =
        .next { t with a := v.extractLsb' 16 8, data := v.extractLsb' 0 16 }

/-- R104, R105: the command codes as the table gives them, mask `0xF0000000`, with the operands assembled from bits 22:16, 23:16,
16, 17 and 15:0. -/
def Obligations.CommandCodesAsTabled : Prop :=
  ∀ w : Word,
    (w &&& 0xF0000000#32 = 0x10000000#32 → decode (.cmd w) = .ok .delay) ∧
    (w &&& 0xF0000000#32 = 0x20000000#32 → decode (.cmd w) = .ok (.bitclk (w.getLsbD 16) (w.getLsbD 17))) ∧
    (w &&& 0xF0000000#32 = 0x30000000#32 → decode (.cmd w) = .ok .select) ∧
    (w &&& 0xF0000000#32 = 0x40000000#32 → decode (.cmd w) = .ok .deselect) ∧
    (w &&& 0xF0000000#32 = 0x50000000#32 → decode (.cmd w) = .ok .start) ∧
    (w &&& 0xF0000000#32 = 0x60000000#32 → decode (.cmd w) = .ok .stop) ∧
    (w &&& 0xF0000000#32 = 0x70000000#32 → decode (.cmd w) = .ok (.sendop (w.extractLsb' 16 8))) ∧
    (w &&& 0xF0000000#32 = 0x80000000#32 → decode (.cmd w) = .ok (.rdword (w.extractLsb' 16 7))) ∧
    (w &&& 0xF0000000#32 = 0x90000000#32 →
      decode (.cmd w) = .ok (.wrword (w.extractLsb' 16 7) (w.extractLsb' 0 16))) ∧
    (w &&& 0xF0000000#32 = 0xA0000000#32 → decode (.cmd w) = .ok .rdall) ∧
    (w &&& 0xF0000000#32 = 0xB0000000#32 → decode (.cmd w) = .ok .wrall) ∧
    (w &&& 0xF0000000#32 = 0xC0000000#32 → decode (.cmd w) = .ok (.bufrd (w.extractLsb' 16 7))) ∧
    (w &&& 0xF0000000#32 = 0xD0000000#32 →
      decode (.cmd w) = .ok (.bufwr (w.extractLsb' 16 7) (w.extractLsb' 0 16))) ∧
    (w &&& 0xF0000000#32 = 0x00000000#32 → decode (.cmd w) = .ok .reserved0) ∧
    (w &&& 0xF0000000#32 = 0xE0000000#32 → decode (.cmd w) = .ok .reservedE) ∧
    (w &&& 0xF0000000#32 = 0xF0000000#32 → decode (.cmd w) = .ok .reservedF)

/-- A few words written out from the spec's encodings decode to what they stand for (95_test_vectors.md). -/
def Obligations.SampleWordsDecode : Prop :=
  decode (.cmd 0x20020000#32) = .ok (.bitclk false true) ∧
  decode (.cmd 0x70AF0000#32) = .ok (.sendop 0xAF#8) ∧
  decode (.cmd 0x80850000#32) = .ok (.rdword 5#7) ∧
  decode (.cmd 0x90051234#32) = .ok (.wrword 5#7 0x1234#16) ∧
  decode (.cmd 0xD003BEEF#32) = .ok (.bufwr 3#7 0xBEEF#16) ∧
  decode (.cmd 0xE0051234#32) = .ok .reservedE ∧
  decode (.eeop 0xAF#8) = .ok .eeWrite ∧ decode (.eeop 0xAE#8) = .ok .eeRead

/-! ### Life of a command -/

/-- When the presented code decodes to `i`, a step of an idle block with no reset due is `exec i` at the state in which the request
is taken off the port and latched (R103, R140).
That one step runs a whole command and that the port is a list of requests are the model's choices (DESIGN CHOICE log 1, DESIGN CHOICE log 8). -/
def Obligations.StepRunsPresentedCommand : Prop :=
  ∀ (s : State) (r : Request) (rest : List Request) (i : Instr),
    s.busy = false → s.resetDue = false → s.script = r :: rest → decode r.code = .ok i →
      step s = exec i (State.accept r { s with script := rest })

/-- The latches after a step that took a command word hold its fields and the `ADDR_W` bits of its base address (R29, R103, R140).
The port as a list of requests is the model's choice (DESIGN CHOICE log 8). -/
def Obligations.AcceptanceLatches : Prop :=
  ∀ (s t : State) (w : Word) (b : Nat) (rest : List Request),
    s.busy = false → s.resetDue = false → s.script = { code := .cmd w, base := b } :: rest → step s = .next t →
      t.op = w.extractLsb' 28 4 ∧ t.a = w.extractLsb' 16 8 ∧ t.data = w.extractLsb' 0 16 ∧ t.base = b % 2 ^ s.par.addrW ∧ t.script = rest

/-- A byte presented as an EEPROM instruction code that is neither of the two is refused by name (the model's choice, DESIGN CHOICE log 22). -/
def Obligations.UnknownEepromCodeRefused : Prop :=
  ∀ (s : State) (b : Byte) (c : Nat) (rest : List Request),
    s.busy = false → s.resetDue = false → s.script = { code := .eeop b, base := c } :: rest →
      b ≠ 0xAF#8 → b ≠ 0xAE#8 → step s = .refused (.unknownEepromCode b)

/-- A busy block accepts nothing: what is presented waits, and the operands of the running command stay (R27, R140, R76).
The port as a list of requests is the model's choice (DESIGN CHOICE log 8). -/
def Obligations.BusyAcceptsNothing : Prop :=
  ∀ s t : State, s.busy = true → step s = .next t →
    t.script = s.script ∧
    (s.resetDue = false → t.op = s.op ∧ t.a = s.a ∧ t.data = s.data ∧ t.base = s.base)

/-- An idle block to which nothing is presented does nothing (R237, R251). -/
def Obligations.IdleDoesNothing : Prop :=
  ∀ s : State, s.busy = false → s.script = [] → s.rst = none → step s = .next s

/-- Every command, from every calm state, ends in one of two ways: it completes, or it waits for ever on an access that is not
acknowledged, with its response unwritten; and it completes when the target acknowledges (R74, R141).
How a target's acknowledges are held is the model's choice (DESIGN CHOICE log 10). -/
def Obligations.CommandCompletesOrWaits : Prop :=
  ∀ (i : Instr) (s : State), s.calm → ∃ t, exec i s = .next t ∧
    ((t.busy = false ∧ t.seq = .idle ∧ t.mport.req = false) ∨
      (t.busy = true ∧ t.mport.req = true ∧ t.rsp = s.rsp ∧ (t.moduleAt s.base).grants = some 0)) ∧
    (s.ready → t.busy = false)

/-! ### Results and frames: commands without an access -/

/-- R143: `DELAY` is one delay and a response of status 0; nothing else changes.
That a delay is one event is the model's choice (DESIGN CHOICE log 13). -/
def Obligations.DelayResult : Prop :=
  ∀ s : State, s.calm →
    exec .delay s = .next
      { s with busy := false, seq := .idle, rdack := 0#3, dlycnt := 0, rsp := 0#32, trace := .d s.base :: s.trace }

/-- R202: `BUFRD` answers the entry and changes nothing but the response. -/
def Obligations.BufrdResult : Prop :=
  (∀ w : Word, w.extractLsb' 28 4 = 0xC#4 → decode (.cmd w) = .ok (.bufrd (w.extractLsb' 16 7))) ∧
  ∀ (i : Index) (v : Half) (s : State), s.blocked = false → Table.get i.toNat s.buf = some v →
    exec (.bufrd i) s = .next
      { s with busy := false, seq := .idle, rdack := 0#3, rsp := BitVec.ofNat 32 v.toNat }

/-- `BUFRD` of an entry that nothing has written since reset completes with a free value (R202, U6; the model's choice, DESIGN CHOICE log 3). -/
def Obligations.BufrdUnwritten : Prop :=
  ∀ (i : Index) (s : State), s.blocked = false → Table.get i.toNat s.buf = none →
    exec (.bufrd i) s = .next
      { s with busy := false, seq := .idle, rdack := 0#3, draws := s.draws + 1,
               rsp := BitVec.ofNat 32 (Config.freeBuf s.draws).toNat }

/-- R203: `BUFWR` writes the entry and changes nothing but it and the response. -/
def Obligations.BufwrResult : Prop :=
  (∀ w : Word, w.extractLsb' 28 4 = 0xD#4 → decode (.cmd w) = .ok (.bufwr (w.extractLsb' 16 7) (w.extractLsb' 0 16))) ∧
  ∀ (i : Index) (v : Half) (s : State), s.blocked = false →
    ∃ t, exec (.bufwr i v) s = .next t ∧
      t = { s with busy := false, seq := .idle, rdack := 0#3, rsp := 0#32, buf := t.buf } ∧
      Table.get i.toNat t.buf = some v ∧ ∀ k, k ≠ i.toNat → Table.get k t.buf = Table.get k s.buf

/-- A buffer word reads back: after `BUFWR i, v` a `BUFRD j` answers `v` for `j = i` and the old word otherwise (R76, R79). -/
def Obligations.BufferReadsBack : Prop :=
  ∀ (i j : Index) (v u : Half) (s t : State), s.calm → Table.get j.toNat s.buf = some u → exec (.bufwr i v) s = .next t →
    ∃ r, exec (.bufrd j) t = .next r ∧ r.rsp = BitVec.ofNat 32 (if j = i then v else u).toNat

/-- R114, R224: a command whose `OP` is `0x0`, `0xE` or `0xF` completes at once with status 15, with no access and no delay, and nothing
else changes. -/
def Obligations.ReservedCodes : Prop :=
  (∀ w : Word,
    (w.extractLsb' 28 4 = 0x0#4 → decode (.cmd w) = .ok .reserved0) ∧
    (w.extractLsb' 28 4 = 0xE#4 → decode (.cmd w) = .ok .reservedE) ∧
    (w.extractLsb' 28 4 = 0xF#4 → decode (.cmd w) = .ok .reservedF)) ∧
  ∀ (i : Instr) (s : State), i = .reserved0 ∨ i = .reservedE ∨ i = .reservedF → s.blocked = false →
    exec i s = .next { s with busy := false, seq := .idle, rdack := 0#3, rsp := 0x000F0000#32 }

/-! ### Results and frames: primitives on the line -/

/-- R144: `BITCLK dbs, lastdbs` writes its three phases, samples once and returns the sample; chip-select stays asserted. -/
def Obligations.BitclkResult : Prop :=
  (∀ w : Word, w.extractLsb' 28 4 = 0x2#4 → decode (.cmd w) = .ok (.bitclk (w.getLsbD 16) (w.getLsbD 17))) ∧
  ∀ (dbs lastdbs : Bool) (s : State), s.ready → ∃ t evs v,
    exec (.bitclk dbs lastdbs) s = .next t ∧ s.ran t evs ∧
    Trace.items evs =
      [.w (Frame.low lastdbs), .d, .w (Frame.low dbs), .d, .w (Frame.high dbs), .d, .r] ∧
    Trace.reads evs = [v] ∧ t.sample = v.getLsbD 3 ∧ t.completed 0 0 (v.getLsbD 3).toNat ∧
    s.lineLeft t (Frame.high dbs) ∧
    s.untouched t ∧ s.countersKept t ∧ t.bitcnt = s.bitcnt ∧ s.bufKept t ∧ s.othersKept t

/-- R145: `SELECT`, from any line state. -/
def Obligations.SelectResult : Prop :=
  (∀ w : Word, w.extractLsb' 28 4 = 0x3#4 → decode (.cmd w) = .ok .select) ∧
  ∀ s : State, s.ready → ∃ t evs, exec .select s = .next t ∧ s.ran t evs ∧
    Trace.items evs = [.w 0x0000#16, .d, .w 0x0038#16, .d] ∧ t.completed 0 0 0 ∧ s.lineLeft t 0x0038#16 ∧
    s.untouched t ∧ s.countersKept t ∧ t.sample = s.sample ∧ t.bitcnt = s.bitcnt ∧ t.draws = s.draws ∧
    s.bufKept t ∧ s.othersKept t

/-- R146: `DESELECT`. -/
def Obligations.DeselectResult : Prop :=
  (∀ w : Word, w.extractLsb' 28 4 = 0x4#4 → decode (.cmd w) = .ok .deselect) ∧
  ∀ s : State, s.ready → ∃ t evs, exec .deselect s = .next t ∧ s.ran t evs ∧
    Trace.items evs = [.w 0x0000#16, .d] ∧ t.completed 0 0 0 ∧ s.lineLeft t 0x0000#16 ∧
    s.untouched t ∧ s.countersKept t ∧ t.sample = s.sample ∧ t.bitcnt = s.bitcnt ∧ t.draws = s.draws ∧
    s.bufKept t ∧ s.othersKept t

/-- R147: `START`; its third and fourth writes are the start condition. -/
def Obligations.StartResult : Prop :=
  (∀ w : Word, w.extractLsb' 28 4 = 0x5#4 → decode (.cmd w) = .ok .start) ∧
  ∀ s : State, s.ready → ∃ t evs, exec .start s = .next t ∧ s.ran t evs ∧
    Trace.items evs =
      [.w (Frame.low s.lastd), .d, .w 0x0028#16, .d, .w 0x0038#16, .d, .w 0x0030#16, .d] ∧
    t.completed 0 0 0 ∧ s.lineLeft t 0x0030#16 ∧
    s.untouched t ∧ s.countersKept t ∧ t.sample = s.sample ∧ t.bitcnt = s.bitcnt ∧ t.draws = s.draws ∧
    s.bufKept t ∧ s.othersKept t

/-- R148: `STOP`; its third and fourth writes are the stop condition. -/
def Obligations.StopResult : Prop :=
  (∀ w : Word, w.extractLsb' 28 4 = 0x6#4 → decode (.cmd w) = .ok .stop) ∧
  ∀ s : State, s.ready → ∃ t evs, exec .stop s = .next t ∧ s.ran t evs ∧
    Trace.items evs =
      [.w (Frame.low s.lastd), .d, .w 0x0020#16, .d, .w 0x0030#16, .d, .w 0x0038#16, .d] ∧
    t.completed 0 0 0 ∧ s.lineLeft t 0x0038#16 ∧
    s.untouched t ∧ s.countersKept t ∧ t.sample = s.sample ∧ t.bitcnt = s.bitcnt ∧ t.draws = s.draws ∧
    s.bufKept t ∧ s.othersKept t

/-- R149, R150, R108: `SENDOP code`, and the two EEPROM instruction codes with their own byte, send the byte most significant bit
first; each bit clock's `lastdbs` is the bit before it, the first one's is `LASTD`.
That the EEPROM instruction codes are requests of their own is the model's choice (DEDUCED log 7); that `BITCNT` ends at 8 is its
reading (DEDUCED log 25). -/
def Obligations.SendByteResult : Prop :=
  (∀ w : Word, w.extractLsb' 28 4 = 0x7#4 → decode (.cmd w) = .ok (.sendop (w.extractLsb' 16 8))) ∧
  ∀ (i : Instr) (code : Byte) (s : State),
    i = .sendop code ∨ (i = .eeWrite ∧ code = 0xAF#8) ∨ (i = .eeRead ∧ code = 0xAE#8) → s.ready →
    ∃ t evs, exec i s = .next t ∧ s.ran t evs ∧
      Trace.items evs =
        Frame.bit (code.getLsbD 7) s.lastd ++ Frame.bit (code.getLsbD 6) (code.getLsbD 7)
          ++ Frame.bit (code.getLsbD 5) (code.getLsbD 6) ++ Frame.bit (code.getLsbD 4) (code.getLsbD 5)
          ++ Frame.bit (code.getLsbD 3) (code.getLsbD 4) ++ Frame.bit (code.getLsbD 2) (code.getLsbD 3)
          ++ Frame.bit (code.getLsbD 1) (code.getLsbD 2) ++ Frame.bit (code.getLsbD 0) (code.getLsbD 1) ∧
      t.completed 0 0 0 ∧ s.lineLeft t (Frame.high (code.getLsbD 0)) ∧ t.bitcnt = 8#4 ∧
      t.sample = Trace.sample evs 7 ∧
      s.untouched t ∧ s.countersKept t ∧ s.bufKept t ∧ s.othersKept t

/-! ### Results and frames: word operations -/

/-- R183, R185, R186: `RDWORD index` performs the whole read frame whatever it samples, and returns the word and the acknowledge record its
samples carry, with status 0. -/
def Obligations.RdwordResult : Prop :=
  (∀ w : Word, w.extractLsb' 28 4 = 0x8#4 → decode (.cmd w) = .ok (.rdword (w.extractLsb' 16 7))) ∧
  ∀ (i : Index) (s : State), s.ready → ∃ t evs, exec (.rdword i) s = .next t ∧ s.ran t evs ∧
    Trace.items evs = Frame.read i ∧
    t.acc = Frame.word (Trace.samples evs) ∧
    t.completed (Frame.acks (Trace.samples evs)).toNat 0 (Frame.word (Trace.samples evs)).toNat ∧
    s.lineLeft t 0x0000#16 ∧
    s.untouched t ∧ t.widx = s.widx ∧ t.wword = s.wword ∧ s.bufKept t ∧ s.othersKept t

/-- R180, R182: `WRWORD index, data` performs the write frame up to the first checkpoint whose sample is nonzero, then that
checkpoint's abort path, or the whole frame; the status is the checkpoint's number, or 0. After the abort at checkpoint 1 of a
build that keeps the defect the line is left at `0x0038`, otherwise at `0x0000`. -/
def Obligations.WrwordResult : Prop :=
  (∀ w : Word, w.extractLsb' 28 4 = 0x9#4 → decode (.cmd w) = .ok (.wrword (w.extractLsb' 16 7) (w.extractLsb' 0 16))) ∧
  ∀ (i : Index) (w : Half) (s : State), s.ready → ∃ t evs, exec (.wrword i w) s = .next t ∧ s.ran t evs ∧
    Trace.items evs = Frame.write s.par i w (Trace.sample evs) ∧
    t.completed 0 (Frame.code (Trace.sample evs)) 0 ∧
    s.lineLeft t (if Frame.code (Trace.sample evs) = 1 ∧ s.par.ack1Cleanup = false then 0x0038#16 else 0x0000#16) ∧
    s.untouched t ∧ s.countersKept t ∧ s.bufKept t ∧ s.othersKept t

/-- R188: a word operation leaves the bus deselected unless it is a `WRWORD` that failed at checkpoint 1 in a build that keeps the
defect; then chip-select stays asserted until the next `SELECT`, `DESELECT`, word or bulk command (R228, R261). It leaves `BITCNT`
at 8 (DEDUCED log 25). -/
def Obligations.WordOperationExitState : Prop :=
  ∀ (i : Instr) (s t : State), s.ready → exec i s = .next t →
    ((∃ k, i = .rdword k) → (t.moduleAt s.base).line = 0x0000#16 ∧ t.bitcnt = 8#4) ∧
    (∀ k w, i = .wrword k w → t.bitcnt = 8#4 ∧ ((t.moduleAt s.base).line = 0x0000#16 ↔
      ¬ (t.rsp = 0x00010000#32 ∧ s.par.ack1Cleanup = false)))

/-! ### Results and frames: bulk operations -/

/-- R200, R204: `RDALL` performs the 128 read frames in ascending order, stores each word, records missing acknowledges by OR, and
always reports status 0.
That `WIDX` and `BITCNT` end at their top counts is the model's reading (DEDUCED log 25). -/
def Obligations.RdallResult : Prop :=
  (∀ w : Word, w.extractLsb' 28 4 = 0xA#4 → decode (.cmd w) = .ok .rdall) ∧
  ∀ s : State, s.ready → ∃ (t : State) (words : List (List Event)), exec .rdall s = .next t ∧
    words.length = 128 ∧ s.ran t words.flatten ∧
    (∀ (k : Index) (evs : List Event), words[k.toNat]? = some evs →
      Trace.items evs = Frame.read k ∧ Table.get k.toNat t.buf = some (Frame.word (Trace.samples evs))) ∧
    t.completed (words.foldl (fun a evs => a ||| (Frame.acks (Trace.samples evs)).toNat) 0) 0 0 ∧
    Table.get 127 t.buf = some t.acc ∧ t.bitcnt = 8#4 ∧ t.widx = 128#8 ∧ s.lineLeft t 0x0000#16 ∧
    (∀ k, 128 ≤ k → Table.get k t.buf = Table.get k s.buf) ∧
    s.untouched t ∧ t.wword = s.wword ∧ s.othersKept t

/-- R201, R204: `WRALL` performs write frames in ascending order, each with the buffer's word, until the first one that misses an acknowledge or all
128 are done. It reports status 0, or status 1 with the failing index and code, leaves the line as that word leaves it, and never
writes the buffer.
The word of an entry that nothing has written is a free value (DESIGN CHOICE log 3); what `BITCNT` and `WIDX` end at is the
model's reading (DEDUCED log 25). -/
def Obligations.WrallResult : Prop :=
  (∀ w : Word, w.extractLsb' 28 4 = 0xB#4 → decode (.cmd w) = .ok .wrall) ∧
  ∀ s : State, s.ready → ∃ (t : State) (words : List (Half × List Event)), exec .wrall s = .next t ∧
    s.ran t (words.map (·.2)).flatten ∧ words.length ≤ 128 ∧
    (∀ (k : Index) (w : Half) (evs : List Event), words[k.toNat]? = some (w, evs) →
      Trace.items evs = Frame.write s.par k w (Trace.sample evs) ∧
      (∀ v, Table.get k.toNat s.buf = some v → w = v) ∧
      (k.toNat + 1 < words.length → Frame.code (Trace.sample evs) = 0)) ∧
    (∃ last, words.getLast? = some last ∧
      (if Frame.code (Trace.sample last.2) = 0 then words.length = 128 ∧ t.completed 0 0 0 ∧ t.widx = 128#8
        else t.completed 0 1 (256 * (words.length - 1) + Frame.code (Trace.sample last.2)) ∧
          t.widx.toNat = words.length - 1) ∧
      s.lineLeft t
        (if Frame.code (Trace.sample last.2) = 1 ∧ s.par.ack1Cleanup = false then 0x0038#16 else 0x0000#16)) ∧
    t.bitcnt = 8#4 ∧
    s.untouched t ∧ t.acc = s.acc ∧ s.bufKept t ∧ s.othersKept t

/-! ### What only some instructions do -/

/-- Commands that reach no target change nothing of any target or of the master port, and nothing of the trace but that a `DELAY`
that is not stopped adds its one delay (R72, R143). -/
def Obligations.NoAccessFrame : Prop :=
  ∀ (i : Instr) (s t : State),
    i = .delay ∨ (∃ k, i = .bufrd k) ∨ (∃ k v, i = .bufwr k v) ∨ i = .reserved0 ∨ i = .reservedE ∨ i = .reservedF →
    exec i s = .next t →
      t.modules = s.modules ∧ t.mport = s.mport ∧ t.lastd = s.lastd ∧ t.sample = s.sample ∧ s.countersKept t ∧
      t.bitcnt = s.bitcnt ∧ t.trace = (if i = .delay ∧ s.blocked = false then .d s.base :: s.trace else s.trace)

/-- `BUF` is changed by `BUFWR` and `RDALL` and by no other instruction, in every state (R36, R79). -/
def Obligations.BufferWriters : Prop :=
  ∀ (i : Instr) (s t : State), exec i s = .next t → (∀ k v, i ≠ .bufwr k v) → i ≠ .rdall → t.buf = s.buf

/-- No instruction writes the latches or the parameters or touches what is presented, in every state (R5, R29, R76). -/
def Obligations.LatchesNeverWritten : Prop :=
  ∀ (i : Instr) (s t : State), exec i s = .next t →
    t.op = s.op ∧ t.base = s.base ∧ t.a = s.a ∧ t.data = s.data ∧ t.par = s.par ∧ t.script = s.script

/-- An instruction changes no target but the one of the latched base address, in every state (R61, R235). -/
def Obligations.OneTargetOnly : Prop :=
  ∀ (i : Instr) (s t : State), exec i s = .next t → s.othersKept t

/-- R223: only word writes raise `NoAck`; status 15 is for the reserved codes; every other command reports status 0 (R107). `RDACK` is nonzero only after
word reads (R106). -/
def Obligations.StatusByInstruction : Prop :=
  ∀ (i : Instr) (s t : State), s.ready → exec i s = .next t →
    (match i with
      | .wrword _ _ => (t.rsp.extractLsb' 16 4).toNat ≤ 4
      | .wrall => (t.rsp.extractLsb' 16 4).toNat ≤ 1
      | .reserved0 | .reservedE | .reservedF => t.rsp.extractLsb' 16 4 = 0xF#4
      | _ => t.rsp.extractLsb' 16 4 = 0#4) ∧
    (t.rsp.extractLsb' 20 3 ≠ 0#3 → (∃ k, i = .rdword k) ∨ i = .rdall) ∧ t.rsp.extractLsb' 23 9 = 0#9

/-! ### Laws of the trace -/

/-- R155: every write is followed by exactly one delay before the next write or read; no delay follows a read; so a command performs as
many delays as writes, and `DELAY` one more. -/
def Obligations.DelayLaw : Prop :=
  ∀ (i : Instr) (s : State), s.ready → ∃ t evs, exec i s = .next t ∧ s.ran t evs ∧
    (i ≠ .delay → Trace.delayLaw (Trace.items evs) = true ∧
      ∀ a b, Trace.items evs = a ++ [.r, .d] ++ b → False) ∧
    Trace.delays evs = (Trace.writes evs).length + (if i = .delay then 1 else 0)

/-- R156: a bit clock, as a command or inside one, never writes a value with bit 5 clear, whatever its arguments and whatever
disturbs it. -/
def Obligations.BitclkKeepsChipSelect : Prop :=
  (∀ (dbs last : Bool) (s : State),
    ∃ evs, s.ran (State.bitClk dbs last s) evs ∧ ∀ v ∈ Trace.writes evs, v.getLsbD 5 = true) ∧
  ∀ (dbs lastdbs : Bool) (s t : State), exec (.bitclk dbs lastdbs) s = .next t →
    ∃ evs, s.ran t evs ∧ ∀ v ∈ Trace.writes evs, v.getLsbD 5 = true

/-- R102: only the five values of the table are ever written, in every state. -/
def Obligations.LegalLineValues : Prop :=
  ∀ (i : Instr) (s t : State), exec i s = .next t →
    ∃ evs, s.ran t evs ∧
      ∀ v ∈ Trace.writes evs, v ∈ [0x0000#16, 0x0020#16, 0x0028#16, 0x0030#16, 0x0038#16]

/-- The boundary law (R157): within a command no write moves clock and data together with chip-select asserted; and its first write, if it asserts
chip-select, lowers the clock and holds the data bit `LASTD`, for a `BITCLK` the bit it is told. -/
def Obligations.BoundaryLaw : Prop :=
  ∀ (i : Instr) (s t : State), s.ready → exec i s = .next t →
    ∃ evs, s.ran t evs ∧ Trace.noDoubleMove (Trace.writes evs) = true ∧
      ∀ v, (Trace.writes evs).head? = some v → v.getLsbD 5 = true →
        v.getLsbD 4 = false ∧
        v.getLsbD 3 = (match i with | .bitclk _ lastdbs => lastdbs | _ => s.lastd)

/-- Start and stop conditions (R90, R120, R147, R148): `START` makes one start and no stop, `STOP` one stop and no start, a bit clock, a byte, `SELECT` and
`DESELECT` neither; a word read makes two starts and one stop; a word write one start and one stop, or no stop where the defect
leaves the bus; a bulk command the sum of its words. -/
def Obligations.StartsAndStops : Prop :=
  ∀ (i : Instr) (s t : State), s.ready → exec i s = .next t →
    ∃ evs, s.ran t evs ∧
      (match i with
        | .start => Trace.starts (Trace.writes evs) = 1 ∧ Trace.stops (Trace.writes evs) = 0
        | .stop => Trace.starts (Trace.writes evs) = 0 ∧ Trace.stops (Trace.writes evs) = 1
        | .rdword _ => Trace.starts (Trace.writes evs) = 2 ∧ Trace.stops (Trace.writes evs) = 1
        | .wrword _ _ => Trace.starts (Trace.writes evs) = 1 ∧
            Trace.stops (Trace.writes evs) = (if t.rsp = 0x00010000#32 ∧ s.par.ack1Cleanup = false then 0 else 1)
        | .rdall => Trace.starts (Trace.writes evs) = 256 ∧ Trace.stops (Trace.writes evs) = 128
        | .wrall =>
          (t.rsp = 0#32 ∧ Trace.starts (Trace.writes evs) = 128 ∧ Trace.stops (Trace.writes evs) = 128) ∨
          ∃ (j : Index) (k : Nat), 1 ≤ k ∧ k ≤ 4 ∧ t.rsp = Frame.rsp 0 1 (256 * j.toNat + k) ∧
            Trace.starts (Trace.writes evs) = j.toNat + 1 ∧
            Trace.stops (Trace.writes evs) = j.toNat + (if k = 1 ∧ s.par.ack1Cleanup = false then 0 else 1)
        | _ => Trace.starts (Trace.writes evs) = 0 ∧ Trace.stops (Trace.writes evs) = 0)

/-- `LASTD` is bit 3 of the value most recently written to the line, in every state and whatever disturbs the command (R28). -/
def Obligations.LastdFollowsWrites : Prop :=
  ∀ (i : Instr) (s t : State), exec i s = .next t →
    ∃ evs, s.ran t evs ∧ t.lastd = (((Trace.writes evs).getLast?.map fun v => v.getLsbD 3).getD s.lastd)

/-- The counts of R158 and R266: writes and reads of each command. -/
def Obligations.EventCounts : Prop :=
  ∀ (i : Instr) (s t : State), s.ready → exec i s = .next t →
    ∃ evs, s.ran t evs ∧
      (match i with
        | .delay | .bufrd _ | .bufwr _ _ | .reserved0 | .reservedE | .reservedF =>
          (Trace.writes evs).length = 0 ∧ (Trace.reads evs).length = 0
        | .bitclk _ _ => (Trace.writes evs).length = 3 ∧ (Trace.reads evs).length = 1
        | .select => (Trace.writes evs).length = 2 ∧ (Trace.reads evs).length = 0
        | .deselect => (Trace.writes evs).length = 1 ∧ (Trace.reads evs).length = 0
        | .start | .stop => (Trace.writes evs).length = 4 ∧ (Trace.reads evs).length = 0
        | .sendop _ | .eeWrite | .eeRead => (Trace.writes evs).length = 24 ∧ (Trace.reads evs).length = 8
        | .rdword _ => (Trace.writes evs).length = 150 ∧ (Trace.reads evs).length = 45
        | .rdall => (Trace.writes evs).length = 19200 ∧ (Trace.reads evs).length = 5760
        | .wrword _ _ =>
          ∃ k, k ≤ 4 ∧ t.rsp = Frame.rsp 0 k 0 ∧
            (Trace.writes evs).length = (if k = 0 then 119 else Frame.failedWrites s.par k) ∧
            (Trace.reads evs).length = (if k = 0 then 36 else 9 * k)
        | .wrall =>
          (t.rsp = 0#32 ∧ (Trace.writes evs).length = 15232 ∧ (Trace.reads evs).length = 4608) ∨
          ∃ (j : Index) (k : Nat), 1 ≤ k ∧ k ≤ 4 ∧ t.rsp = Frame.rsp 0 1 (256 * j.toNat + k) ∧
            (Trace.writes evs).length = 119 * j.toNat + Frame.failedWrites s.par k ∧
            (Trace.reads evs).length = 36 * j.toNat + 9 * k)

/-- The one timing fact (R265, R266): in a build that meets R5's constraint a command takes at least one microsecond for each write it makes.
Time is counted by the delays alone (DESIGN CHOICE log 23). -/
def Obligations.LeastDuration : Prop :=
  ∀ (i : Instr) (s t : State), s.ready → s.par.timed → exec i s = .next t →
    ∃ evs, s.ran t evs ∧ (Trace.writes evs).length * 1000000 ≤ Trace.leastTime s.par evs

/-- What a word read, a bulk read or a primitive writes does not depend on any value read: from two states that differ in their
targets, their buffers and everything else but `LASTD`, it performs the same items (R159, R185). -/
def Obligations.ItemsIndependentOfAnswers : Prop :=
  ∀ (i : Instr) (s s' t t' : State), (∀ k w, i ≠ .wrword k w) → i ≠ .wrall → s.ready → s'.ready → s.lastd = s'.lastd →
    exec i s = .next t → exec i s' = .next t' →
    ∃ evs evs', s.ran t evs ∧ s'.ran t' evs' ∧ Trace.items evs = Trace.items evs'

/-! ### Targets -/

/-- Against any answers: the values a command reads are the listed answers of its target in order, taken off the bus, and what is
left of the list stays listed (R7, R24, R37, R63).
Listed answers are the model's form of an arbitrary target (DESIGN CHOICE log 11). -/
def Obligations.AnswersTakenInOrder : Prop :=
  ∀ (i : Instr) (s t : State) (answers : List Half), s.ready → (s.moduleAt s.base).device = .oracle answers →
    5760 ≤ answers.length → exec i s = .next t →
    ∃ evs, s.ran t evs ∧
      Trace.reads evs = (answers.take (Trace.reads evs).length).map (Operand.unmarshal s.par) ∧
      (t.moduleAt s.base).device = .oracle (answers.drop (Trace.reads evs).length)

/-- R185: against an absent target `RDWORD` returns `0xFFFF` with all three acknowledges missing, and against a data line
stuck low `0x0000` with none missing, both with status 0. -/
def Obligations.RdwordDegenerateTargets : Prop :=
  ∀ (i : Index) (s : State), s.ready →
    ((s.moduleAt s.base).device = .absent → ∃ t, exec (.rdword i) s = .next t ∧ t.rsp = 0x0070FFFF#32) ∧
    ((s.moduleAt s.base).device = .stuckLow → ∃ t, exec (.rdword i) s = .next t ∧ t.rsp = 0x00000000#32)

/-- A word written to the reference responder is stored, nothing else in its memory changes, and the word is read back
(R90, S1).
What the responder's unwritten bytes read as is the model's choice (DESIGN CHOICE log 12). -/
def Obligations.WordRoundTrip : Prop :=
  ∀ (i : Index) (w : Half) (s : State) (r : Responder), s.ready → (s.moduleAt s.base).device = .responder r →
    r.acksLeft = none → Memory.wf r.mem = true →
    ∃ t u r' r'', exec (.wrword i w) s = .next t ∧ t.rsp = 0x00000000#32 ∧
      (t.moduleAt s.base).device = .responder r' ∧
      (∀ k, Memory.read r'.mem k =
        if k = 2 * i.toNat then Frame.high8 w else if k = 2 * i.toNat + 1 then Frame.low8 w else Memory.read r.mem k) ∧
      exec (.rdword i) t = .next u ∧ u.rsp = BitVec.ofNat 32 w.toNat ∧
      (u.moduleAt s.base).device = .responder r'' ∧ r''.mem = r'.mem

/-- Select, deselect, the reads and the commands without an access store no byte in the reference responder, complete or mute
(R72, R90, R190). -/
def Obligations.ReadsStoreNothing : Prop :=
  ∀ (i : Instr) (s t : State) (r : Responder), s.ready → (s.moduleAt s.base).device = .responder r →
    i = .select ∨ i = .deselect ∨ (∃ k, i = .rdword k) ∨ i = .rdall ∨ i = .delay ∨ (∃ k, i = .bufrd k) ∨
      (∃ k v, i = .bufwr k v) ∨ i = .reserved0 ∨ i = .reservedE ∨ i = .reservedF →
    exec i s = .next t → ∃ r', (t.moduleAt s.base).device = .responder r' ∧ r'.mem = r.mem

/-- R205: `WRALL` followed by `RDALL` returns the buffer, against the reference responder, whatever the buffer holds in
between. -/
def Obligations.BulkRoundTrip : Prop :=
  ∀ (s t : State) (r : Responder) (between : List (Nat × Half)), s.ready → (s.moduleAt s.base).device = .responder r →
    r.acksLeft = none → Memory.wf r.mem = true → (∀ k : Index, (Table.get k.toNat s.buf).isSome = true) →
    exec .wrall s = .next t →
    t.rsp = 0x00000000#32 ∧
    ∃ u, exec .rdall { t with buf := between } = .next u ∧ u.rsp = 0x00000000#32 ∧
      ∀ k : Index, Table.get k.toNat u.buf = Table.get k.toNat s.buf

/-- The bus form of the line register: a write goes to `(BASE + REG_OFFSET) mod 2^ADDR_W` with its bytes in the build's order (R61, R63),
and a build with the bytes exchanged behaves as one without against the same modelled target, but for the words on the master port.
That the port keeps address and data after the request has fallen is the model's choice (DESIGN CHOICE log 17). -/
def Obligations.SwapIsInvisible : Prop :=
  (∀ (i : Instr) (s t : State), s.ready → exec i s = .next t →
    ∃ evs, s.ran t evs ∧ ∀ v, (Trace.writes evs).getLast? = some v → s.portCarries t v) ∧
  ∀ (i : Instr) (s t : State), s.ready → (∀ answers, (s.moduleAt s.base).device ≠ .oracle answers) → exec i s = .next t →
    ∃ u, exec i { s with par := { s.par with swap := !s.par.swap } } = .next u ∧
      u = { t with par := u.par, mport := u.mport } ∧ u.par = { s.par with swap := !s.par.swap }

/-! ### Composition -/

/-- R119: the script of primitive commands makes the trace of `WRWORD`, and leaves the same targets, when every acknowledge is
given. -/
def Obligations.WrwordScript : Prop :=
  ∀ (i : Index) (w : Half) (s t : State), s.ready → exec (.wrword i w) s = .next t → t.rsp = 0x00000000#32 →
    ∃ u, Script.lines (Script.wrword i w) s = some u ∧
      u.trace = t.trace ∧ u.modules = t.modules ∧ u.lastd = t.lastd ∧ u.draws = t.draws ∧ u.buf = t.buf

/-- The script of primitive commands makes the trace of `RDWORD`, whatever the target answers (R119, P5). -/
def Obligations.RdwordScript : Prop :=
  ∀ (i : Index) (s t : State), s.ready → exec (.rdword i) s = .next t →
    ∃ u, Script.lines (Script.rdword i) s = some u ∧
      u.trace = t.trace ∧ u.modules = t.modules ∧ u.lastd = t.lastd ∧ u.draws = t.draws ∧ u.buf = t.buf

/-- The sequencer, one event at a time by the stage tables, does what the command does, from every state with no access outstanding:
through to its completion, or up to where an access waits or a reset falls (R26, R142, R181, R184, R200, R201).
The sequencer's step granularity is the model's choice (DESIGN CHOICE log 1, DEDUCED log 24), and so is how an EEPROM
instruction code is latched (DEDUCED log 7) and the stage of a command without events (DESIGN CHOICE log 27). -/
def Obligations.SequencerRefinesCommands : Prop :=
  ∀ (c : Code) (b : Nat) (i : Instr) (s : State), decode c = .ok i → s.mport.req = false →
    ∃ n, exec i (State.accept { code := c, base := b } s) =
      .next (State.ticks n (State.begin i (State.accept { code := c, base := b } s)))

/-! ### Reset and stalls -/

/-- The state after reset (R38, R250): the values the spec gives.
That the trace is empty is the model's choice (DESIGN CHOICE log 14). -/
def Obligations.ResetValues : Prop :=
  State.reset.busy = false ∧ State.reset.seq = .idle ∧ State.reset.lastd = false ∧ State.reset.rdack = 0#3 ∧
    State.reset.dlycnt = 0 ∧ State.reset.rsp = 0#32 ∧ State.reset.mport.req = false ∧ State.reset.trace = []

/-- R252: a reset performs no access: the targets are as they were and nothing enters the trace; and it overrides a running command, whose
response is never produced, and ends the wait for an acknowledge (R74, R250, R253).
How `rst` is held and when it is due is the model's choice (DESIGN CHOICE log 9), and so is that a write in flight is never taken
(DESIGN CHOICE log 26). -/
def Obligations.ResetTakesPlace : Prop :=
  ∀ s : State, s.resetDue = true → ∃ t, step s = .next t ∧ t.rst = none ∧
    t.busy = false ∧ t.seq = .idle ∧ t.lastd = false ∧ t.rdack = 0#3 ∧ t.dlycnt = 0 ∧ t.rsp = 0#32 ∧
    t.mport.req = false ∧ t.modules = s.modules ∧ t.trace = s.trace ∧ t.script = s.script ∧ t.par = s.par

/-- A reset in the middle of a command stops it after the event last completed (R253): against the command `u` undisturbed, with its
events `full`, a reset that comes after `n` events leaves a longer command after exactly its first `n`, with no response; a command of
fewer events ends as if no reset were to come.
How `rst` is held is the model's choice (DESIGN CHOICE log 9). -/
def Obligations.ResetAbandonsCommand : Prop :=
  ∀ (i : Instr) (s : State) (n : Nat), s.mport.req = false → s.rst = some n → (s.moduleAt s.base).grants = none →
    ∃ t u full, exec i s = .next t ∧ exec i { s with rst := none } = .next u ∧ s.ran u full ∧ s.ran t (full.take n) ∧
      (full.length < n → t = { u with rst := some (n - full.length) } ∧ t.busy = false ∧ t.seq = .idle) ∧
      (n ≤ full.length → t.rst = some 0 ∧ t.rsp = s.rsp ∧ step t = .next t.afterReset)

/-- R74: an access that is never acknowledged leaves the block waiting for ever with `BUSY = 1`: a step changes nothing.
That waiting is a next state is the model's choice (DESIGN CHOICE log 10). -/
def Obligations.UnacknowledgedAccessHangs : Prop :=
  ∀ s : State, s.busy = true → s.mport.req = true → s.rst = none → s.seqNamesEvent = true → step s = .next s

/-- A target that acknowledges nothing stops every command that reaches it at its first access, whose address and data stand on the
master port (R61, R63), and which changes no target and enters no event (R67, R74).
How a target's acknowledges are held is the model's choice (DESIGN CHOICE log 10). -/
def Obligations.FirstAccessHangs : Prop :=
  ∀ (i : Instr) (s : State), s.calm → (s.moduleAt s.base).grants = some 0 →
    (i ≠ .delay ∧ (∀ k, i ≠ .bufrd k) ∧ (∀ k v, i ≠ .bufwr k v) ∧ i ≠ .reserved0 ∧ i ≠ .reservedE ∧ i ≠ .reservedF) →
    ∃ t, exec i s = .next t ∧ t.busy = true ∧ t.mport.req = true ∧ t.mport.we = true ∧
      s.portCarries t (Frame.first i s.lastd) ∧
      t.trace = s.trace ∧ t.modules = s.modules ∧ t.lastd = s.lastd ∧ t.rsp = s.rsp

/-! ### Invariants of every step -/

/-- Every step keeps base addresses within `ADDR_W` bits, the lists in canonical form, the bit counters of a responder in `0..8`, `DLYCNT` at 0,
the zero bits of `RSP` and the legality of everything written. -/
def Obligations.StepKeepsInv : Prop := ∀ s t : State, s.inv → step s = .next t → t.inv

/-- The state after reset meets it. -/
def Obligations.ResetInv : Prop := State.reset.inv

/-- From every sequenced state a step does not fault, and a next state is sequenced (R26, R27, R33). The stage of a command without
events is the model's choice (DESIGN CHOICE log 27). -/
def Obligations.StepKeepsSequenced : Prop :=
  ∀ s : State, s.sequenced → (∀ f, step s ≠ .fault f) ∧ ∀ t, step s = .next t → t.sequenced

/-- The state after reset is sequenced. -/
def Obligations.ResetSequenced : Prop := State.reset.sequenced
end

