-- ==== Sys2Proof/Laws/Memory.lean ====
section
/-! SUPPORT. Laws of the lists in canonical form: a read after a write, other keys left alone, and every operation keeps the form. -/

namespace Sys2Proof.Machine

variable {α : Type}

/-! ### Reading and writing a table -/

@[simp] theorem Table.get_put_self (k : Nat) (v : α) (t : List (Nat × α)) : Table.get k (Table.put k v t) = some v := by
  induction t with
  | nil => simp [Table.put, Table.get]
  | cons e rest ih =>
    obtain ⟨j, u⟩ := e
    simp only [Table.put]
    split
    · simp [Table.get]
    · split
      · simp [Table.get]
      · next h1 h2 => simp [Table.get, Ne.symm h2, ih]

theorem Table.get_put_other {j k : Nat} (h : j ≠ k) (v : α) (t : List (Nat × α)) :
    Table.get j (Table.put k v t) = Table.get j t := by
  induction t with
  | nil => simp [Table.put, Table.get, h.symm]
  | cons e rest ih =>
    obtain ⟨i, u⟩ := e
    simp only [Table.put]
    split
    · simp [Table.get, h.symm]
    · split
      · next h1 h2 => subst h2; simp [Table.get, h.symm]
      · simp [Table.get, ih]

/-- Both laws in one. -/
theorem Table.get_put (j k : Nat) (v : α) (t : List (Nat × α)) :
    Table.get j (Table.put k v t) = if j = k then some v else Table.get j t := by
  split
  · next h => subst h; simp
  · next h => exact Table.get_put_other h v t

theorem Table.get_drop_other {j k : Nat} (h : j ≠ k) (t : List (Nat × α)) : Table.get j (Table.drop k t) = Table.get j t := by
  induction t with
  | nil => rfl
  | cons e rest ih =>
    obtain ⟨i, u⟩ := e
    simp only [Table.drop]
    split
    · next h1 => simp [Table.get, h1, h.symm]
    · simp [Table.get, ih]

/-! ### The rising form -/

/-- Every key of a table lies above a bound. -/
def Table.above (j : Nat) (t : List (Nat × α)) : Prop := ∀ e ∈ t, j < e.1

theorem Table.rising_cons (j : Nat) (u : α) (t : List (Nat × α)) :
    Table.rising ((j, u) :: t) = true ↔ Table.above j t ∧ Table.rising t = true := by
  induction t generalizing j u with
  | nil => simp [Table.rising, Table.above]
  | cons e rest ih =>
    obtain ⟨k, v⟩ := e
    simp only [Table.rising, Bool.and_eq_true, decide_eq_true_eq, Table.above, List.mem_cons, forall_eq_or_imp]
    constructor
    · rintro ⟨h1, h2⟩
      exact ⟨⟨h1, fun e he => lt_trans h1 (((ih k v).1 h2).1 e he)⟩, h2⟩
    · rintro ⟨⟨h1, _⟩, h2⟩
      exact ⟨h1, h2⟩

theorem Table.mem_put {k : Nat} {v : α} {t : List (Nat × α)} {e : Nat × α} (h : e ∈ Table.put k v t) :
    e = (k, v) ∨ e ∈ t := by
  induction t with
  | nil => simpa [Table.put] using h
  | cons f rest ih =>
    obtain ⟨j, u⟩ := f
    simp only [Table.put] at h
    split at h
    · simpa using h
    · split at h
      · rcases List.mem_cons.1 h with h | h
        · exact .inl h
        · exact .inr (List.mem_cons_of_mem _ h)
      · rcases List.mem_cons.1 h with h | h
        · exact .inr (h ▸ List.mem_cons_self)
        · rcases ih h with h | h
          · exact .inl h
          · exact .inr (List.mem_cons_of_mem _ h)

theorem Table.mem_drop {k : Nat} {t : List (Nat × α)} {e : Nat × α} (h : e ∈ Table.drop k t) : e ∈ t := by
  induction t with
  | nil => simp [Table.drop] at h
  | cons f rest ih =>
    obtain ⟨j, u⟩ := f
    simp only [Table.drop] at h
    split at h
    · exact List.mem_cons_of_mem _ h
    · rcases List.mem_cons.1 h with h | h
      · exact h ▸ List.mem_cons_self
      · exact List.mem_cons_of_mem _ (ih h)

theorem Table.rising_put (k : Nat) (v : α) (t : List (Nat × α)) (h : Table.rising t = true) :
    Table.rising (Table.put k v t) = true := by
  induction t with
  | nil => rfl
  | cons e rest ih =>
    obtain ⟨j, u⟩ := e
    have ⟨ha, hr⟩ := (Table.rising_cons j u rest).1 h
    simp only [Table.put]
    split
    · next hk =>
      refine (Table.rising_cons _ _ _).2 ⟨fun e he => ?_, h⟩
      rcases List.mem_cons.1 he with rfl | he
      · exact hk
      · exact lt_trans hk (ha e he)
    · split
      · next h2 => subst h2; exact (Table.rising_cons _ _ _).2 ⟨ha, hr⟩
      · next h1 h2 =>
        refine (Table.rising_cons _ _ _).2 ⟨fun e he => ?_, ih hr⟩
        rcases Table.mem_put he with rfl | he
        · simp only; omega
        · exact ha e he

theorem Table.rising_drop (k : Nat) (t : List (Nat × α)) (h : Table.rising t = true) : Table.rising (Table.drop k t) = true := by
  induction t with
  | nil => rfl
  | cons e rest ih =>
    obtain ⟨j, u⟩ := e
    have ⟨ha, hr⟩ := (Table.rising_cons j u rest).1 h
    simp only [Table.drop]
    split
    · exact hr
    · exact (Table.rising_cons _ _ _).2 ⟨fun e he => ha e (Table.mem_drop he), ih hr⟩

theorem Table.get_of_above {j : Nat} {t : List (Nat × α)} (h : Table.above j t) : Table.get j t = none := by
  induction t with
  | nil => rfl
  | cons e rest ih =>
    obtain ⟨i, u⟩ := e
    have h1 : j < i := h (i, u) List.mem_cons_self
    simp only [Table.get, if_neg (by omega : ¬ i = j)]
    exact ih fun e he => h e (List.mem_cons_of_mem _ he)

theorem Table.get_drop_self (k : Nat) (t : List (Nat × α)) (h : Table.rising t = true) : Table.get k (Table.drop k t) = none := by
  induction t with
  | nil => rfl
  | cons e rest ih =>
    obtain ⟨j, u⟩ := e
    have ⟨ha, hr⟩ := (Table.rising_cons j u rest).1 h
    simp only [Table.drop]
    split
    · next h1 => subst h1; exact Table.get_of_above ha
    · next h1 => simp [Table.get, h1, ih hr]

theorem Table.below_put {b k : Nat} (hk : k < b) (v : α) (t : List (Nat × α)) (h : Table.below b t = true) :
    Table.below b (Table.put k v t) = true := by
  simp only [Table.below, List.all_eq_true, decide_eq_true_eq] at h ⊢
  intro e he
  rcases Table.mem_put he with rfl | he
  · exact hk
  · exact h e he

/-! ### The bytes of the responder -/

/-- The byte just written is read back (R86). -/
theorem Memory.read_write_self (m : List Host.Cell) (a : Nat) (b : Byte) (h : Memory.wf m = true) :
    Memory.read (Memory.write m a b) a = b := by
  unfold Memory.write Memory.read
  simp only [Memory.wf, Bool.and_eq_true] at h
  split
  · next hb => simp [Table.get_drop_self a m h.1.1, hb]
  · simp

/-- Every other byte is as before. -/
theorem Memory.read_write_other {a c : Nat} (h : c ≠ a) (m : List Host.Cell) (b : Byte) :
    Memory.read (Memory.write m a b) c = Memory.read m c := by
  unfold Memory.write Memory.read
  split
  · rw [Table.get_drop_other h]
  · rw [Table.get_put_other h]

/-- A write keeps the canonical form. -/
theorem Memory.write_wf {m : List Host.Cell} {a : Nat} (ha : a < 256) (b : Byte) (h : Memory.wf m = true) :
    Memory.wf (Memory.write m a b) = true := by
  simp only [Memory.wf, Table.below, Bool.and_eq_true, List.all_eq_true, decide_eq_true_eq] at h ⊢
  obtain ⟨⟨h1, h2⟩, h3⟩ := h
  unfold Memory.write
  split
  · exact ⟨⟨Table.rising_drop a m h1, fun e he => h2 e (Table.mem_drop he)⟩, fun e he => h3 e (Table.mem_drop he)⟩
  · next hb =>
    refine ⟨⟨Table.rising_put a b m h1, fun e he => ?_⟩, fun e he => ?_⟩
    · rcases Table.mem_put he with rfl | he
      · exact ha
      · exact h2 e he
    · rcases Table.mem_put he with rfl | he
      · exact hb
      · exact h3 e he

/-- The empty memory is in canonical form. -/
theorem Memory.nil_wf : Memory.wf [] = true := rfl

/-! ### The lists of the state -/

/-- The lists after reset are in canonical form. -/
theorem reset_lists_wf :
    Table.rising State.reset.buf = true ∧ Table.below 128 State.reset.buf = true ∧ Table.rising State.reset.modules = true :=
  ⟨rfl, rfl, rfl⟩

/-- Writing an entry keeps `BUF` in canonical form (R203). -/
theorem bufWrite_wf (i : Index) (v : Half) (s : State) (h1 : Table.rising s.buf = true) (h2 : Table.below 128 s.buf = true) :
    Table.rising (State.bufWrite i v s).buf = true ∧ Table.below 128 (State.bufWrite i v s).buf = true := by
  unfold State.bufWrite State.live
  split
  · exact ⟨h1, h2⟩
  · exact ⟨Table.rising_put _ _ _ h1, Table.below_put (by omega) _ _ h2⟩

/-- A write access keeps the list of targets in canonical form. -/
theorem lineWrite_modules_rising (v : Half) (s : State) (h : Table.rising s.modules = true) :
    Table.rising (State.lineWrite v s).modules = true := by
  unfold State.lineWrite State.live
  split
  · exact h
  · dsimp only
    split
    · exact h
    · exact Table.rising_put _ _ _ h

/-- A read access keeps the list of targets in canonical form. -/
theorem readSample_modules_rising (s : State) (h : Table.rising s.modules = true) :
    Table.rising (State.readSample s).modules = true := by
  unfold State.readSample State.live
  split
  · exact h
  · dsimp only
    split
    · exact h
    · exact Table.rising_put _ _ _ h

/-- A write access keeps the targets' base addresses below a bound that the latched one is below (R29). -/
theorem lineWrite_modules_below {bound : Nat} (v : Half) (s : State) (hb : s.base < bound)
    (h : Table.below bound s.modules = true) : Table.below bound (State.lineWrite v s).modules = true := by
  unfold State.lineWrite State.live
  split
  · exact h
  · dsimp only
    split
    · exact h
    · exact Table.below_put hb _ _ h

/-- A read access keeps the targets' base addresses below a bound that the latched one is below (R29). -/
theorem readSample_modules_below {bound : Nat} (s : State) (hb : s.base < bound)
    (h : Table.below bound s.modules = true) : Table.below bound (State.readSample s).modules = true := by
  unfold State.readSample State.live
  split
  · exact h
  · dsimp only
    split
    · exact h
    · exact Table.below_put hb _ _ h

/-- Storing a received byte keeps the responder's memory in canonical form (R86). -/
theorem Responder.store_wf (sh : Byte) (r : Responder) (h : Memory.wf r.mem = true) : Memory.wf (r.store sh).mem = true :=
  Memory.write_wf (by omega) sh h

/-- A write to the line keeps the responder's memory in canonical form (R82 to R86). -/
theorem Responder.take_wf (v : Half) (r : Responder) (h : Memory.wf r.mem = true) : Memory.wf (r.take v).mem = true := by
  have ack : ∀ next store, (Memory.wf (store r).mem = true) → Memory.wf (r.acknowledge next store).mem = true := by
    intro next store hs
    unfold Responder.acknowledge
    split
    · exact h
    · exact hs
  have took : ∀ kind sh, Memory.wf (r.received kind sh).mem = true := by
    intro kind sh
    unfold Responder.received
    split
    · split
      · exact ack _ _ h
      · split
        · exact ack _ _ h
        · exact h
    · exact ack _ _ h
    · exact ack _ _ (Responder.store_wf sh r h)
  have fall : Memory.wf r.fall.mem = true := by
    unfold Responder.fall
    repeat' split
    all_goals first | exact h | exact took _ _
  have rise : ∀ d, Memory.wf (r.rise d).mem = true := by
    intro d
    unfold Responder.rise
    repeat' split
    all_goals exact h
  show Memory.wf (r.edge _ _ _).mem = true
  unfold Responder.edge
  repeat' split
  all_goals first | exact h | exact rise _ | exact fall

/-- A rising clock edge counts a bit, at most the eighth (R85). -/
theorem Responder.rise_modeWf (d : Bool) (r : Responder) (h : r.mode.wf false = true) : (r.rise d).mode.wf true = true := by
  cases hm : r.mode <;> simp only [hm, Mode.wf] at h <;> simp only [Responder.rise, hm]
  case rx => split <;> simp_all [Mode.wf]
  case tx => simp_all [Mode.wf]
  all_goals rfl

/-- A falling clock edge leaves a byte that is out (R86). -/
theorem Responder.fall_modeWf (r : Responder) (h : r.mode.wf true = true) : r.fall.mode.wf false = true := by
  have ack : ∀ next store, (r.acknowledge next store).mode.wf false = true := by
    intro next store
    unfold Responder.acknowledge
    split <;> rfl
  have took : ∀ kind sh, (r.received kind sh).mode.wf false = true := by
    intro kind sh
    unfold Responder.received
    repeat' split
    all_goals first | exact ack _ _ | rfl
  unfold Responder.fall
  repeat' split
  all_goals first
    | exact took _ _
    | simp_all [Mode.wf, Responder.toIdle, Responder.beginTx]
  all_goals omega

/-- A write to the line keeps the responder's bit counter in range (R81 to R86). -/
theorem Responder.take_modeWf (v : Half) (r : Responder) (h : r.mode.wf r.pclk = true) :
    (r.take v).mode.wf (r.take v).pclk = true := by
  show (r.edge _ _ _).mode.wf (Line.clk v) = true
  cases hp : r.pclk <;> cases hc : Line.clk v <;> rw [hp] at h <;> simp only [Responder.edge, hp]
  all_goals
    repeat' split
  all_goals first
    | rfl
    | exact h
    | exact r.rise_modeWf _ h
    | exact r.fall_modeWf h
    | simp_all

end Sys2Proof.Machine
end

