-- ==== Sys2Proof/Laws/State.lean ====
section
/-! SUPPORT. What each operation leaves alone: one lemma per field per operation, so that no later proof unfolds a record update. A
field that an operation may change has no lemma here; Sys2Proof/Laws/Ops.lean says what becomes of it. -/

namespace Sys2Proof.Machine

/-- A stopped sequence stays as it is. -/
theorem State.live_of_blocked {f : State → State} {s : State} (h : s.blocked = true) : State.live f s = s := if_pos h

/-- A running sequence does what it is told. -/
theorem State.live_of_running {f : State → State} {s : State} (h : s.blocked = false) : State.live f s = f s := by
  simp [State.live, h]

/-- What a guarded update does not change when it acts, it does not change at all. -/
theorem State.live_keeps {α : Type} (g : State → α) {f : State → State} (h : ∀ s, g (f s) = g s) (s : State) :
    g (State.live f s) = g s := by
  unfold State.live
  split
  · rfl
  · exact h s

/-! ### emit -/

@[simp] theorem emit_busy (e : Event) (s : State) : (State.emit e s).busy = s.busy :=
  rfl
@[simp] theorem emit_op (e : Event) (s : State) : (State.emit e s).op = s.op :=
  rfl
@[simp] theorem emit_base (e : Event) (s : State) : (State.emit e s).base = s.base :=
  rfl
@[simp] theorem emit_a (e : Event) (s : State) : (State.emit e s).a = s.a :=
  rfl
@[simp] theorem emit_data (e : Event) (s : State) : (State.emit e s).data = s.data :=
  rfl
@[simp] theorem emit_lastd (e : Event) (s : State) : (State.emit e s).lastd = s.lastd :=
  rfl
@[simp] theorem emit_sample (e : Event) (s : State) : (State.emit e s).sample = s.sample :=
  rfl
@[simp] theorem emit_acc (e : Event) (s : State) : (State.emit e s).acc = s.acc :=
  rfl
@[simp] theorem emit_rdack (e : Event) (s : State) : (State.emit e s).rdack = s.rdack :=
  rfl
@[simp] theorem emit_bitcnt (e : Event) (s : State) : (State.emit e s).bitcnt = s.bitcnt :=
  rfl
@[simp] theorem emit_widx (e : Event) (s : State) : (State.emit e s).widx = s.widx :=
  rfl
@[simp] theorem emit_dlycnt (e : Event) (s : State) : (State.emit e s).dlycnt = s.dlycnt :=
  rfl
@[simp] theorem emit_rsp (e : Event) (s : State) : (State.emit e s).rsp = s.rsp :=
  rfl
@[simp] theorem emit_buf (e : Event) (s : State) : (State.emit e s).buf = s.buf :=
  rfl
@[simp] theorem emit_wword (e : Event) (s : State) : (State.emit e s).wword = s.wword :=
  rfl
@[simp] theorem emit_mport (e : Event) (s : State) : (State.emit e s).mport = s.mport :=
  rfl
@[simp] theorem emit_script (e : Event) (s : State) : (State.emit e s).script = s.script :=
  rfl
@[simp] theorem emit_modules (e : Event) (s : State) : (State.emit e s).modules = s.modules :=
  rfl
@[simp] theorem emit_par (e : Event) (s : State) : (State.emit e s).par = s.par :=
  rfl
@[simp] theorem emit_draws (e : Event) (s : State) : (State.emit e s).draws = s.draws :=
  rfl

/-! ### lineWrite -/

@[simp] theorem lineWrite_busy (v : Half) (s : State) : (State.lineWrite v s).busy = s.busy :=
  by unfold State.lineWrite; refine State.live_keeps State.busy ?_ s; intro; dsimp only; split <;> rfl
@[simp] theorem lineWrite_op (v : Half) (s : State) : (State.lineWrite v s).op = s.op :=
  by unfold State.lineWrite; refine State.live_keeps State.op ?_ s; intro; dsimp only; split <;> rfl
@[simp] theorem lineWrite_base (v : Half) (s : State) : (State.lineWrite v s).base = s.base :=
  by unfold State.lineWrite; refine State.live_keeps State.base ?_ s; intro; dsimp only; split <;> rfl
@[simp] theorem lineWrite_a (v : Half) (s : State) : (State.lineWrite v s).a = s.a :=
  by unfold State.lineWrite; refine State.live_keeps State.a ?_ s; intro; dsimp only; split <;> rfl
@[simp] theorem lineWrite_data (v : Half) (s : State) : (State.lineWrite v s).data = s.data :=
  by unfold State.lineWrite; refine State.live_keeps State.data ?_ s; intro; dsimp only; split <;> rfl
@[simp] theorem lineWrite_sample (v : Half) (s : State) : (State.lineWrite v s).sample = s.sample :=
  by unfold State.lineWrite; refine State.live_keeps State.sample ?_ s; intro; dsimp only; split <;> rfl
@[simp] theorem lineWrite_acc (v : Half) (s : State) : (State.lineWrite v s).acc = s.acc :=
  by unfold State.lineWrite; refine State.live_keeps State.acc ?_ s; intro; dsimp only; split <;> rfl
@[simp] theorem lineWrite_rdack (v : Half) (s : State) : (State.lineWrite v s).rdack = s.rdack :=
  by unfold State.lineWrite; refine State.live_keeps State.rdack ?_ s; intro; dsimp only; split <;> rfl
@[simp] theorem lineWrite_bitcnt (v : Half) (s : State) : (State.lineWrite v s).bitcnt = s.bitcnt :=
  by unfold State.lineWrite; refine State.live_keeps State.bitcnt ?_ s; intro; dsimp only; split <;> rfl
@[simp] theorem lineWrite_widx (v : Half) (s : State) : (State.lineWrite v s).widx = s.widx :=
  by unfold State.lineWrite; refine State.live_keeps State.widx ?_ s; intro; dsimp only; split <;> rfl
@[simp] theorem lineWrite_dlycnt (v : Half) (s : State) : (State.lineWrite v s).dlycnt = s.dlycnt :=
  by unfold State.lineWrite; refine State.live_keeps State.dlycnt ?_ s; intro; dsimp only; split <;> rfl
@[simp] theorem lineWrite_rsp (v : Half) (s : State) : (State.lineWrite v s).rsp = s.rsp :=
  by unfold State.lineWrite; refine State.live_keeps State.rsp ?_ s; intro; dsimp only; split <;> rfl
@[simp] theorem lineWrite_buf (v : Half) (s : State) : (State.lineWrite v s).buf = s.buf :=
  by unfold State.lineWrite; refine State.live_keeps State.buf ?_ s; intro; dsimp only; split <;> rfl
@[simp] theorem lineWrite_wword (v : Half) (s : State) : (State.lineWrite v s).wword = s.wword :=
  by unfold State.lineWrite; refine State.live_keeps State.wword ?_ s; intro; dsimp only; split <;> rfl
@[simp] theorem lineWrite_script (v : Half) (s : State) : (State.lineWrite v s).script = s.script :=
  by unfold State.lineWrite; refine State.live_keeps State.script ?_ s; intro; dsimp only; split <;> rfl
@[simp] theorem lineWrite_par (v : Half) (s : State) : (State.lineWrite v s).par = s.par :=
  by unfold State.lineWrite; refine State.live_keeps State.par ?_ s; intro; dsimp only; split <;> rfl
@[simp] theorem lineWrite_draws (v : Half) (s : State) : (State.lineWrite v s).draws = s.draws :=
  by unfold State.lineWrite; refine State.live_keeps State.draws ?_ s; intro; dsimp only; split <;> rfl

/-! ### delay -/

@[simp] theorem delay_busy (s : State) : (State.delay s).busy = s.busy :=
  by unfold State.delay; refine State.live_keeps State.busy ?_ s; exact fun _ => rfl
@[simp] theorem delay_op (s : State) : (State.delay s).op = s.op :=
  by unfold State.delay; refine State.live_keeps State.op ?_ s; exact fun _ => rfl
@[simp] theorem delay_base (s : State) : (State.delay s).base = s.base :=
  by unfold State.delay; refine State.live_keeps State.base ?_ s; exact fun _ => rfl
@[simp] theorem delay_a (s : State) : (State.delay s).a = s.a :=
  by unfold State.delay; refine State.live_keeps State.a ?_ s; exact fun _ => rfl
@[simp] theorem delay_data (s : State) : (State.delay s).data = s.data :=
  by unfold State.delay; refine State.live_keeps State.data ?_ s; exact fun _ => rfl
@[simp] theorem delay_lastd (s : State) : (State.delay s).lastd = s.lastd :=
  by unfold State.delay; refine State.live_keeps State.lastd ?_ s; exact fun _ => rfl
@[simp] theorem delay_sample (s : State) : (State.delay s).sample = s.sample :=
  by unfold State.delay; refine State.live_keeps State.sample ?_ s; exact fun _ => rfl
@[simp] theorem delay_acc (s : State) : (State.delay s).acc = s.acc :=
  by unfold State.delay; refine State.live_keeps State.acc ?_ s; exact fun _ => rfl
@[simp] theorem delay_rdack (s : State) : (State.delay s).rdack = s.rdack :=
  by unfold State.delay; refine State.live_keeps State.rdack ?_ s; exact fun _ => rfl
@[simp] theorem delay_bitcnt (s : State) : (State.delay s).bitcnt = s.bitcnt :=
  by unfold State.delay; refine State.live_keeps State.bitcnt ?_ s; exact fun _ => rfl
@[simp] theorem delay_widx (s : State) : (State.delay s).widx = s.widx :=
  by unfold State.delay; refine State.live_keeps State.widx ?_ s; exact fun _ => rfl
@[simp] theorem delay_rsp (s : State) : (State.delay s).rsp = s.rsp :=
  by unfold State.delay; refine State.live_keeps State.rsp ?_ s; exact fun _ => rfl
@[simp] theorem delay_buf (s : State) : (State.delay s).buf = s.buf :=
  by unfold State.delay; refine State.live_keeps State.buf ?_ s; exact fun _ => rfl
@[simp] theorem delay_wword (s : State) : (State.delay s).wword = s.wword :=
  by unfold State.delay; refine State.live_keeps State.wword ?_ s; exact fun _ => rfl
@[simp] theorem delay_mport (s : State) : (State.delay s).mport = s.mport :=
  by unfold State.delay; refine State.live_keeps State.mport ?_ s; exact fun _ => rfl
@[simp] theorem delay_script (s : State) : (State.delay s).script = s.script :=
  by unfold State.delay; refine State.live_keeps State.script ?_ s; exact fun _ => rfl
@[simp] theorem delay_modules (s : State) : (State.delay s).modules = s.modules :=
  by unfold State.delay; refine State.live_keeps State.modules ?_ s; exact fun _ => rfl
@[simp] theorem delay_par (s : State) : (State.delay s).par = s.par :=
  by unfold State.delay; refine State.live_keeps State.par ?_ s; exact fun _ => rfl
@[simp] theorem delay_draws (s : State) : (State.delay s).draws = s.draws :=
  by unfold State.delay; refine State.live_keeps State.draws ?_ s; exact fun _ => rfl

/-! ### readSample -/

@[simp] theorem readSample_busy (s : State) : (State.readSample s).busy = s.busy :=
  by unfold State.readSample; refine State.live_keeps State.busy ?_ s; intro; dsimp only; split <;> rfl
@[simp] theorem readSample_op (s : State) : (State.readSample s).op = s.op :=
  by unfold State.readSample; refine State.live_keeps State.op ?_ s; intro; dsimp only; split <;> rfl
@[simp] theorem readSample_base (s : State) : (State.readSample s).base = s.base :=
  by unfold State.readSample; refine State.live_keeps State.base ?_ s; intro; dsimp only; split <;> rfl
@[simp] theorem readSample_a (s : State) : (State.readSample s).a = s.a :=
  by unfold State.readSample; refine State.live_keeps State.a ?_ s; intro; dsimp only; split <;> rfl
@[simp] theorem readSample_data (s : State) : (State.readSample s).data = s.data :=
  by unfold State.readSample; refine State.live_keeps State.data ?_ s; intro; dsimp only; split <;> rfl
@[simp] theorem readSample_lastd (s : State) : (State.readSample s).lastd = s.lastd :=
  by unfold State.readSample; refine State.live_keeps State.lastd ?_ s; intro; dsimp only; split <;> rfl
@[simp] theorem readSample_acc (s : State) : (State.readSample s).acc = s.acc :=
  by unfold State.readSample; refine State.live_keeps State.acc ?_ s; intro; dsimp only; split <;> rfl
@[simp] theorem readSample_rdack (s : State) : (State.readSample s).rdack = s.rdack :=
  by unfold State.readSample; refine State.live_keeps State.rdack ?_ s; intro; dsimp only; split <;> rfl
@[simp] theorem readSample_bitcnt (s : State) : (State.readSample s).bitcnt = s.bitcnt :=
  by unfold State.readSample; refine State.live_keeps State.bitcnt ?_ s; intro; dsimp only; split <;> rfl
@[simp] theorem readSample_widx (s : State) : (State.readSample s).widx = s.widx :=
  by unfold State.readSample; refine State.live_keeps State.widx ?_ s; intro; dsimp only; split <;> rfl
@[simp] theorem readSample_dlycnt (s : State) : (State.readSample s).dlycnt = s.dlycnt :=
  by unfold State.readSample; refine State.live_keeps State.dlycnt ?_ s; intro; dsimp only; split <;> rfl
@[simp] theorem readSample_rsp (s : State) : (State.readSample s).rsp = s.rsp :=
  by unfold State.readSample; refine State.live_keeps State.rsp ?_ s; intro; dsimp only; split <;> rfl
@[simp] theorem readSample_buf (s : State) : (State.readSample s).buf = s.buf :=
  by unfold State.readSample; refine State.live_keeps State.buf ?_ s; intro; dsimp only; split <;> rfl
@[simp] theorem readSample_wword (s : State) : (State.readSample s).wword = s.wword :=
  by unfold State.readSample; refine State.live_keeps State.wword ?_ s; intro; dsimp only; split <;> rfl
@[simp] theorem readSample_script (s : State) : (State.readSample s).script = s.script :=
  by unfold State.readSample; refine State.live_keeps State.script ?_ s; intro; dsimp only; split <;> rfl
@[simp] theorem readSample_par (s : State) : (State.readSample s).par = s.par :=
  by unfold State.readSample; refine State.live_keeps State.par ?_ s; intro; dsimp only; split <;> rfl

/-! ### noteAck -/

@[simp] theorem noteAck_busy (k : Nat) (s : State) : (State.noteAck k s).busy = s.busy :=
  by unfold State.noteAck; refine State.live_keeps State.busy ?_ s; intro; split <;> rfl
@[simp] theorem noteAck_seq (k : Nat) (s : State) : (State.noteAck k s).seq = s.seq :=
  by unfold State.noteAck; refine State.live_keeps State.seq ?_ s; intro; split <;> rfl
@[simp] theorem noteAck_op (k : Nat) (s : State) : (State.noteAck k s).op = s.op :=
  by unfold State.noteAck; refine State.live_keeps State.op ?_ s; intro; split <;> rfl
@[simp] theorem noteAck_base (k : Nat) (s : State) : (State.noteAck k s).base = s.base :=
  by unfold State.noteAck; refine State.live_keeps State.base ?_ s; intro; split <;> rfl
@[simp] theorem noteAck_a (k : Nat) (s : State) : (State.noteAck k s).a = s.a :=
  by unfold State.noteAck; refine State.live_keeps State.a ?_ s; intro; split <;> rfl
@[simp] theorem noteAck_data (k : Nat) (s : State) : (State.noteAck k s).data = s.data :=
  by unfold State.noteAck; refine State.live_keeps State.data ?_ s; intro; split <;> rfl
@[simp] theorem noteAck_lastd (k : Nat) (s : State) : (State.noteAck k s).lastd = s.lastd :=
  by unfold State.noteAck; refine State.live_keeps State.lastd ?_ s; intro; split <;> rfl
@[simp] theorem noteAck_sample (k : Nat) (s : State) : (State.noteAck k s).sample = s.sample :=
  by unfold State.noteAck; refine State.live_keeps State.sample ?_ s; intro; split <;> rfl
@[simp] theorem noteAck_acc (k : Nat) (s : State) : (State.noteAck k s).acc = s.acc :=
  by unfold State.noteAck; refine State.live_keeps State.acc ?_ s; intro; split <;> rfl
@[simp] theorem noteAck_bitcnt (k : Nat) (s : State) : (State.noteAck k s).bitcnt = s.bitcnt :=
  by unfold State.noteAck; refine State.live_keeps State.bitcnt ?_ s; intro; split <;> rfl
@[simp] theorem noteAck_widx (k : Nat) (s : State) : (State.noteAck k s).widx = s.widx :=
  by unfold State.noteAck; refine State.live_keeps State.widx ?_ s; intro; split <;> rfl
@[simp] theorem noteAck_dlycnt (k : Nat) (s : State) : (State.noteAck k s).dlycnt = s.dlycnt :=
  by unfold State.noteAck; refine State.live_keeps State.dlycnt ?_ s; intro; split <;> rfl
@[simp] theorem noteAck_rsp (k : Nat) (s : State) : (State.noteAck k s).rsp = s.rsp :=
  by unfold State.noteAck; refine State.live_keeps State.rsp ?_ s; intro; split <;> rfl
@[simp] theorem noteAck_buf (k : Nat) (s : State) : (State.noteAck k s).buf = s.buf :=
  by unfold State.noteAck; refine State.live_keeps State.buf ?_ s; intro; split <;> rfl
@[simp] theorem noteAck_wword (k : Nat) (s : State) : (State.noteAck k s).wword = s.wword :=
  by unfold State.noteAck; refine State.live_keeps State.wword ?_ s; intro; split <;> rfl
@[simp] theorem noteAck_mport (k : Nat) (s : State) : (State.noteAck k s).mport = s.mport :=
  by unfold State.noteAck; refine State.live_keeps State.mport ?_ s; intro; split <;> rfl
@[simp] theorem noteAck_script (k : Nat) (s : State) : (State.noteAck k s).script = s.script :=
  by unfold State.noteAck; refine State.live_keeps State.script ?_ s; intro; split <;> rfl
@[simp] theorem noteAck_rst (k : Nat) (s : State) : (State.noteAck k s).rst = s.rst :=
  by unfold State.noteAck; refine State.live_keeps State.rst ?_ s; intro; split <;> rfl
@[simp] theorem noteAck_modules (k : Nat) (s : State) : (State.noteAck k s).modules = s.modules :=
  by unfold State.noteAck; refine State.live_keeps State.modules ?_ s; intro; split <;> rfl
@[simp] theorem noteAck_par (k : Nat) (s : State) : (State.noteAck k s).par = s.par :=
  by unfold State.noteAck; refine State.live_keeps State.par ?_ s; intro; split <;> rfl
@[simp] theorem noteAck_trace (k : Nat) (s : State) : (State.noteAck k s).trace = s.trace :=
  by unfold State.noteAck; refine State.live_keeps State.trace ?_ s; intro; split <;> rfl
@[simp] theorem noteAck_draws (k : Nat) (s : State) : (State.noteAck k s).draws = s.draws :=
  by unfold State.noteAck; refine State.live_keeps State.draws ?_ s; intro; split <;> rfl

/-! ### setAcc -/

@[simp] theorem setAcc_busy (v : Half) (s : State) : (State.setAcc v s).busy = s.busy :=
  by unfold State.setAcc; refine State.live_keeps State.busy ?_ s; exact fun _ => rfl
@[simp] theorem setAcc_seq (v : Half) (s : State) : (State.setAcc v s).seq = s.seq :=
  by unfold State.setAcc; refine State.live_keeps State.seq ?_ s; exact fun _ => rfl
@[simp] theorem setAcc_op (v : Half) (s : State) : (State.setAcc v s).op = s.op :=
  by unfold State.setAcc; refine State.live_keeps State.op ?_ s; exact fun _ => rfl
@[simp] theorem setAcc_base (v : Half) (s : State) : (State.setAcc v s).base = s.base :=
  by unfold State.setAcc; refine State.live_keeps State.base ?_ s; exact fun _ => rfl
@[simp] theorem setAcc_a (v : Half) (s : State) : (State.setAcc v s).a = s.a :=
  by unfold State.setAcc; refine State.live_keeps State.a ?_ s; exact fun _ => rfl
@[simp] theorem setAcc_data (v : Half) (s : State) : (State.setAcc v s).data = s.data :=
  by unfold State.setAcc; refine State.live_keeps State.data ?_ s; exact fun _ => rfl
@[simp] theorem setAcc_lastd (v : Half) (s : State) : (State.setAcc v s).lastd = s.lastd :=
  by unfold State.setAcc; refine State.live_keeps State.lastd ?_ s; exact fun _ => rfl
@[simp] theorem setAcc_sample (v : Half) (s : State) : (State.setAcc v s).sample = s.sample :=
  by unfold State.setAcc; refine State.live_keeps State.sample ?_ s; exact fun _ => rfl
@[simp] theorem setAcc_rdack (v : Half) (s : State) : (State.setAcc v s).rdack = s.rdack :=
  by unfold State.setAcc; refine State.live_keeps State.rdack ?_ s; exact fun _ => rfl
@[simp] theorem setAcc_bitcnt (v : Half) (s : State) : (State.setAcc v s).bitcnt = s.bitcnt :=
  by unfold State.setAcc; refine State.live_keeps State.bitcnt ?_ s; exact fun _ => rfl
@[simp] theorem setAcc_widx (v : Half) (s : State) : (State.setAcc v s).widx = s.widx :=
  by unfold State.setAcc; refine State.live_keeps State.widx ?_ s; exact fun _ => rfl
@[simp] theorem setAcc_dlycnt (v : Half) (s : State) : (State.setAcc v s).dlycnt = s.dlycnt :=
  by unfold State.setAcc; refine State.live_keeps State.dlycnt ?_ s; exact fun _ => rfl
@[simp] theorem setAcc_rsp (v : Half) (s : State) : (State.setAcc v s).rsp = s.rsp :=
  by unfold State.setAcc; refine State.live_keeps State.rsp ?_ s; exact fun _ => rfl
@[simp] theorem setAcc_buf (v : Half) (s : State) : (State.setAcc v s).buf = s.buf :=
  by unfold State.setAcc; refine State.live_keeps State.buf ?_ s; exact fun _ => rfl
@[simp] theorem setAcc_wword (v : Half) (s : State) : (State.setAcc v s).wword = s.wword :=
  by unfold State.setAcc; refine State.live_keeps State.wword ?_ s; exact fun _ => rfl
@[simp] theorem setAcc_mport (v : Half) (s : State) : (State.setAcc v s).mport = s.mport :=
  by unfold State.setAcc; refine State.live_keeps State.mport ?_ s; exact fun _ => rfl
@[simp] theorem setAcc_script (v : Half) (s : State) : (State.setAcc v s).script = s.script :=
  by unfold State.setAcc; refine State.live_keeps State.script ?_ s; exact fun _ => rfl
@[simp] theorem setAcc_rst (v : Half) (s : State) : (State.setAcc v s).rst = s.rst :=
  by unfold State.setAcc; refine State.live_keeps State.rst ?_ s; exact fun _ => rfl
@[simp] theorem setAcc_modules (v : Half) (s : State) : (State.setAcc v s).modules = s.modules :=
  by unfold State.setAcc; refine State.live_keeps State.modules ?_ s; exact fun _ => rfl
@[simp] theorem setAcc_par (v : Half) (s : State) : (State.setAcc v s).par = s.par :=
  by unfold State.setAcc; refine State.live_keeps State.par ?_ s; exact fun _ => rfl
@[simp] theorem setAcc_trace (v : Half) (s : State) : (State.setAcc v s).trace = s.trace :=
  by unfold State.setAcc; refine State.live_keeps State.trace ?_ s; exact fun _ => rfl
@[simp] theorem setAcc_draws (v : Half) (s : State) : (State.setAcc v s).draws = s.draws :=
  by unfold State.setAcc; refine State.live_keeps State.draws ?_ s; exact fun _ => rfl

/-! ### shiftAcc -/

@[simp] theorem shiftAcc_busy (s : State) : (State.shiftAcc s).busy = s.busy :=
  by unfold State.shiftAcc; refine State.live_keeps State.busy ?_ s; exact fun _ => rfl
@[simp] theorem shiftAcc_seq (s : State) : (State.shiftAcc s).seq = s.seq :=
  by unfold State.shiftAcc; refine State.live_keeps State.seq ?_ s; exact fun _ => rfl
@[simp] theorem shiftAcc_op (s : State) : (State.shiftAcc s).op = s.op :=
  by unfold State.shiftAcc; refine State.live_keeps State.op ?_ s; exact fun _ => rfl
@[simp] theorem shiftAcc_base (s : State) : (State.shiftAcc s).base = s.base :=
  by unfold State.shiftAcc; refine State.live_keeps State.base ?_ s; exact fun _ => rfl
@[simp] theorem shiftAcc_a (s : State) : (State.shiftAcc s).a = s.a :=
  by unfold State.shiftAcc; refine State.live_keeps State.a ?_ s; exact fun _ => rfl
@[simp] theorem shiftAcc_data (s : State) : (State.shiftAcc s).data = s.data :=
  by unfold State.shiftAcc; refine State.live_keeps State.data ?_ s; exact fun _ => rfl
@[simp] theorem shiftAcc_lastd (s : State) : (State.shiftAcc s).lastd = s.lastd :=
  by unfold State.shiftAcc; refine State.live_keeps State.lastd ?_ s; exact fun _ => rfl
@[simp] theorem shiftAcc_sample (s : State) : (State.shiftAcc s).sample = s.sample :=
  by unfold State.shiftAcc; refine State.live_keeps State.sample ?_ s; exact fun _ => rfl
@[simp] theorem shiftAcc_rdack (s : State) : (State.shiftAcc s).rdack = s.rdack :=
  by unfold State.shiftAcc; refine State.live_keeps State.rdack ?_ s; exact fun _ => rfl
@[simp] theorem shiftAcc_bitcnt (s : State) : (State.shiftAcc s).bitcnt = s.bitcnt :=
  by unfold State.shiftAcc; refine State.live_keeps State.bitcnt ?_ s; exact fun _ => rfl
@[simp] theorem shiftAcc_widx (s : State) : (State.shiftAcc s).widx = s.widx :=
  by unfold State.shiftAcc; refine State.live_keeps State.widx ?_ s; exact fun _ => rfl
@[simp] theorem shiftAcc_dlycnt (s : State) : (State.shiftAcc s).dlycnt = s.dlycnt :=
  by unfold State.shiftAcc; refine State.live_keeps State.dlycnt ?_ s; exact fun _ => rfl
@[simp] theorem shiftAcc_rsp (s : State) : (State.shiftAcc s).rsp = s.rsp :=
  by unfold State.shiftAcc; refine State.live_keeps State.rsp ?_ s; exact fun _ => rfl
@[simp] theorem shiftAcc_buf (s : State) : (State.shiftAcc s).buf = s.buf :=
  by unfold State.shiftAcc; refine State.live_keeps State.buf ?_ s; exact fun _ => rfl
@[simp] theorem shiftAcc_wword (s : State) : (State.shiftAcc s).wword = s.wword :=
  by unfold State.shiftAcc; refine State.live_keeps State.wword ?_ s; exact fun _ => rfl
@[simp] theorem shiftAcc_mport (s : State) : (State.shiftAcc s).mport = s.mport :=
  by unfold State.shiftAcc; refine State.live_keeps State.mport ?_ s; exact fun _ => rfl
@[simp] theorem shiftAcc_script (s : State) : (State.shiftAcc s).script = s.script :=
  by unfold State.shiftAcc; refine State.live_keeps State.script ?_ s; exact fun _ => rfl
@[simp] theorem shiftAcc_rst (s : State) : (State.shiftAcc s).rst = s.rst :=
  by unfold State.shiftAcc; refine State.live_keeps State.rst ?_ s; exact fun _ => rfl
@[simp] theorem shiftAcc_modules (s : State) : (State.shiftAcc s).modules = s.modules :=
  by unfold State.shiftAcc; refine State.live_keeps State.modules ?_ s; exact fun _ => rfl
@[simp] theorem shiftAcc_par (s : State) : (State.shiftAcc s).par = s.par :=
  by unfold State.shiftAcc; refine State.live_keeps State.par ?_ s; exact fun _ => rfl
@[simp] theorem shiftAcc_trace (s : State) : (State.shiftAcc s).trace = s.trace :=
  by unfold State.shiftAcc; refine State.live_keeps State.trace ?_ s; exact fun _ => rfl
@[simp] theorem shiftAcc_draws (s : State) : (State.shiftAcc s).draws = s.draws :=
  by unfold State.shiftAcc; refine State.live_keeps State.draws ?_ s; exact fun _ => rfl

/-! ### setBitcnt -/

@[simp] theorem setBitcnt_busy (v : BitVec 4) (s : State) : (State.setBitcnt v s).busy = s.busy :=
  by unfold State.setBitcnt; refine State.live_keeps State.busy ?_ s; exact fun _ => rfl
@[simp] theorem setBitcnt_seq (v : BitVec 4) (s : State) : (State.setBitcnt v s).seq = s.seq :=
  by unfold State.setBitcnt; refine State.live_keeps State.seq ?_ s; exact fun _ => rfl
@[simp] theorem setBitcnt_op (v : BitVec 4) (s : State) : (State.setBitcnt v s).op = s.op :=
  by unfold State.setBitcnt; refine State.live_keeps State.op ?_ s; exact fun _ => rfl
@[simp] theorem setBitcnt_base (v : BitVec 4) (s : State) : (State.setBitcnt v s).base = s.base :=
  by unfold State.setBitcnt; refine State.live_keeps State.base ?_ s; exact fun _ => rfl
@[simp] theorem setBitcnt_a (v : BitVec 4) (s : State) : (State.setBitcnt v s).a = s.a :=
  by unfold State.setBitcnt; refine State.live_keeps State.a ?_ s; exact fun _ => rfl
@[simp] theorem setBitcnt_data (v : BitVec 4) (s : State) : (State.setBitcnt v s).data = s.data :=
  by unfold State.setBitcnt; refine State.live_keeps State.data ?_ s; exact fun _ => rfl
@[simp] theorem setBitcnt_lastd (v : BitVec 4) (s : State) : (State.setBitcnt v s).lastd = s.lastd :=
  by unfold State.setBitcnt; refine State.live_keeps State.lastd ?_ s; exact fun _ => rfl
@[simp] theorem setBitcnt_sample (v : BitVec 4) (s : State) : (State.setBitcnt v s).sample = s.sample :=
  by unfold State.setBitcnt; refine State.live_keeps State.sample ?_ s; exact fun _ => rfl
@[simp] theorem setBitcnt_acc (v : BitVec 4) (s : State) : (State.setBitcnt v s).acc = s.acc :=
  by unfold State.setBitcnt; refine State.live_keeps State.acc ?_ s; exact fun _ => rfl
@[simp] theorem setBitcnt_rdack (v : BitVec 4) (s : State) : (State.setBitcnt v s).rdack = s.rdack :=
  by unfold State.setBitcnt; refine State.live_keeps State.rdack ?_ s; exact fun _ => rfl
@[simp] theorem setBitcnt_widx (v : BitVec 4) (s : State) : (State.setBitcnt v s).widx = s.widx :=
  by unfold State.setBitcnt; refine State.live_keeps State.widx ?_ s; exact fun _ => rfl
@[simp] theorem setBitcnt_dlycnt (v : BitVec 4) (s : State) : (State.setBitcnt v s).dlycnt = s.dlycnt :=
  by unfold State.setBitcnt; refine State.live_keeps State.dlycnt ?_ s; exact fun _ => rfl
@[simp] theorem setBitcnt_rsp (v : BitVec 4) (s : State) : (State.setBitcnt v s).rsp = s.rsp :=
  by unfold State.setBitcnt; refine State.live_keeps State.rsp ?_ s; exact fun _ => rfl
@[simp] theorem setBitcnt_buf (v : BitVec 4) (s : State) : (State.setBitcnt v s).buf = s.buf :=
  by unfold State.setBitcnt; refine State.live_keeps State.buf ?_ s; exact fun _ => rfl
@[simp] theorem setBitcnt_wword (v : BitVec 4) (s : State) : (State.setBitcnt v s).wword = s.wword :=
  by unfold State.setBitcnt; refine State.live_keeps State.wword ?_ s; exact fun _ => rfl
@[simp] theorem setBitcnt_mport (v : BitVec 4) (s : State) : (State.setBitcnt v s).mport = s.mport :=
  by unfold State.setBitcnt; refine State.live_keeps State.mport ?_ s; exact fun _ => rfl
@[simp] theorem setBitcnt_script (v : BitVec 4) (s : State) : (State.setBitcnt v s).script = s.script :=
  by unfold State.setBitcnt; refine State.live_keeps State.script ?_ s; exact fun _ => rfl
@[simp] theorem setBitcnt_rst (v : BitVec 4) (s : State) : (State.setBitcnt v s).rst = s.rst :=
  by unfold State.setBitcnt; refine State.live_keeps State.rst ?_ s; exact fun _ => rfl
@[simp] theorem setBitcnt_modules (v : BitVec 4) (s : State) : (State.setBitcnt v s).modules = s.modules :=
  by unfold State.setBitcnt; refine State.live_keeps State.modules ?_ s; exact fun _ => rfl
@[simp] theorem setBitcnt_par (v : BitVec 4) (s : State) : (State.setBitcnt v s).par = s.par :=
  by unfold State.setBitcnt; refine State.live_keeps State.par ?_ s; exact fun _ => rfl
@[simp] theorem setBitcnt_trace (v : BitVec 4) (s : State) : (State.setBitcnt v s).trace = s.trace :=
  by unfold State.setBitcnt; refine State.live_keeps State.trace ?_ s; exact fun _ => rfl
@[simp] theorem setBitcnt_draws (v : BitVec 4) (s : State) : (State.setBitcnt v s).draws = s.draws :=
  by unfold State.setBitcnt; refine State.live_keeps State.draws ?_ s; exact fun _ => rfl

/-! ### setWidx -/

@[simp] theorem setWidx_busy (v : BitVec 8) (s : State) : (State.setWidx v s).busy = s.busy :=
  by unfold State.setWidx; refine State.live_keeps State.busy ?_ s; exact fun _ => rfl
@[simp] theorem setWidx_seq (v : BitVec 8) (s : State) : (State.setWidx v s).seq = s.seq :=
  by unfold State.setWidx; refine State.live_keeps State.seq ?_ s; exact fun _ => rfl
@[simp] theorem setWidx_op (v : BitVec 8) (s : State) : (State.setWidx v s).op = s.op :=
  by unfold State.setWidx; refine State.live_keeps State.op ?_ s; exact fun _ => rfl
@[simp] theorem setWidx_base (v : BitVec 8) (s : State) : (State.setWidx v s).base = s.base :=
  by unfold State.setWidx; refine State.live_keeps State.base ?_ s; exact fun _ => rfl
@[simp] theorem setWidx_a (v : BitVec 8) (s : State) : (State.setWidx v s).a = s.a :=
  by unfold State.setWidx; refine State.live_keeps State.a ?_ s; exact fun _ => rfl
@[simp] theorem setWidx_data (v : BitVec 8) (s : State) : (State.setWidx v s).data = s.data :=
  by unfold State.setWidx; refine State.live_keeps State.data ?_ s; exact fun _ => rfl
@[simp] theorem setWidx_lastd (v : BitVec 8) (s : State) : (State.setWidx v s).lastd = s.lastd :=
  by unfold State.setWidx; refine State.live_keeps State.lastd ?_ s; exact fun _ => rfl
@[simp] theorem setWidx_sample (v : BitVec 8) (s : State) : (State.setWidx v s).sample = s.sample :=
  by unfold State.setWidx; refine State.live_keeps State.sample ?_ s; exact fun _ => rfl
@[simp] theorem setWidx_acc (v : BitVec 8) (s : State) : (State.setWidx v s).acc = s.acc :=
  by unfold State.setWidx; refine State.live_keeps State.acc ?_ s; exact fun _ => rfl
@[simp] theorem setWidx_rdack (v : BitVec 8) (s : State) : (State.setWidx v s).rdack = s.rdack :=
  by unfold State.setWidx; refine State.live_keeps State.rdack ?_ s; exact fun _ => rfl
@[simp] theorem setWidx_bitcnt (v : BitVec 8) (s : State) : (State.setWidx v s).bitcnt = s.bitcnt :=
  by unfold State.setWidx; refine State.live_keeps State.bitcnt ?_ s; exact fun _ => rfl
@[simp] theorem setWidx_dlycnt (v : BitVec 8) (s : State) : (State.setWidx v s).dlycnt = s.dlycnt :=
  by unfold State.setWidx; refine State.live_keeps State.dlycnt ?_ s; exact fun _ => rfl
@[simp] theorem setWidx_rsp (v : BitVec 8) (s : State) : (State.setWidx v s).rsp = s.rsp :=
  by unfold State.setWidx; refine State.live_keeps State.rsp ?_ s; exact fun _ => rfl
@[simp] theorem setWidx_buf (v : BitVec 8) (s : State) : (State.setWidx v s).buf = s.buf :=
  by unfold State.setWidx; refine State.live_keeps State.buf ?_ s; exact fun _ => rfl
@[simp] theorem setWidx_wword (v : BitVec 8) (s : State) : (State.setWidx v s).wword = s.wword :=
  by unfold State.setWidx; refine State.live_keeps State.wword ?_ s; exact fun _ => rfl
@[simp] theorem setWidx_mport (v : BitVec 8) (s : State) : (State.setWidx v s).mport = s.mport :=
  by unfold State.setWidx; refine State.live_keeps State.mport ?_ s; exact fun _ => rfl
@[simp] theorem setWidx_script (v : BitVec 8) (s : State) : (State.setWidx v s).script = s.script :=
  by unfold State.setWidx; refine State.live_keeps State.script ?_ s; exact fun _ => rfl
@[simp] theorem setWidx_rst (v : BitVec 8) (s : State) : (State.setWidx v s).rst = s.rst :=
  by unfold State.setWidx; refine State.live_keeps State.rst ?_ s; exact fun _ => rfl
@[simp] theorem setWidx_modules (v : BitVec 8) (s : State) : (State.setWidx v s).modules = s.modules :=
  by unfold State.setWidx; refine State.live_keeps State.modules ?_ s; exact fun _ => rfl
@[simp] theorem setWidx_par (v : BitVec 8) (s : State) : (State.setWidx v s).par = s.par :=
  by unfold State.setWidx; refine State.live_keeps State.par ?_ s; exact fun _ => rfl
@[simp] theorem setWidx_trace (v : BitVec 8) (s : State) : (State.setWidx v s).trace = s.trace :=
  by unfold State.setWidx; refine State.live_keeps State.trace ?_ s; exact fun _ => rfl
@[simp] theorem setWidx_draws (v : BitVec 8) (s : State) : (State.setWidx v s).draws = s.draws :=
  by unfold State.setWidx; refine State.live_keeps State.draws ?_ s; exact fun _ => rfl

/-! ### setWword -/

@[simp] theorem setWword_busy (v : Half) (s : State) : (State.setWword v s).busy = s.busy :=
  by unfold State.setWword; refine State.live_keeps State.busy ?_ s; exact fun _ => rfl
@[simp] theorem setWword_seq (v : Half) (s : State) : (State.setWword v s).seq = s.seq :=
  by unfold State.setWword; refine State.live_keeps State.seq ?_ s; exact fun _ => rfl
@[simp] theorem setWword_op (v : Half) (s : State) : (State.setWword v s).op = s.op :=
  by unfold State.setWword; refine State.live_keeps State.op ?_ s; exact fun _ => rfl
@[simp] theorem setWword_base (v : Half) (s : State) : (State.setWword v s).base = s.base :=
  by unfold State.setWword; refine State.live_keeps State.base ?_ s; exact fun _ => rfl
@[simp] theorem setWword_a (v : Half) (s : State) : (State.setWword v s).a = s.a :=
  by unfold State.setWword; refine State.live_keeps State.a ?_ s; exact fun _ => rfl
@[simp] theorem setWword_data (v : Half) (s : State) : (State.setWword v s).data = s.data :=
  by unfold State.setWword; refine State.live_keeps State.data ?_ s; exact fun _ => rfl
@[simp] theorem setWword_lastd (v : Half) (s : State) : (State.setWword v s).lastd = s.lastd :=
  by unfold State.setWword; refine State.live_keeps State.lastd ?_ s; exact fun _ => rfl
@[simp] theorem setWword_sample (v : Half) (s : State) : (State.setWword v s).sample = s.sample :=
  by unfold State.setWword; refine State.live_keeps State.sample ?_ s; exact fun _ => rfl
@[simp] theorem setWword_acc (v : Half) (s : State) : (State.setWword v s).acc = s.acc :=
  by unfold State.setWword; refine State.live_keeps State.acc ?_ s; exact fun _ => rfl
@[simp] theorem setWword_rdack (v : Half) (s : State) : (State.setWword v s).rdack = s.rdack :=
  by unfold State.setWword; refine State.live_keeps State.rdack ?_ s; exact fun _ => rfl
@[simp] theorem setWword_bitcnt (v : Half) (s : State) : (State.setWword v s).bitcnt = s.bitcnt :=
  by unfold State.setWword; refine State.live_keeps State.bitcnt ?_ s; exact fun _ => rfl
@[simp] theorem setWword_widx (v : Half) (s : State) : (State.setWword v s).widx = s.widx :=
  by unfold State.setWword; refine State.live_keeps State.widx ?_ s; exact fun _ => rfl
@[simp] theorem setWword_dlycnt (v : Half) (s : State) : (State.setWword v s).dlycnt = s.dlycnt :=
  by unfold State.setWword; refine State.live_keeps State.dlycnt ?_ s; exact fun _ => rfl
@[simp] theorem setWword_rsp (v : Half) (s : State) : (State.setWword v s).rsp = s.rsp :=
  by unfold State.setWword; refine State.live_keeps State.rsp ?_ s; exact fun _ => rfl
@[simp] theorem setWword_buf (v : Half) (s : State) : (State.setWword v s).buf = s.buf :=
  by unfold State.setWword; refine State.live_keeps State.buf ?_ s; exact fun _ => rfl
@[simp] theorem setWword_mport (v : Half) (s : State) : (State.setWword v s).mport = s.mport :=
  by unfold State.setWword; refine State.live_keeps State.mport ?_ s; exact fun _ => rfl
@[simp] theorem setWword_script (v : Half) (s : State) : (State.setWword v s).script = s.script :=
  by unfold State.setWword; refine State.live_keeps State.script ?_ s; exact fun _ => rfl
@[simp] theorem setWword_rst (v : Half) (s : State) : (State.setWword v s).rst = s.rst :=
  by unfold State.setWword; refine State.live_keeps State.rst ?_ s; exact fun _ => rfl
@[simp] theorem setWword_modules (v : Half) (s : State) : (State.setWword v s).modules = s.modules :=
  by unfold State.setWword; refine State.live_keeps State.modules ?_ s; exact fun _ => rfl
@[simp] theorem setWword_par (v : Half) (s : State) : (State.setWword v s).par = s.par :=
  by unfold State.setWword; refine State.live_keeps State.par ?_ s; exact fun _ => rfl
@[simp] theorem setWword_trace (v : Half) (s : State) : (State.setWword v s).trace = s.trace :=
  by unfold State.setWword; refine State.live_keeps State.trace ?_ s; exact fun _ => rfl
@[simp] theorem setWword_draws (v : Half) (s : State) : (State.setWword v s).draws = s.draws :=
  by unfold State.setWword; refine State.live_keeps State.draws ?_ s; exact fun _ => rfl

/-! ### bufTouch -/

@[simp] theorem bufTouch_busy (i : Index) (s : State) : (State.bufTouch i s).busy = s.busy :=
  by unfold State.bufTouch; refine State.live_keeps State.busy ?_ s; intro; split <;> rfl
@[simp] theorem bufTouch_seq (i : Index) (s : State) : (State.bufTouch i s).seq = s.seq :=
  by unfold State.bufTouch; refine State.live_keeps State.seq ?_ s; intro; split <;> rfl
@[simp] theorem bufTouch_op (i : Index) (s : State) : (State.bufTouch i s).op = s.op :=
  by unfold State.bufTouch; refine State.live_keeps State.op ?_ s; intro; split <;> rfl
@[simp] theorem bufTouch_base (i : Index) (s : State) : (State.bufTouch i s).base = s.base :=
  by unfold State.bufTouch; refine State.live_keeps State.base ?_ s; intro; split <;> rfl
@[simp] theorem bufTouch_a (i : Index) (s : State) : (State.bufTouch i s).a = s.a :=
  by unfold State.bufTouch; refine State.live_keeps State.a ?_ s; intro; split <;> rfl
@[simp] theorem bufTouch_data (i : Index) (s : State) : (State.bufTouch i s).data = s.data :=
  by unfold State.bufTouch; refine State.live_keeps State.data ?_ s; intro; split <;> rfl
@[simp] theorem bufTouch_lastd (i : Index) (s : State) : (State.bufTouch i s).lastd = s.lastd :=
  by unfold State.bufTouch; refine State.live_keeps State.lastd ?_ s; intro; split <;> rfl
@[simp] theorem bufTouch_sample (i : Index) (s : State) : (State.bufTouch i s).sample = s.sample :=
  by unfold State.bufTouch; refine State.live_keeps State.sample ?_ s; intro; split <;> rfl
@[simp] theorem bufTouch_acc (i : Index) (s : State) : (State.bufTouch i s).acc = s.acc :=
  by unfold State.bufTouch; refine State.live_keeps State.acc ?_ s; intro; split <;> rfl
@[simp] theorem bufTouch_rdack (i : Index) (s : State) : (State.bufTouch i s).rdack = s.rdack :=
  by unfold State.bufTouch; refine State.live_keeps State.rdack ?_ s; intro; split <;> rfl
@[simp] theorem bufTouch_bitcnt (i : Index) (s : State) : (State.bufTouch i s).bitcnt = s.bitcnt :=
  by unfold State.bufTouch; refine State.live_keeps State.bitcnt ?_ s; intro; split <;> rfl
@[simp] theorem bufTouch_widx (i : Index) (s : State) : (State.bufTouch i s).widx = s.widx :=
  by unfold State.bufTouch; refine State.live_keeps State.widx ?_ s; intro; split <;> rfl
@[simp] theorem bufTouch_dlycnt (i : Index) (s : State) : (State.bufTouch i s).dlycnt = s.dlycnt :=
  by unfold State.bufTouch; refine State.live_keeps State.dlycnt ?_ s; intro; split <;> rfl
@[simp] theorem bufTouch_rsp (i : Index) (s : State) : (State.bufTouch i s).rsp = s.rsp :=
  by unfold State.bufTouch; refine State.live_keeps State.rsp ?_ s; intro; split <;> rfl
@[simp] theorem bufTouch_buf (i : Index) (s : State) : (State.bufTouch i s).buf = s.buf :=
  by unfold State.bufTouch; refine State.live_keeps State.buf ?_ s; intro; split <;> rfl
@[simp] theorem bufTouch_wword (i : Index) (s : State) : (State.bufTouch i s).wword = s.wword :=
  by unfold State.bufTouch; refine State.live_keeps State.wword ?_ s; intro; split <;> rfl
@[simp] theorem bufTouch_mport (i : Index) (s : State) : (State.bufTouch i s).mport = s.mport :=
  by unfold State.bufTouch; refine State.live_keeps State.mport ?_ s; intro; split <;> rfl
@[simp] theorem bufTouch_script (i : Index) (s : State) : (State.bufTouch i s).script = s.script :=
  by unfold State.bufTouch; refine State.live_keeps State.script ?_ s; intro; split <;> rfl
@[simp] theorem bufTouch_rst (i : Index) (s : State) : (State.bufTouch i s).rst = s.rst :=
  by unfold State.bufTouch; refine State.live_keeps State.rst ?_ s; intro; split <;> rfl
@[simp] theorem bufTouch_modules (i : Index) (s : State) : (State.bufTouch i s).modules = s.modules :=
  by unfold State.bufTouch; refine State.live_keeps State.modules ?_ s; intro; split <;> rfl
@[simp] theorem bufTouch_par (i : Index) (s : State) : (State.bufTouch i s).par = s.par :=
  by unfold State.bufTouch; refine State.live_keeps State.par ?_ s; intro; split <;> rfl
@[simp] theorem bufTouch_trace (i : Index) (s : State) : (State.bufTouch i s).trace = s.trace :=
  by unfold State.bufTouch; refine State.live_keeps State.trace ?_ s; intro; split <;> rfl

/-! ### bufWrite -/

@[simp] theorem bufWrite_busy (i : Index) (v : Half) (s : State) : (State.bufWrite i v s).busy = s.busy :=
  by unfold State.bufWrite; refine State.live_keeps State.busy ?_ s; exact fun _ => rfl
@[simp] theorem bufWrite_seq (i : Index) (v : Half) (s : State) : (State.bufWrite i v s).seq = s.seq :=
  by unfold State.bufWrite; refine State.live_keeps State.seq ?_ s; exact fun _ => rfl
@[simp] theorem bufWrite_op (i : Index) (v : Half) (s : State) : (State.bufWrite i v s).op = s.op :=
  by unfold State.bufWrite; refine State.live_keeps State.op ?_ s; exact fun _ => rfl
@[simp] theorem bufWrite_base (i : Index) (v : Half) (s : State) : (State.bufWrite i v s).base = s.base :=
  by unfold State.bufWrite; refine State.live_keeps State.base ?_ s; exact fun _ => rfl
@[simp] theorem bufWrite_a (i : Index) (v : Half) (s : State) : (State.bufWrite i v s).a = s.a :=
  by unfold State.bufWrite; refine State.live_keeps State.a ?_ s; exact fun _ => rfl
@[simp] theorem bufWrite_data (i : Index) (v : Half) (s : State) : (State.bufWrite i v s).data = s.data :=
  by unfold State.bufWrite; refine State.live_keeps State.data ?_ s; exact fun _ => rfl
@[simp] theorem bufWrite_lastd (i : Index) (v : Half) (s : State) : (State.bufWrite i v s).lastd = s.lastd :=
  by unfold State.bufWrite; refine State.live_keeps State.lastd ?_ s; exact fun _ => rfl
@[simp] theorem bufWrite_sample (i : Index) (v : Half) (s : State) : (State.bufWrite i v s).sample = s.sample :=
  by unfold State.bufWrite; refine State.live_keeps State.sample ?_ s; exact fun _ => rfl
@[simp] theorem bufWrite_acc (i : Index) (v : Half) (s : State) : (State.bufWrite i v s).acc = s.acc :=
  by unfold State.bufWrite; refine State.live_keeps State.acc ?_ s; exact fun _ => rfl
@[simp] theorem bufWrite_rdack (i : Index) (v : Half) (s : State) : (State.bufWrite i v s).rdack = s.rdack :=
  by unfold State.bufWrite; refine State.live_keeps State.rdack ?_ s; exact fun _ => rfl
@[simp] theorem bufWrite_bitcnt (i : Index) (v : Half) (s : State) : (State.bufWrite i v s).bitcnt = s.bitcnt :=
  by unfold State.bufWrite; refine State.live_keeps State.bitcnt ?_ s; exact fun _ => rfl
@[simp] theorem bufWrite_widx (i : Index) (v : Half) (s : State) : (State.bufWrite i v s).widx = s.widx :=
  by unfold State.bufWrite; refine State.live_keeps State.widx ?_ s; exact fun _ => rfl
@[simp] theorem bufWrite_dlycnt (i : Index) (v : Half) (s : State) : (State.bufWrite i v s).dlycnt = s.dlycnt :=
  by unfold State.bufWrite; refine State.live_keeps State.dlycnt ?_ s; exact fun _ => rfl
@[simp] theorem bufWrite_rsp (i : Index) (v : Half) (s : State) : (State.bufWrite i v s).rsp = s.rsp :=
  by unfold State.bufWrite; refine State.live_keeps State.rsp ?_ s; exact fun _ => rfl
@[simp] theorem bufWrite_wword (i : Index) (v : Half) (s : State) : (State.bufWrite i v s).wword = s.wword :=
  by unfold State.bufWrite; refine State.live_keeps State.wword ?_ s; exact fun _ => rfl
@[simp] theorem bufWrite_mport (i : Index) (v : Half) (s : State) : (State.bufWrite i v s).mport = s.mport :=
  by unfold State.bufWrite; refine State.live_keeps State.mport ?_ s; exact fun _ => rfl
@[simp] theorem bufWrite_script (i : Index) (v : Half) (s : State) : (State.bufWrite i v s).script = s.script :=
  by unfold State.bufWrite; refine State.live_keeps State.script ?_ s; exact fun _ => rfl
@[simp] theorem bufWrite_rst (i : Index) (v : Half) (s : State) : (State.bufWrite i v s).rst = s.rst :=
  by unfold State.bufWrite; refine State.live_keeps State.rst ?_ s; exact fun _ => rfl
@[simp] theorem bufWrite_modules (i : Index) (v : Half) (s : State) : (State.bufWrite i v s).modules = s.modules :=
  by unfold State.bufWrite; refine State.live_keeps State.modules ?_ s; exact fun _ => rfl
@[simp] theorem bufWrite_par (i : Index) (v : Half) (s : State) : (State.bufWrite i v s).par = s.par :=
  by unfold State.bufWrite; refine State.live_keeps State.par ?_ s; exact fun _ => rfl
@[simp] theorem bufWrite_trace (i : Index) (v : Half) (s : State) : (State.bufWrite i v s).trace = s.trace :=
  by unfold State.bufWrite; refine State.live_keeps State.trace ?_ s; exact fun _ => rfl
@[simp] theorem bufWrite_draws (i : Index) (v : Half) (s : State) : (State.bufWrite i v s).draws = s.draws :=
  by unfold State.bufWrite; refine State.live_keeps State.draws ?_ s; exact fun _ => rfl

/-! ### launch -/

@[simp] theorem launch_op (st : Stage) (s : State) : (State.launch st s).op = s.op :=
  by unfold State.launch; refine State.live_keeps State.op ?_ s; exact fun _ => rfl
@[simp] theorem launch_base (st : Stage) (s : State) : (State.launch st s).base = s.base :=
  by unfold State.launch; refine State.live_keeps State.base ?_ s; exact fun _ => rfl
@[simp] theorem launch_a (st : Stage) (s : State) : (State.launch st s).a = s.a :=
  by unfold State.launch; refine State.live_keeps State.a ?_ s; exact fun _ => rfl
@[simp] theorem launch_data (st : Stage) (s : State) : (State.launch st s).data = s.data :=
  by unfold State.launch; refine State.live_keeps State.data ?_ s; exact fun _ => rfl
@[simp] theorem launch_lastd (st : Stage) (s : State) : (State.launch st s).lastd = s.lastd :=
  by unfold State.launch; refine State.live_keeps State.lastd ?_ s; exact fun _ => rfl
@[simp] theorem launch_sample (st : Stage) (s : State) : (State.launch st s).sample = s.sample :=
  by unfold State.launch; refine State.live_keeps State.sample ?_ s; exact fun _ => rfl
@[simp] theorem launch_acc (st : Stage) (s : State) : (State.launch st s).acc = s.acc :=
  by unfold State.launch; refine State.live_keeps State.acc ?_ s; exact fun _ => rfl
@[simp] theorem launch_bitcnt (st : Stage) (s : State) : (State.launch st s).bitcnt = s.bitcnt :=
  by unfold State.launch; refine State.live_keeps State.bitcnt ?_ s; exact fun _ => rfl
@[simp] theorem launch_widx (st : Stage) (s : State) : (State.launch st s).widx = s.widx :=
  by unfold State.launch; refine State.live_keeps State.widx ?_ s; exact fun _ => rfl
@[simp] theorem launch_dlycnt (st : Stage) (s : State) : (State.launch st s).dlycnt = s.dlycnt :=
  by unfold State.launch; refine State.live_keeps State.dlycnt ?_ s; exact fun _ => rfl
@[simp] theorem launch_rsp (st : Stage) (s : State) : (State.launch st s).rsp = s.rsp :=
  by unfold State.launch; refine State.live_keeps State.rsp ?_ s; exact fun _ => rfl
@[simp] theorem launch_buf (st : Stage) (s : State) : (State.launch st s).buf = s.buf :=
  by unfold State.launch; refine State.live_keeps State.buf ?_ s; exact fun _ => rfl
@[simp] theorem launch_wword (st : Stage) (s : State) : (State.launch st s).wword = s.wword :=
  by unfold State.launch; refine State.live_keeps State.wword ?_ s; exact fun _ => rfl
@[simp] theorem launch_mport (st : Stage) (s : State) : (State.launch st s).mport = s.mport :=
  by unfold State.launch; refine State.live_keeps State.mport ?_ s; exact fun _ => rfl
@[simp] theorem launch_script (st : Stage) (s : State) : (State.launch st s).script = s.script :=
  by unfold State.launch; refine State.live_keeps State.script ?_ s; exact fun _ => rfl
@[simp] theorem launch_rst (st : Stage) (s : State) : (State.launch st s).rst = s.rst :=
  by unfold State.launch; refine State.live_keeps State.rst ?_ s; exact fun _ => rfl
@[simp] theorem launch_modules (st : Stage) (s : State) : (State.launch st s).modules = s.modules :=
  by unfold State.launch; refine State.live_keeps State.modules ?_ s; exact fun _ => rfl
@[simp] theorem launch_par (st : Stage) (s : State) : (State.launch st s).par = s.par :=
  by unfold State.launch; refine State.live_keeps State.par ?_ s; exact fun _ => rfl
@[simp] theorem launch_trace (st : Stage) (s : State) : (State.launch st s).trace = s.trace :=
  by unfold State.launch; refine State.live_keeps State.trace ?_ s; exact fun _ => rfl
@[simp] theorem launch_draws (st : Stage) (s : State) : (State.launch st s).draws = s.draws :=
  by unfold State.launch; refine State.live_keeps State.draws ?_ s; exact fun _ => rfl

/-! ### enter -/

@[simp] theorem enter_busy (st : Stage) (s : State) : (State.enter st s).busy = s.busy :=
  by unfold State.enter; refine State.live_keeps State.busy ?_ s; exact fun _ => rfl
@[simp] theorem enter_op (st : Stage) (s : State) : (State.enter st s).op = s.op :=
  by unfold State.enter; refine State.live_keeps State.op ?_ s; exact fun _ => rfl
@[simp] theorem enter_base (st : Stage) (s : State) : (State.enter st s).base = s.base :=
  by unfold State.enter; refine State.live_keeps State.base ?_ s; exact fun _ => rfl
@[simp] theorem enter_a (st : Stage) (s : State) : (State.enter st s).a = s.a :=
  by unfold State.enter; refine State.live_keeps State.a ?_ s; exact fun _ => rfl
@[simp] theorem enter_data (st : Stage) (s : State) : (State.enter st s).data = s.data :=
  by unfold State.enter; refine State.live_keeps State.data ?_ s; exact fun _ => rfl
@[simp] theorem enter_lastd (st : Stage) (s : State) : (State.enter st s).lastd = s.lastd :=
  by unfold State.enter; refine State.live_keeps State.lastd ?_ s; exact fun _ => rfl
@[simp] theorem enter_sample (st : Stage) (s : State) : (State.enter st s).sample = s.sample :=
  by unfold State.enter; refine State.live_keeps State.sample ?_ s; exact fun _ => rfl
@[simp] theorem enter_acc (st : Stage) (s : State) : (State.enter st s).acc = s.acc :=
  by unfold State.enter; refine State.live_keeps State.acc ?_ s; exact fun _ => rfl
@[simp] theorem enter_rdack (st : Stage) (s : State) : (State.enter st s).rdack = s.rdack :=
  by unfold State.enter; refine State.live_keeps State.rdack ?_ s; exact fun _ => rfl
@[simp] theorem enter_bitcnt (st : Stage) (s : State) : (State.enter st s).bitcnt = s.bitcnt :=
  by unfold State.enter; refine State.live_keeps State.bitcnt ?_ s; exact fun _ => rfl
@[simp] theorem enter_widx (st : Stage) (s : State) : (State.enter st s).widx = s.widx :=
  by unfold State.enter; refine State.live_keeps State.widx ?_ s; exact fun _ => rfl
@[simp] theorem enter_dlycnt (st : Stage) (s : State) : (State.enter st s).dlycnt = s.dlycnt :=
  by unfold State.enter; refine State.live_keeps State.dlycnt ?_ s; exact fun _ => rfl
@[simp] theorem enter_rsp (st : Stage) (s : State) : (State.enter st s).rsp = s.rsp :=
  by unfold State.enter; refine State.live_keeps State.rsp ?_ s; exact fun _ => rfl
@[simp] theorem enter_buf (st : Stage) (s : State) : (State.enter st s).buf = s.buf :=
  by unfold State.enter; refine State.live_keeps State.buf ?_ s; exact fun _ => rfl
@[simp] theorem enter_wword (st : Stage) (s : State) : (State.enter st s).wword = s.wword :=
  by unfold State.enter; refine State.live_keeps State.wword ?_ s; exact fun _ => rfl
@[simp] theorem enter_mport (st : Stage) (s : State) : (State.enter st s).mport = s.mport :=
  by unfold State.enter; refine State.live_keeps State.mport ?_ s; exact fun _ => rfl
@[simp] theorem enter_script (st : Stage) (s : State) : (State.enter st s).script = s.script :=
  by unfold State.enter; refine State.live_keeps State.script ?_ s; exact fun _ => rfl
@[simp] theorem enter_rst (st : Stage) (s : State) : (State.enter st s).rst = s.rst :=
  by unfold State.enter; refine State.live_keeps State.rst ?_ s; exact fun _ => rfl
@[simp] theorem enter_modules (st : Stage) (s : State) : (State.enter st s).modules = s.modules :=
  by unfold State.enter; refine State.live_keeps State.modules ?_ s; exact fun _ => rfl
@[simp] theorem enter_par (st : Stage) (s : State) : (State.enter st s).par = s.par :=
  by unfold State.enter; refine State.live_keeps State.par ?_ s; exact fun _ => rfl
@[simp] theorem enter_trace (st : Stage) (s : State) : (State.enter st s).trace = s.trace :=
  by unfold State.enter; refine State.live_keeps State.trace ?_ s; exact fun _ => rfl
@[simp] theorem enter_draws (st : Stage) (s : State) : (State.enter st s).draws = s.draws :=
  by unfold State.enter; refine State.live_keeps State.draws ?_ s; exact fun _ => rfl

/-! ### complete -/

@[simp] theorem complete_op (st : BitVec 4) (d : Half) (s : State) : (State.complete st d s).op = s.op :=
  by unfold State.complete; refine State.live_keeps State.op ?_ s; exact fun _ => rfl
@[simp] theorem complete_base (st : BitVec 4) (d : Half) (s : State) : (State.complete st d s).base = s.base :=
  by unfold State.complete; refine State.live_keeps State.base ?_ s; exact fun _ => rfl
@[simp] theorem complete_a (st : BitVec 4) (d : Half) (s : State) : (State.complete st d s).a = s.a :=
  by unfold State.complete; refine State.live_keeps State.a ?_ s; exact fun _ => rfl
@[simp] theorem complete_data (st : BitVec 4) (d : Half) (s : State) : (State.complete st d s).data = s.data :=
  by unfold State.complete; refine State.live_keeps State.data ?_ s; exact fun _ => rfl
@[simp] theorem complete_lastd (st : BitVec 4) (d : Half) (s : State) : (State.complete st d s).lastd = s.lastd :=
  by unfold State.complete; refine State.live_keeps State.lastd ?_ s; exact fun _ => rfl
@[simp] theorem complete_sample (st : BitVec 4) (d : Half) (s : State) : (State.complete st d s).sample = s.sample :=
  by unfold State.complete; refine State.live_keeps State.sample ?_ s; exact fun _ => rfl
@[simp] theorem complete_acc (st : BitVec 4) (d : Half) (s : State) : (State.complete st d s).acc = s.acc :=
  by unfold State.complete; refine State.live_keeps State.acc ?_ s; exact fun _ => rfl
@[simp] theorem complete_rdack (st : BitVec 4) (d : Half) (s : State) : (State.complete st d s).rdack = s.rdack :=
  by unfold State.complete; refine State.live_keeps State.rdack ?_ s; exact fun _ => rfl
@[simp] theorem complete_bitcnt (st : BitVec 4) (d : Half) (s : State) : (State.complete st d s).bitcnt = s.bitcnt :=
  by unfold State.complete; refine State.live_keeps State.bitcnt ?_ s; exact fun _ => rfl
@[simp] theorem complete_widx (st : BitVec 4) (d : Half) (s : State) : (State.complete st d s).widx = s.widx :=
  by unfold State.complete; refine State.live_keeps State.widx ?_ s; exact fun _ => rfl
@[simp] theorem complete_dlycnt (st : BitVec 4) (d : Half) (s : State) : (State.complete st d s).dlycnt = s.dlycnt :=
  by unfold State.complete; refine State.live_keeps State.dlycnt ?_ s; exact fun _ => rfl
@[simp] theorem complete_buf (st : BitVec 4) (d : Half) (s : State) : (State.complete st d s).buf = s.buf :=
  by unfold State.complete; refine State.live_keeps State.buf ?_ s; exact fun _ => rfl
@[simp] theorem complete_wword (st : BitVec 4) (d : Half) (s : State) : (State.complete st d s).wword = s.wword :=
  by unfold State.complete; refine State.live_keeps State.wword ?_ s; exact fun _ => rfl
@[simp] theorem complete_mport (st : BitVec 4) (d : Half) (s : State) : (State.complete st d s).mport = s.mport :=
  by unfold State.complete; refine State.live_keeps State.mport ?_ s; exact fun _ => rfl
@[simp] theorem complete_script (st : BitVec 4) (d : Half) (s : State) : (State.complete st d s).script = s.script :=
  by unfold State.complete; refine State.live_keeps State.script ?_ s; exact fun _ => rfl
@[simp] theorem complete_rst (st : BitVec 4) (d : Half) (s : State) : (State.complete st d s).rst = s.rst :=
  by unfold State.complete; refine State.live_keeps State.rst ?_ s; exact fun _ => rfl
@[simp] theorem complete_modules (st : BitVec 4) (d : Half) (s : State) : (State.complete st d s).modules = s.modules :=
  by unfold State.complete; refine State.live_keeps State.modules ?_ s; exact fun _ => rfl
@[simp] theorem complete_par (st : BitVec 4) (d : Half) (s : State) : (State.complete st d s).par = s.par :=
  by unfold State.complete; refine State.live_keeps State.par ?_ s; exact fun _ => rfl
@[simp] theorem complete_trace (st : BitVec 4) (d : Half) (s : State) : (State.complete st d s).trace = s.trace :=
  by unfold State.complete; refine State.live_keeps State.trace ?_ s; exact fun _ => rfl
@[simp] theorem complete_draws (st : BitVec 4) (d : Half) (s : State) : (State.complete st d s).draws = s.draws :=
  by unfold State.complete; refine State.live_keeps State.draws ?_ s; exact fun _ => rfl

/-! ### accept -/

@[simp] theorem accept_busy (r : Request) (s : State) : (State.accept r s).busy = s.busy :=
  by unfold State.accept; split <;> rfl
@[simp] theorem accept_seq (r : Request) (s : State) : (State.accept r s).seq = s.seq :=
  by unfold State.accept; split <;> rfl
@[simp] theorem accept_base (r : Request) (s : State) : (State.accept r s).base = Operand.baseBits s.par r.base :=
  by unfold State.accept; split <;> rfl
/-- The latched base address fits in `ADDR_W` bits (R29). -/
theorem accept_base_lt (r : Request) (s : State) : (State.accept r s).base < 2 ^ s.par.addrW := by
  rw [accept_base]; exact Nat.mod_lt _ (Nat.two_pow_pos _)
@[simp] theorem accept_lastd (r : Request) (s : State) : (State.accept r s).lastd = s.lastd :=
  by unfold State.accept; split <;> rfl
@[simp] theorem accept_sample (r : Request) (s : State) : (State.accept r s).sample = s.sample :=
  by unfold State.accept; split <;> rfl
@[simp] theorem accept_acc (r : Request) (s : State) : (State.accept r s).acc = s.acc :=
  by unfold State.accept; split <;> rfl
@[simp] theorem accept_rdack (r : Request) (s : State) : (State.accept r s).rdack = s.rdack :=
  by unfold State.accept; split <;> rfl
@[simp] theorem accept_bitcnt (r : Request) (s : State) : (State.accept r s).bitcnt = s.bitcnt :=
  by unfold State.accept; split <;> rfl
@[simp] theorem accept_widx (r : Request) (s : State) : (State.accept r s).widx = s.widx :=
  by unfold State.accept; split <;> rfl
@[simp] theorem accept_dlycnt (r : Request) (s : State) : (State.accept r s).dlycnt = s.dlycnt :=
  by unfold State.accept; split <;> rfl
@[simp] theorem accept_rsp (r : Request) (s : State) : (State.accept r s).rsp = s.rsp :=
  by unfold State.accept; split <;> rfl
@[simp] theorem accept_buf (r : Request) (s : State) : (State.accept r s).buf = s.buf :=
  by unfold State.accept; split <;> rfl
@[simp] theorem accept_wword (r : Request) (s : State) : (State.accept r s).wword = s.wword :=
  by unfold State.accept; split <;> rfl
@[simp] theorem accept_mport (r : Request) (s : State) : (State.accept r s).mport = s.mport :=
  by unfold State.accept; split <;> rfl
@[simp] theorem accept_script (r : Request) (s : State) : (State.accept r s).script = s.script :=
  by unfold State.accept; split <;> rfl
@[simp] theorem accept_rst (r : Request) (s : State) : (State.accept r s).rst = s.rst :=
  by unfold State.accept; split <;> rfl
@[simp] theorem accept_modules (r : Request) (s : State) : (State.accept r s).modules = s.modules :=
  by unfold State.accept; split <;> rfl
@[simp] theorem accept_par (r : Request) (s : State) : (State.accept r s).par = s.par :=
  by unfold State.accept; split <;> rfl
@[simp] theorem accept_trace (r : Request) (s : State) : (State.accept r s).trace = s.trace :=
  by unfold State.accept; split <;> rfl
@[simp] theorem accept_draws (r : Request) (s : State) : (State.accept r s).draws = s.draws :=
  by unfold State.accept; split <;> rfl

/-! ### afterReset -/

@[simp] theorem afterReset_modules (s : State) : s.afterReset.modules = s.modules := rfl
@[simp] theorem afterReset_par (s : State) : s.afterReset.par = s.par := rfl
@[simp] theorem afterReset_script (s : State) : s.afterReset.script = s.script := rfl
@[simp] theorem afterReset_trace (s : State) : s.afterReset.trace = s.trace := rfl
@[simp] theorem afterReset_draws (s : State) : s.afterReset.draws = s.draws := rfl
@[simp] theorem afterReset_busy (s : State) : s.afterReset.busy = State.reset.busy := rfl
@[simp] theorem afterReset_seq (s : State) : s.afterReset.seq = State.reset.seq := rfl
@[simp] theorem afterReset_op (s : State) : s.afterReset.op = State.reset.op := rfl
@[simp] theorem afterReset_base (s : State) : s.afterReset.base = State.reset.base := rfl
@[simp] theorem afterReset_a (s : State) : s.afterReset.a = State.reset.a := rfl
@[simp] theorem afterReset_data (s : State) : s.afterReset.data = State.reset.data := rfl
@[simp] theorem afterReset_lastd (s : State) : s.afterReset.lastd = State.reset.lastd := rfl
@[simp] theorem afterReset_sample (s : State) : s.afterReset.sample = State.reset.sample := rfl
@[simp] theorem afterReset_acc (s : State) : s.afterReset.acc = State.reset.acc := rfl
@[simp] theorem afterReset_rdack (s : State) : s.afterReset.rdack = State.reset.rdack := rfl
@[simp] theorem afterReset_bitcnt (s : State) : s.afterReset.bitcnt = State.reset.bitcnt := rfl
@[simp] theorem afterReset_widx (s : State) : s.afterReset.widx = State.reset.widx := rfl
@[simp] theorem afterReset_dlycnt (s : State) : s.afterReset.dlycnt = State.reset.dlycnt := rfl
@[simp] theorem afterReset_rsp (s : State) : s.afterReset.rsp = State.reset.rsp := rfl
@[simp] theorem afterReset_buf (s : State) : s.afterReset.buf = State.reset.buf := rfl
@[simp] theorem afterReset_wword (s : State) : s.afterReset.wword = State.reset.wword := rfl
@[simp] theorem afterReset_mport (s : State) : s.afterReset.mport = State.reset.mport := rfl
@[simp] theorem afterReset_rst (s : State) : s.afterReset.rst = State.reset.rst := rfl

end Sys2Proof.Machine
end

