-- ==== Sys2Proof/Laws/Ops.lean ====
section
/-! SUPPORT. What the shared operations do, said once: a stopped sequence stays as it is, and an undisturbed one performs exactly its
events (`State.Performs`), composed over the micro-sequences. -/

namespace Sys2Proof.Machine

/-! ### Targets by base address -/

@[simp] theorem moduleAt_put_self (s : State) (b : Nat) (m : Module) (l : List (Nat × Module)) :
    ({ s with modules := Table.put b m l } : State).moduleAt b = m := by
  simp [State.moduleAt]

theorem moduleAt_congr {s t : State} (h : t.modules = s.modules) (b : Nat) : t.moduleAt b = s.moduleAt b := by
  simp [State.moduleAt, h]

theorem moduleAt_of_put {s t : State} {b c : Nat} {m : Module} (h : t.modules = Table.put b m s.modules) :
    t.moduleAt c = if c = b then m else s.moduleAt c := by
  simp only [State.moduleAt, h, Table.get_put]
  split <;> rfl

/-! ### Line values -/

theorem clockLow_eq (d : Bool) : Operand.clockLow d = Frame.low d := by cases d <;> decide

theorem clockHigh_eq (d : Bool) : Operand.clockHigh d = Frame.high d := by cases d <;> decide

@[simp] theorem low_data (d : Bool) : (Frame.low d).getLsbD 3 = d := by cases d <;> decide

@[simp] theorem high_data (d : Bool) : (Frame.high d).getLsbD 3 = d := by cases d <;> decide

theorem addrByte_eq (i : Index) : Operand.addrByte i = Frame.address i := by
  revert i
  decide

theorem hiByte_eq (w : Half) : Operand.hiByte w = Frame.high8 w := by
  apply BitVec.eq_of_toNat_eq
  simp [Operand.hiByte, Frame.high8, BitVec.extractLsb'_toNat, Nat.shiftRight_eq_div_pow]

theorem loByte_eq (w : Half) : Operand.loByte w = Frame.low8 w := by
  apply BitVec.eq_of_toNat_eq
  simp [Operand.loByte, Frame.low8, BitVec.extractLsb'_toNat]

theorem swapBytes_toNat (v : Half) : (Operand.swapBytes v).toNat = v.toNat % 256 * 256 + v.toNat / 256 := by
  show ((v.extractLsb' 0 8 ++ v.extractLsb' 8 8 : BitVec (8 + 8))).toNat = _
  rw [BitVec.toNat_append, ← Nat.shiftLeft_add_eq_or_of_lt (BitVec.isLt _)]
  simp only [BitVec.extractLsb'_toNat, Nat.shiftRight_eq_div_pow, Nat.shiftLeft_eq]
  omega

@[simp] theorem unmarshal_marshal (p : Params) (v : Half) : Operand.unmarshal p (Operand.marshal p v) = v := by
  unfold Operand.unmarshal Operand.marshal
  split
  · apply BitVec.eq_of_toNat_eq
    rw [swapBytes_toNat, swapBytes_toNat]
    omega
  · rfl

@[simp] theorem countDown_eq_zero (n : Nat) : Delay.countDown n = 0 := by
  induction n with
  | zero => rfl
  | succ n ih => exact ih

/-! ### A stopped sequence -/

section Blocked

variable {s : State} (h : s.blocked = true)
include h

theorem lineWrite_blocked (v : Half) : State.lineWrite v s = s := State.live_of_blocked h

theorem delay_blocked : State.delay s = s := State.live_of_blocked h

theorem readSample_blocked : State.readSample s = s := State.live_of_blocked h

theorem enter_blocked (st : Stage) : State.enter st s = s := State.live_of_blocked h

theorem launch_blocked (st : Stage) : State.launch st s = s := State.live_of_blocked h

theorem complete_blocked (st : BitVec 4) (d : Half) : State.complete st d s = s := State.live_of_blocked h

theorem noteAck_blocked (k : Nat) : State.noteAck k s = s := State.live_of_blocked h

theorem setAcc_blocked (v : Half) : State.setAcc v s = s := State.live_of_blocked h

theorem shiftAcc_blocked : State.shiftAcc s = s := State.live_of_blocked h

theorem setBitcnt_blocked (v : BitVec 4) : State.setBitcnt v s = s := State.live_of_blocked h

theorem setWidx_blocked (v : BitVec 8) : State.setWidx v s = s := State.live_of_blocked h

theorem setWword_blocked (v : Half) : State.setWword v s = s := State.live_of_blocked h

theorem bufTouch_blocked (i : Index) : State.bufTouch i s = s := State.live_of_blocked h

theorem bufWrite_blocked (i : Index) (v : Half) : State.bufWrite i v s = s := State.live_of_blocked h

theorem writeDelay_blocked (v : Half) : State.writeDelay v s = s := by
  simp [State.writeDelay, lineWrite_blocked h, delay_blocked h]

theorem bitClk_blocked (dbs last : Bool) : State.bitClk dbs last s = s := by
  simp [State.bitClk, writeDelay_blocked h, readSample_blocked h]

theorem countBit_blocked : State.countBit s = s := setBitcnt_blocked h _

theorem selectSeq_blocked : State.selectSeq s = s := by simp [State.selectSeq, writeDelay_blocked h]

theorem deselectSeq_blocked : State.deselectSeq s = s := by simp [State.deselectSeq, writeDelay_blocked h]

theorem startSeq_blocked : State.startSeq s = s := by simp [State.startSeq, writeDelay_blocked h]

theorem stopSeq_blocked : State.stopSeq s = s := by simp [State.stopSeq, writeDelay_blocked h]

theorem sendBits_blocked (b : Byte) (n : Nat) : State.sendBits b n s = s := by
  induction n with
  | zero => rfl
  | succ n ih => simp [State.sendBits, bitClk_blocked h, countBit_blocked h, ih]

theorem sendByte_blocked (b : Byte) : State.sendByte b s = s := by
  simp [State.sendByte, setBitcnt_blocked h, sendBits_blocked h]

theorem recvBits_blocked (n : Nat) : State.recvBits n s = s := by
  induction n with
  | zero => rfl
  | succ n ih => simp [State.recvBits, bitClk_blocked h, shiftAcc_blocked h, countBit_blocked h, ih]

theorem recvByte_blocked : State.recvByte s = s := by
  simp [State.recvByte, setBitcnt_blocked h, recvBits_blocked h]

end Blocked

/-! ### The undisturbed events -/

theorem State.ready.running {s : State} (h : s.ready) : s.blocked = false := by
  simp [State.blocked, h.1.1, h.1.2]

theorem State.calm.running {s : State} (h : s.calm) : s.blocked = false := by
  simp [State.blocked, h.1, h.2]

/-- The data bit left on the line by events, `d` before them (R28). -/
def Trace.lastData (d : Bool) : List Event → Bool
  | [] => d
  | .w _ v :: rest => Trace.lastData (v.getLsbD 3) rest
  | .d _ :: rest => Trace.lastData d rest
  | .r _ _ :: rest => Trace.lastData d rest

/-- The line value left by events, `l` before them (R22). -/
def Trace.lastLine (l : Half) : List Event → Half
  | [] => l
  | .w _ v :: rest => Trace.lastLine v rest
  | .d _ :: rest => Trace.lastLine l rest
  | .r _ _ :: rest => Trace.lastLine l rest

theorem Trace.lastData_append (d : Bool) (e f : List Event) :
    Trace.lastData d (e ++ f) = Trace.lastData (Trace.lastData d e) f := by
  induction e generalizing d with
  | nil => rfl
  | cons x e ih => cases x <;> simp [Trace.lastData, ih]

theorem Trace.lastLine_append (l : Half) (e f : List Event) :
    Trace.lastLine l (e ++ f) = Trace.lastLine (Trace.lastLine l e) f := by
  induction e generalizing l with
  | nil => rfl
  | cons x e ih => cases x <;> simp [Trace.lastLine, ih]

/-- From the ready state `s` to the ready state `t` exactly the events `evs` took place, and nothing else changed but `SEQ`,
`SAMPLE`, `BITCNT`, `ACC`, `RDACK`, `DLYCNT`, the master port and the addressed target. -/
structure State.Performs (s t : State) (evs : List Event) : Prop where
  ready : t.ready
  ran : s.ran t evs
  lastd : t.lastd = Trace.lastData s.lastd evs
  line : (t.moduleAt s.base).line = Trace.lastLine (s.moduleAt s.base).line evs
  untouched : s.untouched t
  others : s.othersKept t
  buf : t.buf = s.buf
  wword : t.wword = s.wword
  widx : t.widx = s.widx
  rsp : t.rsp = s.rsp
  busy : t.busy = s.busy

theorem State.Performs.base {s t : State} {evs : List Event} (h : s.Performs t evs) : t.base = s.base := h.untouched.2.1

theorem State.Performs.refl {s : State} (h : s.ready) : s.Performs s [] where
  ready := h
  ran := ⟨rfl, by simp⟩
  lastd := rfl
  line := rfl
  untouched := ⟨rfl, rfl, rfl, rfl, rfl, rfl, rfl⟩
  others := fun _ _ => rfl
  buf := rfl
  wword := rfl
  widx := rfl
  rsp := rfl
  busy := rfl

theorem State.untouched.trans {s t u : State} (h : s.untouched t) (g : t.untouched u) : s.untouched u := by
  obtain ⟨h1, h2, h3, h4, h5, h6, h7⟩ := h
  obtain ⟨g1, g2, g3, g4, g5, g6, g7⟩ := g
  exact ⟨g1.trans h1, g2.trans h2, g3.trans h3, g4.trans h4, g5.trans h5, g6.trans h6, g7.trans h7⟩

theorem State.ran.trans {s t u : State} {e f : List Event} (h : s.ran t e) (g : t.ran u f) (hb : t.base = s.base) :
    s.ran u (e ++ f) := by
  refine ⟨by simp [g.1, h.1], fun x hx => ?_⟩
  rcases List.mem_append.1 hx with hx | hx
  · exact h.2 x hx
  · exact (g.2 x hx).trans hb

theorem State.Performs.trans {s t u : State} {e f : List Event} (h : s.Performs t e) (g : t.Performs u f) :
    s.Performs u (e ++ f) where
  ready := g.ready
  ran := h.ran.trans g.ran h.base
  lastd := by rw [g.lastd, h.lastd, Trace.lastData_append]
  line := by
    have := g.line
    rw [h.base, h.line] at this
    rw [this, Trace.lastLine_append]
  untouched := h.untouched.trans g.untouched
  others := fun b hb => (g.others b (by rw [h.base]; exact hb)).trans (h.others b hb)
  buf := g.buf.trans h.buf
  wword := g.wword.trans h.wword
  widx := g.widx.trans h.widx
  rsp := g.rsp.trans h.rsp
  busy := g.busy.trans h.busy

/-- A step of the sequence that is no event and keeps all these fields. -/
theorem State.Performs.silent {s t : State} (h : s.ready) (hm : t.mport = s.mport) (hr : t.rst = s.rst)
    (hmod : t.modules = s.modules) (htr : t.trace = s.trace) (hl : t.lastd = s.lastd)
    (hu : t.op = s.op ∧ t.base = s.base ∧ t.a = s.a ∧ t.data = s.data ∧ t.par = s.par ∧ t.script = s.script)
    (hb : t.buf = s.buf) (hw : t.wword = s.wword) (hx : t.widx = s.widx) (hp : t.rsp = s.rsp) (hy : t.busy = s.busy) :
    s.Performs t [] where
  ready := by
    refine ⟨⟨by rw [hm]; exact h.1.1, by rw [hr]; exact h.1.2⟩, ?_⟩
    rw [hu.2.1, moduleAt_congr hmod]
    exact h.2
  ran := ⟨htr, by simp⟩
  lastd := hl
  line := by rw [moduleAt_congr hmod]; rfl
  untouched := ⟨hu.1, hu.2.1, hu.2.2.1, hu.2.2.2.1, hu.2.2.2.2.1, hu.2.2.2.2.2, hr⟩
  others := fun b _ => moduleAt_congr hmod b
  buf := hb
  wword := hw
  widx := hx
  rsp := hp
  busy := hy

theorem enter_performs (st : Stage) {s : State} (h : s.ready) : s.Performs (State.enter st s) [] := by
  apply State.Performs.silent h <;> simp

theorem noteAck_performs (k : Nat) {s : State} (h : s.ready) : s.Performs (State.noteAck k s) [] := by
  apply State.Performs.silent h <;> simp

theorem setAcc_performs (v : Half) {s : State} (h : s.ready) : s.Performs (State.setAcc v s) [] := by
  apply State.Performs.silent h <;> simp

theorem shiftAcc_performs {s : State} (h : s.ready) : s.Performs (State.shiftAcc s) [] := by
  apply State.Performs.silent h <;> simp

theorem setBitcnt_performs (v : BitVec 4) {s : State} (h : s.ready) : s.Performs (State.setBitcnt v s) [] := by
  apply State.Performs.silent h <;> simp

theorem countBit_performs {s : State} (h : s.ready) : s.Performs (State.countBit s) [] := setBitcnt_performs _ h

/-- `LineWrite(v)` when it is not disturbed (R7, R28). -/
theorem lineWrite_performs (v : Half) {s : State} (h : s.ready) : s.Performs (State.lineWrite v s) [.w s.base v] := by
  have hg : ¬ (s.moduleAt s.base).grants = some 0 := by simp [h.2]
  have e : State.lineWrite v s =
      State.emit (.w s.base v)
        { s with mport := s.writeRequest v |>.done s.mport.rdata, lastd := v.getLsbD 3,
                 modules := Table.put s.base ((s.moduleAt s.base).granted.take v) s.modules } := by
    simp only [State.lineWrite, State.live_of_running h.running, if_neg hg]
  have hmod : (State.lineWrite v s).modules = Table.put s.base ((s.moduleAt s.base).granted.take v) s.modules := by
    rw [e]; rfl
  constructor
  · refine ⟨⟨by rw [e]; rfl, by rw [e]; simp [State.emit, h.1.2]⟩, ?_⟩
    rw [lineWrite_base, moduleAt_of_put hmod, if_pos rfl]
    simp [Module.take, Module.granted, h.2]
  · exact ⟨by rw [e]; rfl, by simp [Event.base]⟩
  · rw [e]; rfl
  · rw [moduleAt_of_put hmod, if_pos rfl]; rfl
  · exact ⟨by simp, by simp, by simp, by simp, by simp, by simp, by rw [e]; simp [State.emit, h.1.2]⟩
  · exact fun b hb => by rw [moduleAt_of_put hmod, if_neg hb]
  · simp
  · simp
  · simp
  · simp
  · simp

/-- `Delay()` when it is not disturbed (R143). -/
theorem delay_performs {s : State} (h : s.ready) : s.Performs (State.delay s) [.d s.base] := by
  have e : State.delay s = State.emit (.d s.base) { s with dlycnt := Delay.countDown s.par.delayCycles } := by
    simp only [State.delay, State.live_of_running h.running]
  have hmod : (State.delay s).modules = s.modules := by simp
  constructor
  · refine ⟨⟨by simp [h.1.1], by rw [e]; simp [State.emit, h.1.2]⟩, ?_⟩
    rw [delay_base, moduleAt_congr hmod]
    exact h.2
  · exact ⟨by rw [e]; rfl, by simp [Event.base]⟩
  · simp [Trace.lastData]
  · rw [moduleAt_congr hmod]; rfl
  · exact ⟨by simp, by simp, by simp, by simp, by simp, by simp, by rw [e]; simp [State.emit, h.1.2]⟩
  · exact fun b _ => moduleAt_congr hmod b
  · simp
  · simp
  · simp
  · simp
  · simp

/-- The logical value a read returns (R7, R63). -/
def State.answerValue (s : State) : Half :=
  Operand.unmarshal s.par ((s.moduleAt s.base).device.answer s.par (s.moduleAt s.base).line s.draws).1

/-- `SAMPLE <- LineRead()[3]` when it is not disturbed (R7, R30). -/
theorem readSample_performs {s : State} (h : s.ready) :
    s.Performs (State.readSample s) [.r s.base s.answerValue] ∧ (State.readSample s).sample = s.answerValue.getLsbD 3 := by
  have hg : ¬ (s.moduleAt s.base).grants = some 0 := by simp [h.2]
  obtain ⟨t, ht, e⟩ : ∃ t, t = (s.moduleAt s.base).device.answer s.par (s.moduleAt s.base).line s.draws ∧
      State.readSample s = State.emit (.r s.base s.answerValue)
        { s with mport := s.readRequest.done t.1, sample := s.answerValue.getLsbD 3, draws := t.2.2,
                 modules := Table.put s.base { (s.moduleAt s.base).granted with device := t.2.1 } s.modules } := by
    refine ⟨_, rfl, ?_⟩
    simp only [State.readSample, State.live_of_running h.running, if_neg hg]
    rfl
  have hmod : (State.readSample s).modules =
      Table.put s.base { (s.moduleAt s.base).granted with device := t.2.1 } s.modules := by rw [e]; rfl
  constructor
  · constructor
    · refine ⟨⟨by rw [e]; rfl, by rw [e]; simp [State.emit, h.1.2]⟩, ?_⟩
      rw [readSample_base, moduleAt_of_put hmod, if_pos rfl]
      simp [Module.granted, h.2]
    · exact ⟨by rw [e]; rfl, by simp [Event.base]⟩
    · simp [Trace.lastData]
    · rw [moduleAt_of_put hmod, if_pos rfl]; rfl
    · exact ⟨by simp, by simp, by simp, by simp, by simp, by simp, by rw [e]; simp [State.emit, h.1.2]⟩
    · exact fun b hb => by rw [moduleAt_of_put hmod, if_neg hb]
    · simp
    · simp
    · simp
    · simp
    · simp
  · rw [e]; rfl

/-! ### Micro-sequences, not disturbed -/

/-- A write and its delay. -/
def Trace.written (b : Nat) (v : Half) : List Event := [.w b v, .d b]

theorem writeDelay_performs (v : Half) {s : State} (h : s.ready) :
    s.Performs (State.writeDelay v s) (Trace.written s.base v) := by
  have h1 := lineWrite_performs v h
  have h2 := delay_performs h1.ready
  rw [h1.base] at h2
  exact h1.trans h2

theorem writeDelay_twice (v w : Half) {s : State} (h : s.ready) :
    s.Performs (State.writeDelay w (State.writeDelay v s)) (Trace.written s.base v ++ Trace.written s.base w) := by
  have h1 := writeDelay_performs v h
  have h2 := writeDelay_performs w h1.ready
  rw [h1.base] at h2
  exact h1.trans h2

/-- `BitClk(dbs, last)` (R144): its three writes with their delays, then one read whose bit 3 is left in `SAMPLE`. -/
theorem bitClk_performs (dbs last : Bool) {s : State} (h : s.ready) :
    ∃ v, s.Performs (State.bitClk dbs last s)
        (Trace.written s.base (Frame.low last) ++ Trace.written s.base (Frame.low dbs)
          ++ Trace.written s.base (Frame.high dbs) ++ [.r s.base v])
      ∧ (State.bitClk dbs last s).sample = v.getLsbD 3 := by
  have h1 := writeDelay_twice (Frame.low last) (Frame.low dbs) h
  have h2 := writeDelay_performs (Frame.high dbs) h1.ready
  rw [h1.base] at h2
  have h3 := h1.trans h2
  obtain ⟨h4, h5⟩ := readSample_performs h3.ready
  rw [h3.base] at h4
  have h6 := h3.trans h4
  rw [← clockLow_eq, ← clockLow_eq, ← clockHigh_eq] at h5 h6 ⊢
  exact ⟨_, h6, h5⟩

theorem selectSeq_performs {s : State} (h : s.ready) :
    s.Performs (State.selectSeq s) (Trace.written s.base 0x0000#16 ++ Trace.written s.base 0x0038#16) :=
  writeDelay_twice _ _ h

theorem deselectSeq_performs {s : State} (h : s.ready) : s.Performs (State.deselectSeq s) (Trace.written s.base 0x0000#16) :=
  writeDelay_performs _ h

theorem startSeq_performs {s : State} (h : s.ready) :
    s.Performs (State.startSeq s)
      (Trace.written s.base (Frame.low s.lastd) ++ Trace.written s.base 0x0028#16
        ++ (Trace.written s.base 0x0038#16 ++ Trace.written s.base 0x0030#16)) := by
  have h1 := writeDelay_twice (Frame.low s.lastd) 0x0028#16 h
  have h2 := writeDelay_twice 0x0038#16 0x0030#16 h1.ready
  rw [h1.base] at h2
  simpa only [State.startSeq, clockLow_eq] using h1.trans h2

theorem stopSeq_performs {s : State} (h : s.ready) :
    s.Performs (State.stopSeq s)
      (Trace.written s.base (Frame.low s.lastd) ++ Trace.written s.base 0x0020#16
        ++ (Trace.written s.base 0x0030#16 ++ Trace.written s.base 0x0038#16)) := by
  have h1 := writeDelay_twice (Frame.low s.lastd) 0x0020#16 h
  have h2 := writeDelay_twice 0x0030#16 0x0038#16 h1.ready
  rw [h1.base] at h2
  simpa only [State.stopSeq, clockLow_eq] using h1.trans h2

end Sys2Proof.Machine
end

