-- ==== Sys2Proof/Laws/Bytes.lean ====
section
/-! SUPPORT. The byte micro-sequences, not disturbed: what `SendByte` and `RecvByte` perform (R150, R152), and the acknowledge and
framing micro-sequences in terms of the frame on the line. -/

namespace Sys2Proof.Machine

/-! ### Items, reads and samples of joined events -/

@[simp] theorem items_append (e f : List Event) : Trace.items (e ++ f) = Trace.items e ++ Trace.items f := by
  simp [Trace.items]

@[simp] theorem items_nil : Trace.items [] = [] := rfl

@[simp] theorem items_written (b : Nat) (v : Half) : Trace.items (Trace.written b v) = [.w v, .d] := rfl

@[simp] theorem samples_append (e f : List Event) : Trace.samples (e ++ f) = Trace.samples e ++ Trace.samples f := by
  simp [Trace.samples, Trace.reads]

@[simp] theorem samples_nil : Trace.samples [] = [] := rfl

@[simp] theorem samples_written (b : Nat) (v : Half) : Trace.samples (Trace.written b v) = [] := rfl

@[simp] theorem lastData_written (d : Bool) (b : Nat) (v : Half) : Trace.lastData d (Trace.written b v) = v.getLsbD 3 := rfl

@[simp] theorem lastLine_written (l : Half) (b : Nat) (v : Half) : Trace.lastLine l (Trace.written b v) = v := rfl

/-! ### One bit -/

/-- A bit clock, in terms of the frame: what a stage that samples once performs (R144). -/
structure State.Clocks (s t : State) (dbs last : Bool) (evs : List Event) : Prop where
  performs : s.Performs t evs
  items : Trace.items evs = Frame.bit dbs last
  samples : Trace.samples evs = [t.sample]
  lastd : t.lastd = dbs
  line : (t.moduleAt s.base).line = Frame.high dbs
  acc : t.acc = s.acc
  rdack : t.rdack = s.rdack
  bitcnt : t.bitcnt = s.bitcnt

@[simp] theorem writeDelay_acc (v : Half) (s : State) : (State.writeDelay v s).acc = s.acc := by simp [State.writeDelay]

@[simp] theorem writeDelay_rdack (v : Half) (s : State) : (State.writeDelay v s).rdack = s.rdack := by
  simp [State.writeDelay]

@[simp] theorem writeDelay_bitcnt (v : Half) (s : State) : (State.writeDelay v s).bitcnt = s.bitcnt := by
  simp [State.writeDelay]

@[simp] theorem writeDelay_sample (v : Half) (s : State) : (State.writeDelay v s).sample = s.sample := by
  simp [State.writeDelay]

theorem bitClk_clocks (dbs last : Bool) {s : State} (h : s.ready) :
    ∃ evs, s.Clocks (State.bitClk dbs last s) dbs last evs := by
  obtain ⟨v, hp, hs⟩ := bitClk_performs dbs last h
  refine ⟨_, hp, ?_, ?_, ?_, ?_, ?_, ?_, ?_⟩
  · simp [Frame.bit, Frame.writes, Trace.items, Trace.written, Event.item]
  · rw [hs]; rfl
  · rw [hp.lastd, Trace.lastData_append, Trace.lastData_append, lastData_written, high_data]; rfl
  · rw [hp.line]; simp [Trace.lastLine_append, Trace.lastLine]
  · simp [State.bitClk]
  · simp [State.bitClk]
  · simp [State.bitClk]

/-! ### Sending a byte -/

/-- The bits of `b` that are left when `n` are to come. -/
def Frame.restBits (b : Byte) (n : Nat) : List Bool := (Frame.msbFirst b).drop (8 - n)

theorem Frame.restBits_succ (b : Byte) {n : Nat} (h : n < 8) :
    Frame.restBits b (n + 1) = Operand.msbFirst b (7 - n) :: Frame.restBits b n := by
  interval_cases n <;> rfl

@[simp] theorem countBit_eq (s : State) : s.countBit = State.setBitcnt (s.bitcnt + 1#4) s := rfl

theorem setBitcnt_of_running {s : State} (h : s.blocked = false) (v : BitVec 4) : (State.setBitcnt v s).bitcnt = v := by
  simp [State.setBitcnt, State.live, h]

theorem shiftAcc_of_running {s : State} (h : s.blocked = false) :
    s.shiftAcc.acc = s.acc.extractLsb' 0 15 ++ BitVec.ofBool s.sample := by
  simp [State.shiftAcc, State.live, h]

theorem setAcc_of_running {s : State} (h : s.blocked = false) (v : Half) : (State.setAcc v s).acc = v := by
  simp [State.setAcc, State.live, h]

/-- What sending bits performs: the bit clocks of the frame, a sample for each, `BITCNT` at the end of the byte. -/
structure State.Sends (s t : State) (bits : List Bool) (evs : List Event) : Prop where
  performs : s.Performs t evs
  items : Trace.items evs = Frame.bits s.lastd bits
  samples : (Trace.samples evs).length = bits.length
  lastd : t.lastd = bits.getLastD s.lastd
  acc : t.acc = s.acc
  rdack : t.rdack = s.rdack

theorem sendBits_sends (b : Byte) (n : Nat) {s : State} (h : s.ready) (hn : n ≤ 8) (hc : s.bitcnt.toNat = 8 - n) :
    ∃ evs, s.Sends (State.sendBits b n s) (Frame.restBits b n) evs ∧ (State.sendBits b n s).bitcnt = 8#4 := by
  induction n generalizing s with
  | zero =>
    refine ⟨[], ⟨State.Performs.refl h, ?_, ?_, ?_, rfl, rfl⟩, ?_⟩
    · simp [Frame.restBits, Frame.msbFirst, Frame.bits]
    · simp [Frame.restBits, Frame.msbFirst]
    · simp [Frame.restBits, Frame.msbFirst, State.sendBits]
    · exact BitVec.eq_of_toNat_eq (by simpa [State.sendBits] using hc)
  | succ n ih =>
    obtain ⟨e1, h1⟩ := bitClk_clocks (Operand.msbFirst b s.bitcnt.toNat) s.lastd h
    have h2 := countBit_performs h1.performs.ready
    have hb : (State.countBit (State.bitClk (Operand.msbFirst b s.bitcnt.toNat) s.lastd s)).bitcnt.toNat = 8 - n := by
      rw [countBit_eq, setBitcnt_of_running h1.performs.ready.running, h1.bitcnt, BitVec.toNat_add, hc]
      simp
      omega
    obtain ⟨e3, h3, hc3⟩ := ih h2.ready (by omega) hb
    have hbit : Operand.msbFirst b s.bitcnt.toNat = Operand.msbFirst b (7 - n) := by rw [hc]; congr 1; omega
    rw [Frame.restBits_succ b (by omega), ← hbit]
    refine ⟨e1 ++ [] ++ e3, ⟨(h1.performs.trans h2).trans h3.performs, ?_, ?_, ?_, ?_, ?_⟩, hc3⟩
    · simp only [items_append, h1.items, h3.items, Frame.bits]
      simp [h1.lastd]
    · simp [h1.samples, h3.samples]
    · have := h3.lastd
      simp only [countBit_eq, setBitcnt_lastd, h1.lastd] at this
      rw [State.sendBits, countBit_eq, this, List.getLastD_cons]
    · have := h3.acc
      simp only [countBit_eq, setBitcnt_acc, h1.acc] at this
      exact this
    · have := h3.rdack
      simp only [countBit_eq, setBitcnt_rdack, h1.rdack] at this
      exact this

/-- `SendByte(b)` (R150): the eight bit clocks of the byte, most significant bit first. -/
theorem sendByte_sends (b : Byte) {s : State} (h : s.ready) :
    ∃ evs, s.Sends (State.sendByte b s) (Frame.msbFirst b) evs ∧ (State.sendByte b s).bitcnt = 8#4 := by
  have h1 := setBitcnt_performs 0#4 h
  obtain ⟨e, h2, hc⟩ := sendBits_sends b 8 h1.ready (le_refl 8) (by rw [setBitcnt_of_running h.running]; rfl)
  refine ⟨[] ++ e, ⟨h1.trans h2.performs, ?_, h2.samples, ?_, ?_, ?_⟩, hc⟩
  · simpa [Frame.restBits] using h2.items
  · simpa [Frame.restBits, State.sendByte] using h2.lastd
  · simpa [State.sendByte] using h2.acc
  · simpa [State.sendByte] using h2.rdack

/-! ### Receiving a byte -/

/-- Samples shifted into the accumulator one after another (R31, R186). -/
def Frame.shiftIn (acc : Half) (bs : List Bool) : Half := bs.foldl (fun a b => a.extractLsb' 0 15 ++ BitVec.ofBool b) acc

/-- What receiving bits performs: bit clocks with the line released, the samples shifted into `ACC`. -/
structure State.Receives (s t : State) (n : Nat) (evs : List Event) : Prop where
  performs : s.Performs t evs
  items : Trace.items evs = Frame.bits s.lastd (List.replicate n true)
  samples : (Trace.samples evs).length = n
  lastd : t.lastd = (List.replicate n true).getLastD s.lastd
  acc : t.acc = Frame.shiftIn s.acc (Trace.samples evs)
  rdack : t.rdack = s.rdack

theorem recvBits_receives (n : Nat) {s : State} (h : s.ready) (hn : n ≤ 8) (hc : s.bitcnt.toNat = 8 - n) :
    ∃ evs, s.Receives (State.recvBits n s) n evs ∧ (State.recvBits n s).bitcnt = 8#4 := by
  induction n generalizing s with
  | zero =>
    exact ⟨[], ⟨State.Performs.refl h, rfl, rfl, rfl, rfl, rfl⟩, BitVec.eq_of_toNat_eq (by simpa [State.recvBits] using hc)⟩
  | succ n ih =>
    obtain ⟨e1, h1⟩ := bitClk_clocks true s.lastd h
    have h2 := shiftAcc_performs h1.performs.ready
    have h3 := countBit_performs h2.ready
    have hb : (State.countBit (State.shiftAcc (State.bitClk true s.lastd s))).bitcnt.toNat = 8 - n := by
      rw [countBit_eq, setBitcnt_of_running h2.ready.running, shiftAcc_bitcnt, h1.bitcnt, BitVec.toNat_add, hc]
      simp
      omega
    obtain ⟨e4, h4, hc4⟩ := ih h3.ready (by omega) hb
    refine ⟨e1 ++ [] ++ [] ++ e4, ⟨((h1.performs.trans h2).trans h3).trans h4.performs, ?_, ?_, ?_, ?_, ?_⟩, hc4⟩
    · simp only [items_append, h1.items, h4.items, List.replicate_succ, Frame.bits]
      simp [h1.lastd]
    · simp [h1.samples, h4.samples]
    · have := h4.lastd
      simp only [countBit_eq, setBitcnt_lastd, shiftAcc_lastd, h1.lastd] at this
      rw [State.recvBits, countBit_eq, this, List.replicate_succ, List.getLastD_cons]
    · have := h4.acc
      rw [State.recvBits, this]
      simp [Frame.shiftIn, h1.samples, shiftAcc_of_running h1.performs.ready.running, h1.acc]
    · have := h4.rdack
      simp only [countBit_eq, setBitcnt_rdack, shiftAcc_rdack, h1.rdack] at this
      exact this

/-- `RecvByte()` (R152). -/
theorem recvByte_receives {s : State} (h : s.ready) :
    ∃ evs, s.Receives (State.recvByte s) 8 evs ∧ (State.recvByte s).bitcnt = 8#4 := by
  have h1 := setBitcnt_performs 0#4 h
  obtain ⟨e, h2, hc⟩ := recvBits_receives 8 h1.ready (le_refl 8) (by rw [setBitcnt_of_running h.running]; rfl)
  refine ⟨[] ++ e, ⟨h1.trans h2.performs, ?_, h2.samples, ?_, ?_, ?_⟩, hc⟩
  · simpa using h2.items
  · simpa [State.recvByte] using h2.lastd
  · simpa [State.recvByte] using h2.acc
  · simpa [State.recvByte] using h2.rdack

end Sys2Proof.Machine
end

