-- ==== Sys2Proof/Laws/PerInstr.lean ====
section
/-! SUPPORT. Statements made for every instruction, one lemma per constructor. Family `Canonical`: the encoder writes every reserved
and unused field as zero (R103, R115) and only known EEPROM instruction codes (R108). -/

namespace Sys2Proof.Laws

/-- `OP` of a command word built from its fields (R103). -/
theorem op_cmd (op : BitVec 4) (a : Byte) (d : Half) : (op ++ 0#4 ++ a ++ d).extractLsb' 28 4 = op := by
  apply BitVec.eq_of_getLsbD_eq
  intro i hi
  simp only [BitVec.getLsbD_extractLsb', BitVec.getLsbD_append, hi, decide_true, Bool.true_and]
  rw [if_neg (by omega), if_neg (by omega), if_neg (by omega), show 28 + i - 16 - 8 - 4 = i by omega]

/-- A command word whose fields lie within the bits its command uses is well-formed. -/
theorem cmd_wellFormed {op : BitVec 4} {a : Byte} {d : Half}
    (h : ∀ i : Fin 32, (op ++ 0#4 ++ a ++ d).getLsbD i = true → (WellFormed.usedBits op).getLsbD i = true) :
    Code.wellFormed (Encode.cmd op a d) = true := by
  simp only [Code.wellFormed, Encode.cmd, op_cmd, beq_iff_eq]
  apply BitVec.eq_of_getLsbD_eq
  intro i hi
  have := h ⟨i, hi⟩
  simp only [BitVec.getLsbD_and, BitVec.getLsbD_not, BitVec.getLsbD_zero, hi, decide_true, Bool.true_and]
  revert this
  cases BitVec.getLsbD (op ++ 0#4 ++ a ++ d) i <;> simp

/-- The encoding of an instruction is well-formed. -/
def Canonical.Statement (i : Instr) : Prop := Code.wellFormed (encode i) = true

theorem Canonical.delay : Canonical.Statement .delay := rfl
theorem Canonical.bitclk (dbs lastdbs : Bool) : Canonical.Statement (.bitclk dbs lastdbs) := by
  cases dbs <;> cases lastdbs <;> rfl
theorem Canonical.select : Canonical.Statement .select := rfl
theorem Canonical.deselect : Canonical.Statement .deselect := rfl
theorem Canonical.start : Canonical.Statement .start := rfl
theorem Canonical.stop : Canonical.Statement .stop := rfl
theorem Canonical.sendop (code : Byte) : Canonical.Statement (.sendop code) :=
  cmd_wellFormed fun i => by
    simp only [BitVec.getLsbD_append]
    fin_cases i <;> simp [WellFormed.usedBits]
theorem Canonical.rdword (index : Index) : Canonical.Statement (.rdword index) :=
  cmd_wellFormed fun i => by
    simp only [Encode.index, BitVec.getLsbD_append]
    fin_cases i <;> simp [WellFormed.usedBits]
theorem Canonical.wrword (index : Index) (data : Half) : Canonical.Statement (.wrword index data) :=
  cmd_wellFormed fun i => by
    simp only [Encode.index, BitVec.getLsbD_append]
    fin_cases i <;> simp [WellFormed.usedBits]
theorem Canonical.rdall : Canonical.Statement .rdall := rfl
theorem Canonical.wrall : Canonical.Statement .wrall := rfl
theorem Canonical.bufrd (index : Index) : Canonical.Statement (.bufrd index) :=
  cmd_wellFormed fun i => by
    simp only [Encode.index, BitVec.getLsbD_append]
    fin_cases i <;> simp [WellFormed.usedBits]
theorem Canonical.bufwr (index : Index) (data : Half) : Canonical.Statement (.bufwr index data) :=
  cmd_wellFormed fun i => by
    simp only [Encode.index, BitVec.getLsbD_append]
    fin_cases i <;> simp [WellFormed.usedBits]
theorem Canonical.reserved0 : Canonical.Statement .reserved0 := rfl
theorem Canonical.reservedE : Canonical.Statement .reservedE := rfl
theorem Canonical.reservedF : Canonical.Statement .reservedF := rfl
theorem Canonical.eeWrite : Canonical.Statement .eeWrite := rfl
theorem Canonical.eeRead : Canonical.Statement .eeRead := rfl

end Sys2Proof.Laws
end

