-- ==== Sys2Proof/Tests/Slice0.lean ====
section
/-! SUPPORT. Tests on small states: ill-formed codes refused, every constructor's word decoded, the spec's vectors (95_test_vectors.md) on
single steps, and for each obligation with hypotheses a state and operands that meet them together. -/

namespace Sys2Proof.Tests

open Sys2Proof Sys2Proof.Machine

/-! ### Helpers -/

/-- A build with numbers in place of the OPEN parameters: one delay is one cycle of one microsecond. -/
def build : Params :=
  { regOffset := 0x10, addrW := 32, swap := false, delayCycles := 1, tClkPs := 1000000, ack1Cleanup := false }

/-- An idle machine just after reset with the latched base address 7 and a target there. -/
def machine (d : Device) : State :=
  { State.reset with par := build, base := 7, modules := [(7, { line := 0#16, device := d, grants := none })] }

/-- The reference responder as a device. -/
def eeprom (mem : List Host.Cell) (acksLeft : Option Nat) : Device := .responder (Responder.fresh mem acksLeft)

/-- The state after an instruction; the state before it where there is none. -/
def after (i : Instr) (s : State) : State :=
  match exec i s with
  | .next t => t
  | .fault _ => s
  | .refused _ => s

/-- The events of an instruction from a state whose trace is empty, oldest first. -/
def events (i : Instr) (s : State) : List Event := (after i s).trace.reverse

/-- The reference responder's memory behind base address 7. -/
def memory (s : State) : List Host.Cell :=
  match (s.moduleAt 7).device with
  | .responder r => r.mem
  | .oracle _ => []
  | .absent => []
  | .stuckLow => []

/-! ### WellFormed: what it accepts, and an ill-formed code for each field it checks (R103, R104, R115, R108) -/

theorem test_wellFormed_accepts : Code.wellFormed (.cmd 0x907FFFFF#32) = true ∧ Code.wellFormed (.eeop 0xAE#8) = true := by decide
theorem test_illFormed_reserved_nibble : Code.wellFormed (.cmd 0x91051234#32) = false := by decide
theorem test_illFormed_index_top_bit : Code.wellFormed (.cmd 0x80850000#32) = false := by decide
theorem test_illFormed_index_data : Code.wellFormed (.cmd 0x80050001#32) = false := by decide
theorem test_illFormed_bitclk_upper : Code.wellFormed (.cmd 0x20040000#32) = false := by decide
theorem test_illFormed_sendop_data : Code.wellFormed (.cmd 0x70AF0001#32) = false := by decide
theorem test_illFormed_unused_a : Code.wellFormed (.cmd 0x30010000#32) = false := by decide
theorem test_illFormed_bufwr_top_bit : Code.wellFormed (.cmd 0xD0830000#32) = false := by decide
theorem test_illFormed_bufrd_data : Code.wellFormed (.cmd 0xC0038000#32) = false := by decide
theorem test_illFormed_reserved_code : Code.wellFormed (.cmd 0xE0051234#32) = false := by decide
theorem test_illFormed_eeprom_code : Code.wellFormed (.eeop 0xAD#8) = false := by decide

/-! ### Decoding: a word written out for every constructor (R103 to R105, R108, R114; words of 95_test_vectors.md) -/

theorem test_decode_delay : decode (.cmd 0x10000000#32) = .ok .delay := by rfl
theorem test_decode_bitclk_last : decode (.cmd 0x20020000#32) = .ok (.bitclk false true) := by rfl
theorem test_decode_bitclk_bit : decode (.cmd 0x20010000#32) = .ok (.bitclk true false) := by rfl
theorem test_decode_select : decode (.cmd 0x30000000#32) = .ok .select := by rfl
theorem test_decode_select_ignores : decode (.cmd 0x3FFFFFFF#32) = .ok .select := by rfl
theorem test_decode_deselect : decode (.cmd 0x40000000#32) = .ok .deselect := by rfl
theorem test_decode_start : decode (.cmd 0x50000000#32) = .ok .start := by rfl
theorem test_decode_stop : decode (.cmd 0x60000000#32) = .ok .stop := by rfl
theorem test_decode_sendop : decode (.cmd 0x70AF0000#32) = .ok (.sendop 0xAF#8) := by rfl
/-- `OP` 1000, reserved 0000, `A[7]` ignored, index 0000101, data unused. -/
theorem test_decode_rdword : decode (.cmd 0b10000000100001010000000000000000#32) = .ok (.rdword 5#7) := by rfl
/-- `OP` 1001, reserved 0000, `A[7]` 0, index 0000101, data `0x1234`. -/
theorem test_decode_wrword : decode (.cmd 0b10010000000001010001001000110100#32) = .ok (.wrword 5#7 0x1234#16) := by rfl
theorem test_decode_wrword_top : decode (.cmd 0x907F8001#32) = .ok (.wrword 127#7 0x8001#16) := by rfl
theorem test_decode_rdall : decode (.cmd 0xA0000000#32) = .ok .rdall := by rfl
theorem test_decode_wrall : decode (.cmd 0xB0000000#32) = .ok .wrall := by rfl
theorem test_decode_bufrd : decode (.cmd 0xC07F0000#32) = .ok (.bufrd 127#7) := by rfl
theorem test_decode_bufwr : decode (.cmd 0xD003BEEF#32) = .ok (.bufwr 3#7 0xBEEF#16) := by rfl
theorem test_decode_reserved0 : decode (.cmd 0x00000000#32) = .ok .reserved0 := by rfl
theorem test_decode_reservedE : decode (.cmd 0xE0051234#32) = .ok .reservedE := by rfl
theorem test_decode_reservedF : decode (.cmd 0xFFFFFFFF#32) = .ok .reservedF := by rfl
/-- The EEPROM instruction code 10101111. -/
theorem test_decode_eeWrite : decode (.eeop 0b10101111#8) = .ok .eeWrite := by rfl
/-- The EEPROM instruction code 10101110. -/
theorem test_decode_eeRead : decode (.eeop 0b10101110#8) = .ok .eeRead := by rfl
theorem test_decode_eeop_other : decode (.eeop 0xA0#8) = .error (.unknownEepromCode 0xA0#8) := by rfl
theorem test_table_word : decodeTableWord 32 0x90051234 = some (.wrword 5#7 0x1234#16) ∧ decodeTableWord 8 0xAF = some .eeWrite := by
  decide
theorem test_encode_wrword : encode (.wrword 5#7 0x1234#16) = .cmd 0x90051234#32 := by decide
theorem test_encode_bitclk : encode (.bitclk false true) = .cmd 0x20020000#32 := by decide

/-! ### Addresses, bytes, byte order (V16, V28) -/

theorem test_address_bytes : Operand.addrByte 5#7 = 0x0A#8 ∧ Operand.addrByte 127#7 = 0xFE#8 := by decide
theorem test_data_bytes : Operand.hiByte 0x1234#16 = 0x12#8 ∧ Operand.loByte 0x1234#16 = 0x34#8 := by decide
theorem test_swap : Operand.marshal { build with swap := true } 0x0038#16 = 0x3800#16 := by decide
theorem test_address_wraps : Operand.effAddr build 0xFFFFFFF8 = 8 := by decide

/-! ### Primitives (V1 to V15, V27) -/

/-- V2 against the answer `0x0008`: only bit 3 counts. -/
theorem test_bitclk_V2 :
    (events (.bitclk false true) (machine (.oracle [0x0008#16]))) =
      [.w 7 0x28#16, .d 7, .w 7 0x20#16, .d 7, .w 7 0x30#16, .d 7, .r 7 0x0008#16] ∧
    (after (.bitclk false true) (machine (.oracle [0x0008#16]))).rsp = 1#32 := by decide +kernel

/-- V4 against the answer `0xFFF7`, whose bit 3 is 0. -/
theorem test_bitclk_V4 :
    Trace.writes (events (.bitclk true true) (machine (.oracle [0xFFF7#16]))) = [0x28#16, 0x28#16, 0x38#16] ∧
    (after (.bitclk true true) (machine (.oracle [0xFFF7#16]))).rsp = 0#32 ∧
    (after (.bitclk true true) (machine (.oracle [0xFFF7#16]))).lastd = true := by decide +kernel

/-- V28b: with bytes exchanged, bit 11 of `m_rdata` gives the sample. -/
theorem test_bitclk_V28 :
    (after (.bitclk true true) { machine (.oracle [0x0800#16]) with par := { build with swap := true } }).sample = true := by
  decide +kernel

theorem test_delay_V5 :
    events .delay (machine .absent) = [.d 7] ∧ (after .delay (machine .absent)).rsp = 0#32 := by decide +kernel
theorem test_select_V6 :
    events .select (machine .absent) = [.w 7 0#16, .d 7, .w 7 0x38#16, .d 7] ∧ (after .select (machine .absent)).lastd = true := by
  decide +kernel
theorem test_deselect_V7 :
    events .deselect { machine .absent with lastd := true } = [.w 7 0#16, .d 7] ∧
    (after .deselect { machine .absent with lastd := true }).lastd = false := by decide +kernel
theorem test_start_V12 :
    Trace.writes (events .start { machine .absent with lastd := true }) = [0x28#16, 0x28#16, 0x38#16, 0x30#16] := by decide +kernel
theorem test_start_V13 : Trace.writes (events .start (machine .absent)) = [0x20#16, 0x28#16, 0x38#16, 0x30#16] := by decide +kernel
theorem test_stop_V14 :
    Trace.writes (events .stop { machine .absent with lastd := true }) = [0x28#16, 0x20#16, 0x30#16, 0x38#16] := by decide +kernel
theorem test_stop_V15 : Trace.writes (events .stop (machine .absent)) = [0x20#16, 0x20#16, 0x30#16, 0x38#16] := by decide +kernel

/-- V9. -/
theorem test_sendop_V9 :
    Trace.writes (events (.sendop 0xAF#8) (machine .absent)) =
      [0x20#16, 0x28#16, 0x38#16, 0x28#16, 0x20#16, 0x30#16, 0x20#16, 0x28#16, 0x38#16, 0x28#16, 0x20#16, 0x30#16,
       0x20#16, 0x28#16, 0x38#16, 0x28#16, 0x28#16, 0x38#16, 0x28#16, 0x28#16, 0x38#16, 0x28#16, 0x28#16, 0x38#16] ∧
    Trace.samples (events (.sendop 0xAF#8) (machine .absent)) = [true, false, true, false, true, true, true, true] := by
  decide +kernel

/-- V11: the first bit clock holds the 1 that was on the line. -/
theorem test_sendop_V11 :
    (Trace.writes (events (.sendop 0x00#8) { machine .absent with lastd := true })).take 6 =
      [0x28#16, 0x20#16, 0x30#16, 0x20#16, 0x20#16, 0x30#16] := by decide +kernel

/-- The EEPROM instruction codes send their own byte: the last bit clocks of V9 and V10. -/
theorem test_eeWrite_V9 :
    (Trace.writes (events .eeWrite (machine .absent))).drop 21 = [0x28#16, 0x28#16, 0x38#16] := by decide +kernel
theorem test_eeRead_V10 :
    (Trace.writes (events .eeRead (machine .absent))).drop 21 = [0x28#16, 0x20#16, 0x30#16] := by decide +kernel

theorem test_reserved0_V27 : (after .reserved0 (machine .absent)).rsp = 0x000F0000#32 := by decide +kernel
theorem test_reservedE_V27 : (after .reservedE (machine .absent)).rsp = 0x000F0000#32 := by decide +kernel
theorem test_reservedF_V27 : (events .reservedF (machine .absent)) = [] := by decide +kernel

/-! ### Word operations (V17, V18, V20 to V25) -/

/-- V17. -/
theorem test_wrword_V17 :
    (after (.wrword 5#7 0x1234#16) (machine (eeprom [] none))).rsp = 0#32 ∧
    memory (after (.wrword 5#7 0x1234#16) (machine (eeprom [] none))) = [(10, 0x12#8), (11, 0x34#8)] ∧
    (Trace.writes (events (.wrword 5#7 0x1234#16) (machine (eeprom [] none)))).length = 119 := by decide +kernel

/-- V20 and V22: no acknowledge at checkpoint 1, and at checkpoint 2. -/
theorem test_wrword_V20_V22 :
    (after (.wrword 5#7 0x1234#16) (machine (eeprom [] (some 0)))).rsp = 0x00010000#32 ∧
    (Trace.writes (events (.wrword 5#7 0x1234#16) (machine (eeprom [] (some 0))))).drop 30 = [0x28#16, 0x28#16, 0x38#16] ∧
    (after (.wrword 5#7 0x1234#16) (machine (eeprom [] (some 1)))).rsp = 0x00020000#32 ∧
    (Trace.writes (events (.wrword 5#7 0x1234#16) (machine (eeprom [] (some 1))))).drop 57 =
      [0x20#16, 0x28#16, 0x38#16, 0x28#16, 0x20#16, 0x30#16, 0x38#16, 0x00#16] := by decide +kernel

/-- V18. -/
theorem test_rdword_V18 :
    (after (.rdword 5#7) (machine (eeprom [(10, 0x12#8), (11, 0x34#8)] none))).rsp = 0x00001234#32 ∧
    (Trace.writes (events (.rdword 5#7) (machine (eeprom [(10, 0x12#8), (11, 0x34#8)] none)))).length = 150 := by decide +kernel

/-- V25. -/
theorem test_rdword_V25 : (after (.rdword 5#7) (machine .absent)).rsp = 0x0070FFFF#32 := by decide +kernel

/-! ### Bulk operations and buffer (V30, V31, V33 to V35) -/

/-- V30. -/
theorem test_wrall_V30 :
    (after .wrall { machine .absent with buf := [(0, 0x1000#16)] }).rsp = 0x00010001#32 ∧
    ((after .wrall { machine .absent with buf := [(0, 0x1000#16)] }).moduleAt 7).line = 0x0038#16 := by decide +kernel

/-- V29, its last word alone: word 3 fails at checkpoint 2 with words 0 to 2 written. -/
theorem test_wrall_V29 :
    (match State.wrallWords 125 { machine (eeprom [] (some 1)) with widx := 3#8, buf := [(3, 0x1003#16)] } with
      | t => t.rsp = 0x00010302#32 ∧ t.widx = 3#8) := by decide +kernel

/-- V31, one word of it. -/
theorem test_rdall_V31 :
    (State.rdallWord { machine .absent with widx := 5#8 }).buf = [(5, 0xFFFF#16)] ∧
    (State.rdallWord { machine .absent with widx := 5#8 }).widx = 6#8 ∧
    (State.rdallWord { machine .absent with widx := 5#8 }).rdack = 7#3 := by decide +kernel

/-- V33. -/
theorem test_bufwr_V33 : (after (.bufwr 3#7 0xBEEF#16) (machine .absent)).buf = [(3, 0xBEEF#16)] := by decide +kernel

/-- V34. -/
theorem test_bufrd_V34 : (after (.bufrd 3#7) { machine .absent with buf := [(3, 0xBEEF#16)] }).rsp = 0x0000BEEF#32 := by
  decide +kernel

/-- V35: the value is free; the status is not. -/
theorem test_bufrd_V35 : (after (.bufrd 4#7) (machine .absent)).busy = false ∧ (after (.bufrd 4#7) (machine .absent)).draws = 1 :=
  ⟨rfl, rfl⟩

/-! ### Steps -/

/-- A machine to which one code is presented, for base address 7. -/
def presented (c : Code) : State := { machine .absent with script := [{ code := c, base := 7 }] }

theorem test_step_select :
    ∃ t, step (presented (.cmd 0x30000000#32)) = .next t ∧ t.op = 3#4 ∧ t.script = [] ∧ t.lastd = true ∧ t.busy = false :=
  ⟨_, rfl, rfl, rfl, rfl, rfl⟩

/-- Of a presented base address the port carries `ADDR_W` bits, here 32 (R103). -/
theorem test_step_base :
    ∃ t, step { machine .absent with script := [{ code := .cmd 0x30000000#32, base := 0x100000007 }] } = .next t ∧ t.base = 7 ∧
      (t.moduleAt 7).line = 0x0038#16 := ⟨_, rfl, rfl, rfl⟩

/-- The host's placement: the very next step from reset runs the instruction. -/
theorem test_fetch_delay :
    ∃ t, step (State.reset.withFetchWord 32 0x10000000) = .next t ∧ t.trace = [.d 0] ∧ t.op = 1#4 := ⟨_, rfl, rfl, rfl⟩

/-! ### Witnesses: the hypotheses of each obligation, met together -/

/-- A reset machine with its target ready. -/
theorem machine_ready (d : Device) : (machine d).ready := ⟨⟨rfl, rfl⟩, rfl⟩

/-- A machine in the middle of a `SELECT`. -/
def running : State := State.begin .select (machine .absent)

/-- A machine whose target acknowledges nothing. -/
def deaf : State := { machine .absent with modules := [(7, { line := 0#16, device := .absent, grants := some 0 })] }

theorem test_witness_EncodeOfDecode :
    (Code.wellFormed (.cmd 0x907FFFFF#32) = true ∧ decode (.cmd 0x907FFFFF#32) = .ok (.wrword 127#7 0xFFFF#16)) ∧
    (Code.wellFormed (.eeop 0xAE#8) = true ∧ decode (.eeop 0xAE#8) = .ok .eeRead) := ⟨⟨by decide, rfl⟩, by decide, rfl⟩

theorem test_witness_CommandCodesAsTabled :
    0x1FFFFFFF#32 &&& 0xF0000000#32 = 0x10000000#32 ∧ 0x20030000#32 &&& 0xF0000000#32 = 0x20000000#32 ∧
    0x30000000#32 &&& 0xF0000000#32 = 0x30000000#32 ∧ 0x40000000#32 &&& 0xF0000000#32 = 0x40000000#32 ∧
    0x50000000#32 &&& 0xF0000000#32 = 0x50000000#32 ∧ 0x60000000#32 &&& 0xF0000000#32 = 0x60000000#32 ∧
    0x70FF0000#32 &&& 0xF0000000#32 = 0x70000000#32 ∧ 0x80FF0000#32 &&& 0xF0000000#32 = 0x80000000#32 ∧
    0x90FFFFFF#32 &&& 0xF0000000#32 = 0x90000000#32 ∧ 0xA0000000#32 &&& 0xF0000000#32 = 0xA0000000#32 ∧
    0xB0000000#32 &&& 0xF0000000#32 = 0xB0000000#32 ∧ 0xC0FF0000#32 &&& 0xF0000000#32 = 0xC0000000#32 ∧
    0xD0FFFFFF#32 &&& 0xF0000000#32 = 0xD0000000#32 ∧ 0x0FFFFFFF#32 &&& 0xF0000000#32 = 0x00000000#32 ∧
    0xE0000000#32 &&& 0xF0000000#32 = 0xE0000000#32 ∧ 0xFFFFFFFF#32 &&& 0xF0000000#32 = 0xF0000000#32 := by decide

/-- `SELECT` with unused bits set and clear, and `RDWORD 5` with `A[7]` set and clear (V27d, V16). -/
theorem test_witness_UnusedFieldsIgnored :
    (presented (.cmd 0x3FFFFFFF#32)).busy = false ∧ (presented (.cmd 0x3FFFFFFF#32)).resetDue = false ∧
    (presented (.cmd 0x3FFFFFFF#32)).script = [{ code := .cmd 0x3FFFFFFF#32, base := 7 }] ∧
    0x3FFFFFFF#32 &&& WellFormed.usedBits 3#4 = 0x30000000#32 &&& WellFormed.usedBits 3#4 ∧
    0x80850000#32 &&& WellFormed.usedBits 8#4 = 0x80050000#32 &&& WellFormed.usedBits 8#4 :=
  ⟨rfl, rfl, rfl, by decide, by decide⟩

theorem test_witness_StepRunsPresentedCommand :
    (presented (.cmd 0x30000000#32)).busy = false ∧ (presented (.cmd 0x30000000#32)).resetDue = false ∧
    (presented (.cmd 0x30000000#32)).script = [{ code := .cmd 0x30000000#32, base := 7 }] ∧
    decode (.cmd 0x30000000#32) = .ok .select := ⟨rfl, rfl, rfl, rfl⟩

theorem test_witness_AcceptanceLatches :
    (presented (.cmd 0x30000000#32)).busy = false ∧ (presented (.cmd 0x30000000#32)).resetDue = false ∧
    (presented (.cmd 0x30000000#32)).script = [{ code := .cmd 0x30000000#32, base := 7 }] ∧
    ∃ t, step (presented (.cmd 0x30000000#32)) = .next t := ⟨rfl, rfl, rfl, _, rfl⟩

theorem test_witness_UnknownEepromCodeRefused :
    (presented (.eeop 0xB0#8)).busy = false ∧ (presented (.eeop 0xB0#8)).resetDue = false ∧
    (presented (.eeop 0xB0#8)).script = [{ code := .eeop 0xB0#8, base := 7 }] ∧ 0xB0#8 ≠ 0xAF#8 ∧ 0xB0#8 ≠ 0xAE#8 :=
  ⟨rfl, rfl, rfl, by decide, by decide⟩

theorem test_witness_BusyAcceptsNothing :
    running.busy = true ∧ running.resetDue = false ∧ ∃ t, step running = .next t := ⟨rfl, rfl, _, rfl⟩

theorem test_witness_IdleDoesNothing :
    (machine .absent).busy = false ∧ (machine .absent).script = [] ∧ (machine .absent).rst = none := ⟨rfl, rfl, rfl⟩

theorem test_witness_CommandCompletesOrWaits : (machine .absent).ready ∧ deaf.calm := ⟨machine_ready _, rfl, rfl⟩

theorem test_witness_DelayResult : (machine .absent).calm := ⟨rfl, rfl⟩

theorem test_witness_BufrdResult :
    State.blocked { machine .absent with buf := [(127, 0xBEEF#16)] } = false ∧
    Table.get (127#7 : Index).toNat [(127, 0xBEEF#16)] = some 0xBEEF#16 := ⟨rfl, rfl⟩

theorem test_witness_BufrdUnwritten :
    (machine .absent).blocked = false ∧ Table.get (4#7 : Index).toNat (machine .absent).buf = none := ⟨rfl, rfl⟩

theorem test_witness_BufwrResult : (machine .absent).blocked = false := rfl

/-- For `j = i = 3` and for `j = 3`, `i = 4`. -/
theorem test_witness_BufferReadsBack :
    State.calm { machine .absent with buf := [(3, 0xBEEF#16)] } ∧
    Table.get (3#7 : Index).toNat [(3, 0xBEEF#16)] = some 0xBEEF#16 ∧
    (∃ t, exec (.bufwr 3#7 1#16) { machine .absent with buf := [(3, 0xBEEF#16)] } = .next t) ∧
    (∃ t, exec (.bufwr 4#7 1#16) { machine .absent with buf := [(3, 0xBEEF#16)] } = .next t) :=
  ⟨⟨rfl, rfl⟩, rfl, ⟨_, rfl⟩, _, rfl⟩

theorem test_witness_ReservedCodes : (machine .absent).blocked = false := rfl

theorem test_witness_BitclkResult : (machine .absent).ready := machine_ready _
theorem test_witness_SelectResult : (machine .absent).ready := machine_ready _
theorem test_witness_DeselectResult : (machine .absent).ready := machine_ready _
theorem test_witness_StartResult : State.ready { machine .absent with lastd := true } := ⟨⟨rfl, rfl⟩, rfl⟩
theorem test_witness_StopResult : State.ready { machine .absent with lastd := true } := ⟨⟨rfl, rfl⟩, rfl⟩

theorem test_witness_SendByteResult :
    (Instr.sendop 0x55#8 = .sendop 0x55#8) ∧ (Instr.eeWrite = .eeWrite ∧ 0xAF#8 = 0xAF#8) ∧
    (Instr.eeRead = .eeRead ∧ 0xAE#8 = 0xAE#8) ∧ (machine .absent).ready := ⟨rfl, ⟨rfl, rfl⟩, ⟨rfl, rfl⟩, machine_ready _⟩

theorem test_witness_RdwordResult : (machine (eeprom [] none)).ready := machine_ready _
theorem test_witness_WrwordResult : (machine (eeprom [] (some 0))).ready := machine_ready _

/-- Both operations, and the write that leaves the bus asserted. -/
theorem test_witness_WordOperationExitState :
    (machine .absent).ready ∧ (∃ t, exec (.rdword 0#7) (machine .absent) = .next t) ∧
    ∃ t, exec (.wrword 0#7 0#16) (machine .absent) = .next t ∧ t.rsp = 0x00010000#32 ∧ (machine .absent).par.ack1Cleanup = false :=
  ⟨machine_ready _, ⟨_, rfl⟩, _, rfl, by decide +kernel, rfl⟩

theorem test_witness_RdallResult : (machine (eeprom [] none)).ready := machine_ready _
theorem test_witness_WrallResult : (machine (eeprom [] (some 13))).ready := machine_ready _

theorem test_witness_NoAccessFrame :
    (∃ t, exec .delay (machine .absent) = .next t) ∧ (∃ t, exec (.bufrd 4#7) (machine .absent) = .next t) ∧
    (∃ t, exec (.bufwr 127#7 1#16) (machine .absent) = .next t) ∧ (∃ t, exec .reserved0 (machine .absent) = .next t) :=
  ⟨⟨_, rfl⟩, ⟨_, rfl⟩, ⟨_, rfl⟩, _, rfl⟩

theorem test_witness_BufferWriters :
    (∃ t, exec .wrall (machine .absent) = .next t) ∧ (∀ k v, Instr.wrall ≠ .bufwr k v) ∧ Instr.wrall ≠ .rdall :=
  ⟨⟨_, rfl⟩, by simp, by simp⟩

theorem test_witness_LatchesNeverWritten : ∃ t, exec .rdall (machine .absent) = .next t := ⟨_, rfl⟩
theorem test_witness_OneTargetOnly : ∃ t, exec .select (machine .absent) = .next t := ⟨_, rfl⟩

theorem test_witness_StatusByInstruction :
    (machine .absent).ready ∧ (∃ t, exec (.rdword 0#7) (machine .absent) = .next t) ∧
    (∃ t, exec .reservedF (machine .absent) = .next t) := ⟨machine_ready _, ⟨_, rfl⟩, _, rfl⟩

theorem test_witness_DelayLaw : (machine .absent).ready := machine_ready _
theorem test_witness_BitclkKeepsChipSelect : ∃ t, exec (.bitclk true false) (machine .absent) = .next t := ⟨_, rfl⟩
theorem test_witness_LegalLineValues : ∃ t, exec (.sendop 0x55#8) (machine .absent) = .next t := ⟨_, rfl⟩

/-- A first write that asserts chip-select: `START` and `BITCLK`. -/
theorem test_witness_BoundaryLaw :
    (machine .absent).ready ∧ (∃ t, exec .start (machine .absent) = .next t) ∧
    ((Trace.writes (events .start (machine .absent))).head?.map fun v => v.getLsbD 5) = some true ∧
    (∃ t, exec (.bitclk true true) (machine .absent) = .next t) ∧
    ((Trace.writes (events (.bitclk true true) (machine .absent))).head?.map fun v => v.getLsbD 5) = some true :=
  ⟨machine_ready _, ⟨_, rfl⟩, by decide +kernel, ⟨_, rfl⟩, by decide +kernel⟩

theorem test_witness_StartsAndStops :
    (machine .absent).ready ∧ (∃ t, exec .start (machine .absent) = .next t) ∧
    (∃ t, exec (.wrword 127#7 0#16) (machine .absent) = .next t) ∧ ∃ t, exec .wrall (machine .absent) = .next t :=
  ⟨machine_ready _, ⟨_, rfl⟩, ⟨_, rfl⟩, _, rfl⟩

theorem test_witness_LastdFollowsWrites : ∃ t, exec .select (machine .absent) = .next t := ⟨_, rfl⟩

theorem test_witness_EventCounts :
    (machine .absent).ready ∧ (∃ t, exec .rdall (machine .absent) = .next t) ∧
    (∃ t, exec (.wrword 0#7 0#16) (machine .absent) = .next t) ∧ ∃ t, exec .wrall (machine .absent) = .next t :=
  ⟨machine_ready _, ⟨_, rfl⟩, ⟨_, rfl⟩, _, rfl⟩

theorem test_witness_LeastDuration :
    (machine .absent).ready ∧ (machine .absent).par.timed ∧ ∃ t, exec .select (machine .absent) = .next t :=
  ⟨machine_ready _, Nat.le_refl _, _, rfl⟩

/-- Two machines with different targets and builds. -/
theorem test_witness_ItemsIndependentOfAnswers :
    (∀ k w, Instr.rdword 5#7 ≠ .wrword k w) ∧ Instr.rdword 5#7 ≠ .wrall ∧ (machine .absent).ready ∧
    State.ready { machine (eeprom [] none) with par := { build with swap := true } } ∧
    (machine .absent).lastd = (machine (eeprom [] none)).lastd ∧ (∃ t, exec (.rdword 5#7) (machine .absent) = .next t) ∧
    ∃ t, exec (.rdword 5#7) { machine (eeprom [] none) with par := { build with swap := true } } = .next t :=
  ⟨by simp, by simp, machine_ready _, ⟨⟨rfl, rfl⟩, rfl⟩, rfl, ⟨_, rfl⟩, _, rfl⟩

/-- With exactly as many answers as the longest command reads. -/
theorem test_witness_AnswersTakenInOrder :
    (machine (.oracle (List.replicate 5760 0x0008#16))).ready ∧
    ((machine (.oracle (List.replicate 5760 0x0008#16))).moduleAt 7).device = .oracle (List.replicate 5760 0x0008#16) ∧
    5760 ≤ (List.replicate 5760 0x0008#16).length ∧
    ∃ t, exec .rdall (machine (.oracle (List.replicate 5760 0x0008#16))) = .next t :=
  ⟨machine_ready _, rfl, Nat.le_of_eq List.length_replicate.symm, _, rfl⟩

theorem test_witness_RdwordDegenerateTargets :
    ((machine .absent).ready ∧ ((machine .absent).moduleAt 7).device = .absent) ∧
    ((machine .stuckLow).ready ∧ ((machine .stuckLow).moduleAt 7).device = .stuckLow) :=
  ⟨⟨machine_ready _, rfl⟩, machine_ready _, rfl⟩

theorem test_witness_WordRoundTrip :
    (machine (eeprom [(10, 0x12#8)] none)).ready ∧
    ((machine (eeprom [(10, 0x12#8)] none)).moduleAt 7).device = .responder (Responder.fresh [(10, 0x12#8)] none) ∧
    (Responder.fresh [(10, 0x12#8)] none).acksLeft = none ∧ Memory.wf (Responder.fresh [(10, 0x12#8)] none).mem = true :=
  ⟨machine_ready _, rfl, rfl, by decide⟩

theorem test_witness_ReadsStoreNothing :
    (machine (eeprom [(10, 0x12#8)] (some 2))).ready ∧
    ((machine (eeprom [(10, 0x12#8)] (some 2))).moduleAt 7).device = .responder (Responder.fresh [(10, 0x12#8)] (some 2)) ∧
    ∃ t, exec .rdall (machine (eeprom [(10, 0x12#8)] (some 2))) = .next t := ⟨machine_ready _, rfl, _, rfl⟩

/-- A machine with every entry of the buffer written. -/
def filled (d : Device) : State :=
  { machine d with buf := (List.range 128).map fun k => (k, BitVec.ofNat 16 (0x1000 + k)) }

theorem test_witness_BulkRoundTrip :
    (filled (eeprom [] none)).ready ∧ ((filled (eeprom [] none)).moduleAt 7).device = .responder (Responder.fresh [] none) ∧
    Memory.wf (Responder.fresh [] none).mem = true ∧
    (∀ k : Fin 128, (Table.get k.val (filled (eeprom [] none)).buf).isSome = true) ∧
    ∃ t, exec .wrall (filled (eeprom [] none)) = .next t :=
  ⟨⟨⟨rfl, rfl⟩, rfl⟩, rfl, rfl, by decide +kernel, _, rfl⟩

/-- Both clauses: a last write exists, and the target is no oracle. -/
theorem test_witness_SwapIsInvisible :
    (Trace.writes (events (.rdword 5#7) (machine .absent))).getLast? = some 0x0000#16 ∧ (machine .absent).ready ∧ (∀ answers, ((machine .absent).moduleAt 7).device ≠ .oracle answers) ∧
    ∃ t, exec (.rdword 5#7) (machine .absent) = .next t :=
  ⟨by decide +kernel, machine_ready _, fun _ h => Device.noConfusion h, _, rfl⟩

theorem test_witness_WrwordScript :
    (machine (eeprom [] none)).ready ∧
    ∃ t, exec (.wrword 5#7 0x1234#16) (machine (eeprom [] none)) = .next t ∧ t.rsp = 0x00000000#32 :=
  ⟨machine_ready _, _, rfl, by decide +kernel⟩

theorem test_witness_RdwordScript :
    (machine (eeprom [] none)).ready ∧ ∃ t, exec (.rdword 5#7) (machine (eeprom [] none)) = .next t := ⟨machine_ready _, _, rfl⟩

theorem test_witness_SequencerRefinesCommands :
    decode (.cmd 0x90051234#32) = .ok (.wrword 5#7 0x1234#16) ∧ (machine .absent).mport.req = false := ⟨rfl, rfl⟩

/-- A reset that has risen, one that ends the wait for an acknowledge, and one that comes to an idle block. -/
theorem test_witness_ResetTakesPlace :
    State.resetDue { running with rst := some 0 } = true ∧ State.resetDue { after .select deaf with rst := some 3 } = true ∧
    State.resetDue { machine .absent with rst := some 3 } = true := ⟨rfl, rfl, rfl⟩

/-- The hypotheses at a reset that comes after `n` events. -/
theorem test_witness_ResetAbandonsCommand (n : Nat) :
    State.mport { machine .absent with rst := some n } = MasterPort.idle ∧ MasterPort.idle.req = false ∧
    State.rst { machine .absent with rst := some n } = some n ∧
    (State.moduleAt { machine .absent with rst := some n } 7).grants = none := ⟨rfl, rfl, rfl, rfl⟩

/-- The boundary: a `SELECT` has four events, so a reset after four comes before its response and one after five does not. -/
theorem test_witness_ResetAbandonsCommand_boundary :
    (events .select (machine .absent)).length = 4 ∧
    (after .select { machine .absent with rst := some 4 }).busy = true ∧
    (after .select { machine .absent with rst := some 5 }).busy = false ∧
    (after .select { machine .absent with rst := some 5 }).rst = some 1 := by decide +kernel

/-- The boundary: a reset after no event stops a `SELECT` before its first, and a `BUFRD` before its response. -/
theorem test_witness_ResetAbandonsCommand_zero :
    events .select { machine .absent with rst := some 0 } = [] ∧
    (after (.bufrd 4#7) { machine .absent with rst := some 0 }).rst = some 0 ∧
    (after (.bufrd 4#7) { machine .absent with rst := some 1 }).busy = false := by decide +kernel

/-- A machine that has begun a `SELECT` whose first access is not acknowledged. -/
theorem test_witness_UnacknowledgedAccessHangs :
    (after .select deaf).busy = true ∧ (after .select deaf).mport.req = true ∧ (after .select deaf).rst = none ∧
    (after .select deaf).seqNamesEvent = true := by decide +kernel

theorem test_witness_FirstAccessHangs :
    deaf.calm ∧ (deaf.moduleAt 7).grants = some 0 ∧ Instr.select ≠ .delay ∧ (∀ k, Instr.select ≠ .bufrd k) ∧
    (∀ k v, Instr.select ≠ .bufwr k v) ∧ Instr.select ≠ .reserved0 ∧ Instr.select ≠ .reservedE ∧ Instr.select ≠ .reservedF :=
  ⟨⟨rfl, rfl⟩, rfl, by simp⟩

theorem test_witness_StepKeepsInv : (presented (.cmd 0x30000000#32)).inv ∧ ∃ t, step (presented (.cmd 0x30000000#32)) = .next t :=
  ⟨⟨by decide, rfl, rfl, rfl, rfl, by decide, rfl, rfl, by simp [presented, machine, State.reset]⟩, _, rfl⟩

/-- An idle machine, and one in the middle of a command. -/
theorem test_witness_StepKeepsSequenced :
    (machine .absent).sequenced ∧ running.sequenced ∧ ∃ t, step running = .next t :=
  ⟨⟨fun _ => ⟨rfl, rfl⟩, fun h => Bool.noConfusion h, by decide, by decide⟩,
   ⟨fun h => Bool.noConfusion h, fun _ => Or.inr ⟨rfl, trivial, trivial⟩, by decide, by decide⟩, _, rfl⟩

end Sys2Proof.Tests
end

namespace Sys2Proof.Machine

/-! ### Every command is made of elementary acts

`exec` of any instruction, in any state, performs one elementary operation after another. What each of them keeps or counts
therefore holds of whole commands, by one induction over `State.Runs`. -/

/-- The elementary operations of the model, a write together with the delay that follows it (R155). -/
inductive Act
  | writeDelay (v : Half)
  | delay
  | readSample
  | noteAck (k : Nat)
  | setAcc (v : Half)
  | shiftAcc
  | setBitcnt (v : BitVec 4)
  | setWidx (v : BitVec 8)
  | setWword (v : Half)
  | bufTouch (i : Index)
  | bufWrite (i : Index) (v : Half)
  | launch (st : Stage)
  | enter (st : Stage)
  | complete (status : BitVec 4) (rdata : Half)

/-- What an act does. -/
def Act.run : Act → State → State
  | .writeDelay v => State.writeDelay v
  | .delay => State.delay
  | .readSample => State.readSample
  | .noteAck k => State.noteAck k
  | .setAcc v => State.setAcc v
  | .shiftAcc => State.shiftAcc
  | .setBitcnt v => State.setBitcnt v
  | .setWidx v => State.setWidx v
  | .setWword v => State.setWword v
  | .bufTouch i => State.bufTouch i
  | .bufWrite i v => State.bufWrite i v
  | .launch st => State.launch st
  | .enter st => State.enter st
  | .complete status rdata => State.complete status rdata

/-- How many samples an act takes. -/
def Act.reads : Act → Nat
  | .readSample => 1
  | _ => 0

/-- The acts of a command: only legal values are written to the line (R102), and `BUF` only if `buf` (R36). A claim about what
is written, to the line or to `BUF`, reads these conditions off the run. -/
def Act.allowed (buf : Prop) : Act → Prop
  | .writeDelay v => v ∈ Line.legal
  | .bufWrite _ _ => buf
  | _ => True

/-- From `s` to `t` by allowed acts, at most `n` samples taken. -/
inductive State.Runs (buf : Prop) (s : State) : Nat → State → Prop
  | refl (n : Nat) : State.Runs buf s n s
  | act (o : Act) {n : Nat} {t : State} (ho : o.allowed buf) (h : State.Runs buf s n t) :
      State.Runs buf s (n + o.reads) (o.run t)

namespace State.Runs

section Acts

variable {buf : Prop} {s t : State} {n m : Nat}

theorem mono (h : s.Runs buf n t) (hnm : n ≤ m) : s.Runs buf m t := by
  induction h generalizing m with
  | refl n => exact .refl m
  | @act o n t ho _ ih =>
    obtain ⟨k, rfl⟩ := Nat.exists_eq_add_of_le hnm
    rw [show n + o.reads + k = n + k + o.reads by omega]
    exact .act o ho (ih (by omega))

variable (h : s.Runs buf n t)
include h

theorem writeDelay {v : Half} (hv : v ∈ Line.legal) : s.Runs buf n (t.writeDelay v) := h.act (.writeDelay v) hv

theorem delay : s.Runs buf n t.delay := h.act .delay trivial

theorem readSample : s.Runs buf (n + 1) t.readSample := h.act .readSample trivial

theorem noteAck {k : Nat} : s.Runs buf n (t.noteAck k) := h.act (.noteAck k) trivial

theorem setAcc {v : Half} : s.Runs buf n (t.setAcc v) := h.act (.setAcc v) trivial

theorem shiftAcc : s.Runs buf n t.shiftAcc := h.act .shiftAcc trivial

theorem setBitcnt {v : BitVec 4} : s.Runs buf n (t.setBitcnt v) := h.act (.setBitcnt v) trivial

theorem setWidx {v : BitVec 8} : s.Runs buf n (t.setWidx v) := h.act (.setWidx v) trivial

theorem setWword {v : Half} : s.Runs buf n (t.setWword v) := h.act (.setWword v) trivial

theorem bufTouch {i : Index} : s.Runs buf n (t.bufTouch i) := h.act (.bufTouch i) trivial

theorem bufWrite {i : Index} {v : Half} (hb : buf) : s.Runs buf n (t.bufWrite i v) := h.act (.bufWrite i v) hb

theorem launch {st : Stage} : s.Runs buf n (t.launch st) := h.act (.launch st) trivial

theorem enter {st : Stage} : s.Runs buf n (t.enter st) := h.act (.enter st) trivial

theorem complete {status : BitVec 4} {rdata : Half} : s.Runs buf n (t.complete status rdata) :=
  h.act (.complete status rdata) trivial

end Acts

end State.Runs

/-! ### The micro-sequences and the word operations as acts -/

theorem clockLow_legal (d : Bool) : Operand.clockLow d ∈ Line.legal := by cases d <;> decide

theorem clockHigh_legal (d : Bool) : Operand.clockHigh d ∈ Line.legal := by cases d <;> decide

namespace State.Runs

section Sequences

variable {buf : Prop} {s t : State} {n : Nat} (h : s.Runs buf n t)
include h

theorem bitClk {dbs last : Bool} : s.Runs buf (n + 1) (t.bitClk dbs last) :=
  (((h.writeDelay (clockLow_legal last)).writeDelay (clockLow_legal dbs)).writeDelay (clockHigh_legal dbs)).readSample

theorem selectSeq : s.Runs buf n t.selectSeq := (h.writeDelay (by decide)).writeDelay (by decide)

theorem deselectSeq : s.Runs buf n t.deselectSeq := h.writeDelay (by decide)

theorem startSeq : s.Runs buf n t.startSeq :=
  (((h.writeDelay (clockLow_legal _)).writeDelay (by decide)).writeDelay (by decide)).writeDelay (by decide)

theorem stopSeq : s.Runs buf n t.stopSeq :=
  (((h.writeDelay (clockLow_legal _)).writeDelay (by decide)).writeDelay (by decide)).writeDelay (by decide)

theorem sendBits {b : Byte} {k : Nat} : s.Runs buf (n + k) (t.sendBits b k) := by
  induction k generalizing n t with
  | zero => exact h
  | succ k ih => exact (ih h.bitClk.setBitcnt).mono (by omega)

theorem sendByte {b : Byte} : s.Runs buf (n + 8) (t.sendByte b) := h.setBitcnt.sendBits

theorem recvBits {k : Nat} : s.Runs buf (n + k) (t.recvBits k) := by
  induction k generalizing n t with
  | zero => exact h
  | succ k ih => exact (ih h.bitClk.shiftAcc.setBitcnt).mono (by omega)

theorem recvByte : s.Runs buf (n + 8) t.recvByte := h.setBitcnt.recvBits

theorem ackChk : s.Runs buf (n + 1) t.ackChk := h.bitClk

theorem sendAck : s.Runs buf (n + 1) t.sendAck := h.bitClk

theorem sendNack : s.Runs buf (n + 1) t.sendNack := h.bitClk

theorem abortPath {at_ : WStage → Stage} {k : BitVec 4} : s.Runs buf n (t.abortPath at_ k) := by
  unfold State.abortPath
  split
  · exact h
  · exact h.enter.stopSeq.enter.deselectSeq

theorem raiseNoAck {at_ : WStage → Stage} {k status : BitVec 4} {rdata : Half} :
    s.Runs buf n (t.raiseNoAck at_ k status rdata) := h.abortPath.complete

/-- A read frame has 45 bit clocks (R113). -/
theorem readWord {at_ : RStage → Stage} {i : Index} : s.Runs buf (n + 45) (t.readWord at_ i) :=
  have addressed := h.selectSeq.enter.startSeq.enter.sendByte.enter.ackChk.noteAck.enter.sendByte.enter.ackChk.noteAck
  have turned := addressed.enter.startSeq.enter.sendByte.enter.ackChk.noteAck
  have received := turned.enter.recvByte.enter.sendAck.enter.recvByte.enter.sendNack
  received.enter.stopSeq.enter.deselectSeq

theorem writeCode {at_ : WStage → Stage} : s.Runs buf (n + 9) (t.writeCode at_) :=
  h.selectSeq.enter.startSeq.enter.sendByte.enter.ackChk

/-- A write frame has at most 36 bit clocks, nine up to each checkpoint (R112). -/
theorem writeWord {at_ : WStage → Stage} {i : Index} {w : Half} : s.Runs buf (n + 36) (t.writeWord at_ i w).2 := by
  unfold State.writeWord
  extract_lets s1 s2 s3 s4
  have h1 : s.Runs buf (n + 9) s1 := h.writeCode
  have h2 : s.Runs buf (n + 18) s2 := h1.enter.sendByte.enter.ackChk
  have h3 : s.Runs buf (n + 27) s3 := h2.enter.sendByte.enter.ackChk
  have h4 : s.Runs buf (n + 36) s4 := h3.enter.sendByte.enter.ackChk
  clear_value s1 s2 s3 s4
  split
  · exact h1.mono (by omega)
  split
  · exact h2.mono (by omega)
  split
  · exact h3.mono (by omega)
  split
  · exact h4
  · exact h4.enter.stopSeq.enter.deselectSeq

theorem rdallWord (hb : buf) : s.Runs buf (n + 45) t.rdallWord := by
  unfold State.rdallWord
  extract_lets i u
  have read : s.Runs buf (n + 45) u := h.setAcc.enter.readWord
  exact (read.bufWrite hb).setWidx

theorem rdallWords (hb : buf) {k : Nat} : s.Runs buf (n + 45 * k) (t.rdallWords k) := by
  induction k generalizing n t with
  | zero => exact h
  | succ k ih => exact (ih (h.rdallWord hb)).mono (by omega)

theorem wrallWords {k : Nat} : s.Runs buf (n + 36 * k) (t.wrallWords k) := by
  induction k generalizing n t with
  | zero => exact h.complete
  | succ k ih =>
    have word {at_ i w} := (h.setWword.bufTouch.enter : s.Runs buf n t.beginWrite).writeWord (at_ := at_) (i := i) (w := w)
    unfold State.wrallWords
    extract_lets i u r
    split
    · exact (ih (word.setWidx : s.Runs buf (n + 36) (State.countWord r.2))).mono (by omega)
    · exact (word.raiseNoAck).mono (by omega)

end Sequences

end State.Runs

/-- The commands that write the buffer (R36, R79). -/
def writesBuffer (i : Instr) : Prop := (∃ k v, i = .bufwr k v) ∨ i = .rdall

/-- Every command, in every state, is a run of acts with at most 45 samples for each of 128 words. -/
theorem exec_runs {i : Instr} {s t : State} (h : exec i s = .next t) : s.Runs (writesBuffer i) 5760 t := by
  have start {buf st} : s.Runs buf 0 (s.launch st) := (State.Runs.refl 0).launch
  cases i <;> obtain rfl := Host.Outcome.next.inj h
  case delay => exact start.delay.complete.mono (by omega)
  case bitclk => exact start.bitClk.complete.mono (by omega)
  case select => exact start.selectSeq.complete.mono (by omega)
  case deselect => exact start.deselectSeq.complete.mono (by omega)
  case start => exact start.startSeq.complete.mono (by omega)
  case stop => exact start.stopSeq.complete.mono (by omega)
  case sendop => exact start.sendByte.complete.mono (by omega)
  case eeWrite => exact start.sendByte.complete.mono (by omega)
  case eeRead => exact start.sendByte.complete.mono (by omega)
  case rdword => exact start.setAcc.enter.readWord.complete.mono (by omega)
  case wrword =>
    refine State.Runs.mono (n := 36) ?_ (by omega)
    split
    · exact start.writeWord.complete
    · exact start.writeWord.raiseNoAck
  case rdall => exact (start.setWidx.rdallWords (.inr rfl)).complete.mono (by decide)
  case wrall => exact start.setWidx.wrallWords.mono (by decide)
  case bufrd => exact start.bufTouch.complete.mono (by omega)
  case bufwr => exact (start.bufWrite (.inl ⟨_, _, rfl⟩)).complete.mono (by omega)
  case reserved0 => exact start.complete.mono (by omega)
  case reservedE => exact start.complete.mono (by omega)
  case reservedF => exact start.complete.mono (by omega)

/-! ### The latches -/

/-- What no act writes: the latches, the parameters and what the host presents (R5, R29, R76). -/
def State.latchesKept (s t : State) : Prop :=
  t.op = s.op ∧ t.base = s.base ∧ t.a = s.a ∧ t.data = s.data ∧ t.par = s.par ∧ t.script = s.script

theorem Act.run_latchesKept (o : Act) (s : State) : s.latchesKept (o.run s) := by
  cases o <;> simp [Act.run, State.latchesKept, State.writeDelay]

theorem State.Runs.latchesKept {buf : Prop} {s t : State} {n : Nat} (h : s.Runs buf n t) : s.latchesKept t := by
  induction h with
  | refl n => exact ⟨rfl, rfl, rfl, rfl, rfl, rfl⟩
  | @act o n t ho _ ih =>
    obtain ⟨h1, h2, h3, h4, h5, h6⟩ := ih
    obtain ⟨g1, g2, g3, g4, g5, g6⟩ := o.run_latchesKept t
    exact ⟨g1.trans h1, g2.trans h2, g3.trans h3, g4.trans h4, g5.trans h5, g6.trans h6⟩

theorem State.Runs.base {buf : Prop} {s t : State} {n : Nat} (h : s.Runs buf n t) : t.base = s.base := h.latchesKept.2.1

theorem State.Runs.par {buf : Prop} {s t : State} {n : Nat} (h : s.Runs buf n t) : t.par = s.par := by
  obtain ⟨_, _, _, _, hpar, _⟩ := h.latchesKept
  exact hpar

/-- Settles O31: no act writes a latch, and every command is a run of acts. -/
theorem latchesNeverWritten : Obligations.LatchesNeverWritten := fun _ _ _ h => (exec_runs h).latchesKept

/-! ### The events of acts, not disturbed -/

@[simp] theorem reads_append (e f : List Event) : Trace.reads (e ++ f) = Trace.reads e ++ Trace.reads f := by
  simp [Trace.reads]

@[simp] theorem writes_append (e f : List Event) : Trace.writes (e ++ f) = Trace.writes e ++ Trace.writes f := by
  simp [Trace.writes]

@[simp] theorem delays_append (e f : List Event) : Trace.delays (e ++ f) = Trace.delays e + Trace.delays f := by
  simp [Trace.delays]

/-- The events of an act in a ready state. -/
def Act.events (s : State) : Act → List Event
  | .writeDelay v => Trace.written s.base v
  | .delay => [.d s.base]
  | .readSample => [.r s.base s.answerValue]
  | _ => []

theorem Act.reads_events_length (o : Act) (s : State) : (Trace.reads (o.events s)).length = o.reads := by
  cases o <;> rfl

theorem Act.writes_events_le_delays (o : Act) (s : State) :
    (Trace.writes (o.events s)).length ≤ Trace.delays (o.events s) := by
  cases o
  case writeDelay => exact le_rfl
  all_goals exact Nat.zero_le _

/-- An act that is no event keeps what a ready state and a trace depend on. -/
theorem Act.run_silent {o : Act} {s : State} (h : o.events s = []) :
    (o.run s).mport = s.mport ∧ (o.run s).rst = s.rst ∧ (o.run s).modules = s.modules ∧ (o.run s).trace = s.trace := by
  cases o
  case writeDelay | delay | readSample => cases h
  all_goals simp [Act.run]

theorem Act.run_performed (o : Act) {s : State} (h : s.ready) : (o.run s).ready ∧ s.ran (o.run s) (o.events s) := by
  by_cases he : o.events s = []
  · obtain ⟨hmport, hrst, hmod, htrace⟩ := Act.run_silent he
    obtain ⟨_, hbase, _⟩ := o.run_latchesKept s
    refine ⟨⟨⟨hmport ▸ h.1.1, hrst ▸ h.1.2⟩, ?_⟩, by rw [he]; exact ⟨htrace, by simp⟩⟩
    rw [hbase, moduleAt_congr hmod]
    exact h.2
  · cases o
    case writeDelay v => exact ⟨(writeDelay_performs v h).ready, (writeDelay_performs v h).ran⟩
    case delay => exact ⟨(delay_performs h).ready, (delay_performs h).ran⟩
    case readSample => exact ⟨(readSample_performs h).1.ready, (readSample_performs h).1.ran⟩
    all_goals exact absurd rfl he

/-! ### Delays and writes -/

theorem State.Runs.writes_le_delays {buf : Prop} {s t : State} {n : Nat} (h : s.Runs buf n t) (hs : s.ready) :
    t.ready ∧ ∃ evs, s.ran t evs ∧ (Trace.writes evs).length ≤ Trace.delays evs := by
  induction h with
  | refl n => exact ⟨hs, [], ⟨rfl, by simp⟩, le_rfl⟩
  | @act o n t ho h ih =>
    obtain ⟨ht, evs, hran, hle⟩ := ih
    obtain ⟨hu, hran'⟩ := o.run_performed ht
    refine ⟨hu, evs ++ o.events t, hran.trans hran' h.base, ?_⟩
    have := o.writes_events_le_delays t
    simp only [writes_append, delays_append, List.length_append]
    omega

/-- Settles O41: every write has its delay, and a delay of a timed build lasts at least a microsecond. -/
theorem leastDuration : Obligations.LeastDuration := by
  intro i s t hs htimed h
  obtain ⟨_, evs, hran, hle⟩ := (exec_runs h).writes_le_delays hs
  exact ⟨evs, hran, Nat.mul_le_mul hle htimed⟩

/-! ### Listed answers -/

theorem lineWrite_device {s : State} (h : s.ready) (v : Half) :
    ((State.lineWrite v s).moduleAt s.base).device = (s.moduleAt s.base).device.take v := by
  have hmod : (State.lineWrite v s).modules = Table.put s.base ((s.moduleAt s.base).granted.take v) s.modules := by
    simp [State.lineWrite, State.live_of_running h.running, h.2, State.emit]
  rw [moduleAt_of_put hmod, if_pos rfl]
  rfl

theorem writeDelay_device {s : State} (h : s.ready) (v : Half) :
    ((State.writeDelay v s).moduleAt s.base).device = (s.moduleAt s.base).device.take v := by
  rw [State.writeDelay, moduleAt_congr (delay_modules _), lineWrite_device h]

theorem readSample_device {s : State} (h : s.ready) :
    ((State.readSample s).moduleAt s.base).device =
      ((s.moduleAt s.base).device.answer s.par (s.moduleAt s.base).line s.draws).2.1 := by
  have hmod : (State.readSample s).modules =
      Table.put s.base { (s.moduleAt s.base).granted with
        device := ((s.moduleAt s.base).device.answer s.par (s.moduleAt s.base).line s.draws).2.1 } s.modules := by
    simp [State.readSample, State.live_of_running h.running, h.2, State.emit]
  rw [moduleAt_of_put hmod, if_pos rfl]

/-- The values read in `evs` are the first of `answers`, unmarshalled, and the target at `t` lists the rest. -/
def State.answered (s t : State) (answers : List Half) (evs : List Event) : Prop :=
  Trace.reads evs = (answers.take (Trace.reads evs).length).map (Operand.unmarshal s.par) ∧
    (t.moduleAt s.base).device = .oracle (answers.drop (Trace.reads evs).length)

/-- An act takes as many listed answers as it takes samples. -/
theorem Act.run_answered (o : Act) {s : State} {answers : List Half} (h : s.ready)
    (hd : (s.moduleAt s.base).device = .oracle answers) (hn : o.reads ≤ answers.length) :
    s.answered (o.run s) answers (o.events s) := by
  by_cases he : o.events s = []
  · obtain ⟨_, _, hmod, _⟩ := Act.run_silent he
    rw [he]
    exact ⟨rfl, by rw [moduleAt_congr hmod]; exact hd⟩
  · cases o
    case writeDelay v => exact ⟨rfl, (writeDelay_device h v).trans (by rw [hd]; rfl)⟩
    case delay => exact ⟨rfl, by rw [Act.run, moduleAt_congr (delay_modules s)]; exact hd⟩
    case readSample =>
      obtain ⟨v, rest, rfl⟩ := List.exists_cons_of_length_pos hn
      refine ⟨?_, (readSample_device h).trans (by rw [hd]; rfl)⟩
      simp [Act.events, Trace.reads, Event.answer, State.answerValue, hd, Device.answer]
    all_goals exact absurd rfl he

theorem State.answered.trans {s t u : State} {answers : List Half} {e f : List Event} (h : s.answered t answers e)
    (g : t.answered u (answers.drop (Trace.reads e).length) f) (hb : t.base = s.base) (hp : t.par = s.par) :
    s.answered u answers (e ++ f) := by
  obtain ⟨hreads, _⟩ := h
  obtain ⟨greads, gdev⟩ := g
  rw [hp] at greads
  rw [hb] at gdev
  refine ⟨?_, by rw [gdev, reads_append, List.length_append, List.drop_drop]⟩
  rw [reads_append, List.length_append, List.take_add, List.map_append, ← hreads, ← greads]

theorem State.Runs.answered {buf : Prop} {s t : State} {n : Nat} {answers : List Half} (h : s.Runs buf n t) (hs : s.ready)
    (hd : (s.moduleAt s.base).device = .oracle answers) (hn : n ≤ answers.length) :
    t.ready ∧ ∃ evs, s.ran t evs ∧ s.answered t answers evs ∧ (Trace.reads evs).length ≤ n := by
  induction h with
  | refl n => exact ⟨hs, [], ⟨rfl, by simp⟩, ⟨rfl, hd⟩, Nat.zero_le n⟩
  | @act o n t ho h ih =>
    obtain ⟨ht, evs, hran, hans, hle⟩ := ih (by omega)
    have hans' := o.run_answered ht (by rw [h.base]; exact hans.2) (by rw [List.length_drop]; omega)
    obtain ⟨hu, hran'⟩ := o.run_performed ht
    refine ⟨hu, evs ++ o.events t, hran.trans hran' h.base, hans.trans hans' h.base h.par, ?_⟩
    rw [reads_append, List.length_append, o.reads_events_length]
    omega

/-- Settles O43: each sample takes the next listed answer, and no command takes more than 5760 samples. -/
theorem answersTakenInOrder : Obligations.AnswersTakenInOrder := by
  intro i s t answers hs hd hlen h
  obtain ⟨_, evs, hran, hans, _⟩ := (exec_runs h).answered hs hd hlen
  exact ⟨evs, hran, hans⟩

/-! ### `DELAY` -/

theorem launch_of_running {s : State} (h : s.blocked = false) (st : Stage) :
    State.launch st s = { s with busy := true, rdack := 0#3, seq := .run st 0 } := State.live_of_running h

theorem complete_of_running {s : State} (h : s.blocked = false) (status : BitVec 4) (rdata : Half) :
    State.complete status rdata s =
      { s with rsp := Operand.response s.rdack status rdata, busy := false, seq := .idle } := State.live_of_running h

theorem delay_of_calm {s : State} (h : s.calm) :
    State.delay s = { s with dlycnt := 0, trace := .d s.base :: s.trace, seq := s.seq.advance } := by
  rw [State.delay, State.live_of_running h.running, countDown_eq_zero, State.emit, h.2]
  rfl

/-- The packed response word is the sum of its fields in their places (R106). -/
theorem response_eq (rdack : BitVec 3) (status : BitVec 4) (rdata : Half) :
    Operand.response rdack status rdata = Frame.rsp rdack.toNat status.toNat rdata.toNat := by
  apply BitVec.eq_of_toNat_eq
  rw [Operand.response, BitVec.toNat_append, ← Nat.shiftLeft_add_eq_or_of_lt rdata.isLt, BitVec.toNat_append,
    ← Nat.shiftLeft_add_eq_or_of_lt status.isLt, BitVec.toNat_append, ← Nat.shiftLeft_add_eq_or_of_lt rdack.isLt]
  simp only [Frame.rsp, BitVec.toNat_ofNat, Nat.shiftLeft_eq]
  omega

/-- Settles O12: the launch, the one delay and the completion, each by its equation. -/
theorem delayResult : Obligations.DelayResult := by
  intro s h
  have launched : (State.launch (.prim .delay) s).calm := ⟨by simpa using h.1, by simpa using h.2⟩
  have delayed : (State.delay (State.launch (.prim .delay) s)).calm := by
    rw [delay_of_calm launched]
    exact launched
  rw [exec, execDelay, complete_of_running delayed.running, delay_of_calm launched, launch_of_running h.running, response_eq]
  rfl

end Sys2Proof.Machine

namespace Sys2Proof.Machine

/-! ### What any run writes to the line, however it is disturbed -/

/-- From `s` to `t`, both with the same base address in force, the events `evs` took place, all their writes are of legal
values, and `LASTD` is what they leave (R8, R28, R102). Unlike `State.Performs` this asks no target to acknowledge. -/
structure State.Logs (s t : State) (evs : List Event) : Prop where
  ran : s.ran t evs
  base : t.base = s.base
  lastd : t.lastd = Trace.lastData s.lastd evs
  legal : ∀ v ∈ Trace.writes evs, v ∈ Line.legal

theorem State.Logs.nil {s t : State} (htrace : t.trace = s.trace) (hbase : t.base = s.base) (hlastd : t.lastd = s.lastd) :
    s.Logs t [] :=
  ⟨⟨htrace, by simp⟩, hbase, hlastd, List.forall_mem_nil _⟩

theorem State.Logs.trans {s t u : State} {e f : List Event} (h : s.Logs t e) (g : t.Logs u f) : s.Logs u (e ++ f) where
  ran := h.ran.trans g.ran h.base
  base := g.base.trans h.base
  lastd := by rw [g.lastd, h.lastd, Trace.lastData_append]
  legal := by
    rw [writes_append]
    exact fun v hv => (List.mem_append.1 hv).elim (h.legal v) (g.legal v)

/-- A write that is not acknowledged, or comes after the sequence has stopped, is no event (R67, R253). -/
theorem lineWrite_logs {v : Half} (hv : v ∈ Line.legal) (s : State) : ∃ evs, s.Logs (State.lineWrite v s) evs := by
  unfold State.lineWrite State.live
  split
  · exact ⟨[], .nil rfl rfl rfl⟩
  · dsimp only
    split
    · exact ⟨[], .nil rfl rfl rfl⟩
    · exact ⟨[.w s.base v], ⟨rfl, by simp [Event.base]⟩, rfl, rfl, List.forall_mem_singleton.2 hv⟩

theorem delay_logs (s : State) : ∃ evs, s.Logs (State.delay s) evs := by
  unfold State.delay State.live
  split
  · exact ⟨[], .nil rfl rfl rfl⟩
  · exact ⟨[.d s.base], ⟨rfl, by simp [Event.base]⟩, rfl, rfl, List.forall_mem_nil _⟩

theorem readSample_logs (s : State) : ∃ evs, s.Logs (State.readSample s) evs := by
  unfold State.readSample State.live
  split
  · exact ⟨[], .nil rfl rfl rfl⟩
  · dsimp only
    split
    · exact ⟨[], .nil rfl rfl rfl⟩
    · exact ⟨[.r s.base s.answerValue], ⟨rfl, by simp [Event.base]⟩, rfl, rfl, List.forall_mem_nil _⟩

theorem Act.run_logs {buf : Prop} (o : Act) (ho : o.allowed buf) (s : State) : ∃ evs, s.Logs (o.run s) evs := by
  cases o
  case writeDelay v =>
    obtain ⟨e, he⟩ := lineWrite_logs ho s
    obtain ⟨f, hf⟩ := delay_logs (State.lineWrite v s)
    exact ⟨e ++ f, he.trans hf⟩
  case delay => exact delay_logs s
  case readSample => exact readSample_logs s
  all_goals exact ⟨[], .nil (by simp [Act.run]) (by simp [Act.run]) (by simp [Act.run])⟩

theorem State.Runs.logs {buf : Prop} {s t : State} {n : Nat} (h : s.Runs buf n t) : ∃ evs, s.Logs t evs := by
  induction h with
  | refl n => exact ⟨[], .nil rfl rfl rfl⟩
  | @act o n t ho _ ih =>
    obtain ⟨e, he⟩ := ih
    obtain ⟨f, hf⟩ := o.run_logs ho t
    exact ⟨e ++ f, he.trans hf⟩

/-- Settles O36: every write of a command is an act's, and an act of a command writes legal values only. -/
theorem legalLineValues : Obligations.LegalLineValues := by
  intro i s t h
  obtain ⟨evs, hlogs⟩ := (exec_runs h).logs
  exact ⟨evs, hlogs.ran, hlogs.legal⟩

/-- The data bit that events leave is bit 3 of their last write (R28). -/
theorem Trace.lastData_eq (d : Bool) (evs : List Event) :
    Trace.lastData d evs = ((Trace.writes evs).getLast?.map fun v => v.getLsbD 3).getD d := by
  induction evs generalizing d with
  | nil => rfl
  | cons e evs ih =>
    cases e with
    | w b v =>
      have hw : Trace.writes (.w b v :: evs) = v :: Trace.writes evs := rfl
      rw [hw, List.getLast?_cons, Trace.lastData, ih]
      cases (Trace.writes evs).getLast? <;> rfl
    | d b => exact ih d
    | r b v => exact ih d

/-- Settles O39: `LASTD` is what the events of the run leave on the data line. -/
theorem lastdFollowsWrites : Obligations.LastdFollowsWrites := by
  intro i s t h
  obtain ⟨evs, hlogs⟩ := (exec_runs h).logs
  exact ⟨evs, hlogs.ran, hlogs.lastd.trans (Trace.lastData_eq s.lastd evs)⟩

/-! ### What a step does to the state of a running command -/

/-- The writes of a micro-sequence are legal (R102). -/
def Micro.legal : Micro → Prop
  | .writes ws => ∀ v ∈ ws, v ∈ Line.legal
  | _ => True

theorem Micro.select_legal : Micro.select.legal := by simp [Micro.select, Micro.legal, Line.legal, Config.idleValue]

theorem Micro.deselect_legal : Micro.deselect.legal := by simp [Micro.deselect, Micro.legal, Line.legal, Config.idleValue]

theorem Micro.start_legal (last : Bool) : (Micro.start last).legal := by
  cases last <;> simp [Micro.start, Micro.legal, Line.legal, Operand.clockLow]

theorem Micro.stop_legal (last : Bool) : (Micro.stop last).legal := by
  cases last <;> simp [Micro.stop, Micro.legal, Line.legal, Operand.clockLow]

theorem WStage.micro_legal (i : Index) (v : Half) (last : Bool) (w : WStage) : (w.micro i v last).legal := by
  cases w
  case select => exact Micro.select_legal
  case start => exact Micro.start_legal last
  case stop | abortStop => exact Micro.stop_legal last
  case deselect | abortDeselect => exact Micro.deselect_legal
  all_goals trivial

theorem RStage.micro_legal (i : Index) (last : Bool) (r : RStage) : (r.micro i last).legal := by
  cases r
  case select => exact Micro.select_legal
  case start | restart => exact Micro.start_legal last
  case stop => exact Micro.stop_legal last
  case deselect => exact Micro.deselect_legal
  all_goals trivial

theorem Prim.micro_legal (a : Byte) (last : Bool) (p : Prim) : (p.micro a last).legal := by
  cases p
  case select => exact Micro.select_legal
  case deselect => exact Micro.deselect_legal
  case start => exact Micro.start_legal last
  case stop => exact Micro.stop_legal last
  all_goals trivial

theorem micro_legal (s : State) (st : Stage) : (s.micro st).legal := by
  cases st with
  | prim p => exact p.micro_legal _ _
  | word w => exact w.micro_legal _ _ _
  | read r => exact r.micro_legal _ _
  | aWord i r => exact r.micro_legal _ _
  | bWord i w => exact w.micro_legal _ _ _

/-- A property of states that the elementary operations keep: a write of a legal value, with or without its delay, and every
other act. One induction principle serves all that events and whole commands keep. -/
structure State.Kept (P : State → Prop) : Prop where
  lineWrite : ∀ {v : Half} {s : State}, v ∈ Line.legal → P s → P (State.lineWrite v s)
  act : ∀ {o : Act} {s : State}, o.allowed True → P s → P (o.run s)

/-- An event of a bit clock is a write of a legal value, a delay or a sample (R102, R144). -/
theorem bitEvent_cases {P : State → Prop} {s : State} (hw : ∀ v ∈ Line.legal, P (State.lineWrite v s))
    (hd : P (State.delay s)) (hr : P (State.readSample s)) (dbs last : Bool) (p : Nat) :
    P (State.bitEvent dbs last p s) := by
  unfold State.bitEvent
  split
  · exact hw _ (clockLow_legal last)
  · exact hd
  · exact hw _ (clockLow_legal dbs)
  · exact hd
  · exact hw _ (clockHigh_legal dbs)
  · exact hd
  · exact hr

section Kept

variable {P : State → Prop} (k : State.Kept P)
include k

theorem State.Kept.runs {buf : Prop} {s t : State} {n : Nat} (h : s.Runs buf n t) (hs : P s) : P t := by
  induction h with
  | refl n => exact hs
  | @act o n t ho _ ih =>
    refine k.act ?_ ih
    cases o
    case writeDelay => exact ho
    all_goals trivial

theorem State.Kept.exec {i : Instr} {s t : State} (h : exec i s = .next t) (hs : P s) : P t := k.runs (exec_runs h) hs

theorem State.Kept.bitEvent {dbs last : Bool} {p : Nat} {s : State} (hs : P s) : P (State.bitEvent dbs last p s) :=
  bitEvent_cases (fun _ hv => k.lineWrite hv hs) (k.act (o := .delay) trivial hs) (k.act (o := .readSample) trivial hs) _ _ _

theorem State.Kept.countBit {s : State} (hs : P s) : P (State.countBit s) := k.act (o := .setBitcnt _) trivial hs

theorem State.Kept.event {m : Micro} {j : Nat} {s : State} (hm : m.legal) (hs : P s) : P (State.event m j s) := by
  cases m with
  | none => exact hs
  | delay => exact k.act (o := .delay) trivial hs
  | bit dbs last => exact k.bitEvent hs
  | writes ws =>
    simp only [State.event]
    split
    · refine k.lineWrite ?_ hs
      rw [List.getD_eq_getElem?_getD]
      cases hw : ws[j / 2]? with
      | none => decide
      | some v => exact hm v (List.mem_of_getElem? hw)
    · exact k.act (o := .delay) trivial hs
  | send b =>
    simp only [State.event]
    split
    · exact k.countBit (k.bitEvent hs)
    · exact k.bitEvent hs
  | recv =>
    simp only [State.event]
    split
    · exact k.countBit (k.act (o := .shiftAcc) trivial (k.bitEvent hs))
    · exact k.bitEvent hs

end Kept

/-! ### The end of a stage as acts -/

namespace State.Runs

section Leaving

variable {s t : State} {n : Nat} (h : s.Runs True n t)
include h

theorem enterByte {st : Stage} : s.Runs True n (t.enterByte st) := h.enter.setBitcnt

theorem beginRead {at_ : RStage → Stage} : s.Runs True n (t.beginRead at_) := h.setAcc.enter

theorem beginWrite : s.Runs True n t.beginWrite := h.setWword.bufTouch.enter

theorem leavePrim {p : Prim} : s.Runs True n (t.leavePrim p) := by
  cases p
  case bufrd => exact h.bufTouch.complete
  case bufwr => exact (h.bufWrite trivial).complete
  all_goals exact h.complete

theorem leaveWrite {at_ : WStage → Stage} {good : State → State} {bad : BitVec 4 → State → State} {w : WStage}
    (hgood : s.Runs True n (good t)) (hbad : ∀ k, s.Runs True n (bad k t)) :
    s.Runs True n (t.leaveWrite at_ good bad w) := by
  cases w
  case ack1 =>
    simp only [State.leaveWrite]
    split
    · split
      · exact h.enter
      · exact hbad _
    · exact h.enterByte
  case ack2 | ack3 =>
    simp only [State.leaveWrite]
    split
    · exact h.enter
    · exact h.enterByte
  case ack4 =>
    simp only [State.leaveWrite]
    split
    · exact h.enter
    · exact h.enter
  case start => exact h.enterByte
  case deselect => exact hgood
  case abortDeselect k => exact hbad k
  all_goals exact h.enter

theorem leaveRead {at_ : RStage → Stage} {good : State → State} {r : RStage} (hgood : s.Runs True n (good t)) :
    s.Runs True n (t.leaveRead at_ good r) := by
  cases r
  case start | restart | mack => exact h.enterByte
  case ack1 | ack3 => exact h.noteAck.enterByte
  case ack2 => exact h.noteAck.enter
  case deselect => exact hgood
  all_goals exact h.enter

theorem leaveAWord {i : Index} : s.Runs True n (t.leaveAWord i) := by
  have counted : s.Runs True n (State.countWord (State.bufWrite i t.acc t)) := (h.bufWrite trivial).setWidx
  unfold State.leaveAWord
  extract_lets u
  split
  · exact counted.complete
  · exact counted.beginRead

theorem leaveBWord : s.Runs True n t.leaveBWord := by
  have counted : s.Runs True n (State.countWord t) := h.setWidx
  unfold State.leaveBWord
  extract_lets u
  split
  · exact counted.complete
  · exact counted.beginWrite

theorem leave {st : Stage} : s.Runs True n (t.leave st) := by
  unfold State.leave
  cases st with
  | prim p => exact h.leavePrim
  | word w => exact h.leaveWrite h.complete fun _ => h.complete
  | read r => exact h.leaveRead h.complete
  | aWord i r => exact h.leaveRead h.leaveAWord
  | bWord i w => exact h.leaveWrite h.leaveBWord fun _ => h.complete

end Leaving

end State.Runs

theorem State.Kept.tick {P : State → Prop} (k : State.Kept P) {s : State} (hs : P s) : P s.tick := by
  unfold State.tick
  split
  · exact hs
  · next st j _ =>
    extract_lets m t
    have ht : P t := k.event (micro_legal s st) hs
    split
    · exact ht
    · exact k.runs (State.Runs.leave (.refl 0)) ht

end Sys2Proof.Machine

namespace Sys2Proof.Machine

/-! ### Targets in canonical form -/

theorem Table.mem_of_get {α : Type} {k : Nat} {v : α} {t : List (Nat × α)} (h : Table.get k t = some v) : (k, v) ∈ t := by
  induction t with
  | nil => cases h
  | cons e rest ih =>
    obtain ⟨j, u⟩ := e
    simp only [Table.get] at h
    split at h
    · next hj =>
      obtain rfl := Option.some.inj h
      exact hj ▸ List.mem_cons_self
    · exact List.mem_cons_of_mem _ (ih h)

theorem moduleAt_wf {s : State} (h : ∀ e ∈ s.modules, e.2.wf = true) (b : Nat) : (s.moduleAt b).wf = true := by
  unfold State.moduleAt
  cases hg : Table.get b s.modules with
  | none => rfl
  | some m => exact h _ (Table.mem_of_get hg)

/-- Taking a write keeps a target in canonical form (R82 to R86). -/
theorem Module.take_wf {m : Module} (v : Half) (h : m.wf = true) : (m.granted.take v).wf = true := by
  obtain ⟨line, device, grants⟩ := m
  cases device with
  | responder r =>
    obtain ⟨hmem, hmode⟩ := Bool.and_eq_true_iff.1 h
    exact Bool.and_eq_true_iff.2 ⟨r.take_wf v hmem, r.take_modeWf v hmode⟩
  | oracle answers => rfl
  | absent => rfl
  | stuckLow => rfl

/-- Answering a read keeps a target in canonical form (R87). -/
theorem Module.answer_wf {m : Module} (p : Params) (draws : Nat) (h : m.wf = true) :
    ({ m.granted with device := (m.device.answer p m.line draws).2.1 } : Module).wf = true := by
  obtain ⟨line, device, grants⟩ := m
  cases device with
  | responder r => exact h
  | oracle answers => cases answers <;> rfl
  | absent => rfl
  | stuckLow => rfl

theorem modules_put_wf {k : Nat} {m : Module} {t : List (Nat × Module)} (hm : m.wf = true) (ht : ∀ e ∈ t, e.2.wf = true) :
    ∀ e ∈ Table.put k m t, e.2.wf = true := by
  intro e he
  rcases Table.mem_put he with rfl | he
  · exact hm
  · exact ht e he

theorem lineWrite_modules_wf (v : Half) {s : State} (h : ∀ e ∈ s.modules, e.2.wf = true) :
    ∀ e ∈ (State.lineWrite v s).modules, e.2.wf = true := by
  unfold State.lineWrite State.live
  split
  · exact h
  · dsimp only
    split
    · exact h
    · exact modules_put_wf (Module.take_wf v (moduleAt_wf h _)) h

theorem readSample_modules_wf {s : State} (h : ∀ e ∈ s.modules, e.2.wf = true) :
    ∀ e ∈ (State.readSample s).modules, e.2.wf = true := by
  unfold State.readSample State.live
  split
  · exact h
  · dsimp only
    split
    · exact h
    · exact modules_put_wf (Module.answer_wf s.par s.draws (moduleAt_wf h _)) h

/-! ### The invariant `State.inv` -/

theorem State.Logs.legalTrace {s t : State} {evs : List Event} (h : s.Logs t evs)
    (hs : ∀ b v, Event.w b v ∈ s.trace → v ∈ Line.legal) : ∀ b v, Event.w b v ∈ t.trace → v ∈ Line.legal := by
  intro b v hv
  rw [h.ran.1, List.mem_append, List.mem_reverse] at hv
  rcases hv with hv | hv
  · exact h.legal v (List.mem_filterMap.2 ⟨.w v, List.mem_map.2 ⟨_, hv, rfl⟩, rfl⟩)
  · exact hs b v hv

/-- An operation that keeps all the fields the invariant speaks of keeps the invariant. -/
theorem State.inv.of_same {s t : State} (h : s.inv) (hbase : t.base = s.base) (hpar : t.par = s.par)
    (hmod : t.modules = s.modules) (hbuf : t.buf = s.buf) (hdly : t.dlycnt = s.dlycnt) (hrsp : t.rsp = s.rsp)
    (htrace : t.trace = s.trace) : t.inv := by
  simpa only [State.inv, hbase, hpar, hmod, hbuf, hdly, hrsp, htrace] using h

theorem lineWrite_inv {v : Half} (hv : v ∈ Line.legal) {s : State} (h : s.inv) : (State.lineWrite v s).inv := by
  obtain ⟨evs, hlogs⟩ := lineWrite_logs hv s
  obtain ⟨hbase, hbelow, hrising, hbuf, hmrising, hwf, hdly, hrsp, htrace⟩ := h
  simp only [State.inv, lineWrite_base, lineWrite_par, lineWrite_buf, lineWrite_dlycnt, lineWrite_rsp]
  exact ⟨hbase, lineWrite_modules_below v s hbase hbelow, hrising, hbuf, lineWrite_modules_rising v s hmrising,
    lineWrite_modules_wf v hwf, hdly, hrsp, hlogs.legalTrace htrace⟩

theorem readSample_inv {s : State} (h : s.inv) : (State.readSample s).inv := by
  obtain ⟨evs, hlogs⟩ := readSample_logs s
  obtain ⟨hbase, hbelow, hrising, hbuf, hmrising, hwf, hdly, hrsp, htrace⟩ := h
  simp only [State.inv, readSample_base, readSample_par, readSample_buf, readSample_dlycnt, readSample_rsp]
  exact ⟨hbase, readSample_modules_below s hbase hbelow, hrising, hbuf, readSample_modules_rising s hmrising,
    readSample_modules_wf hwf, hdly, hrsp, hlogs.legalTrace htrace⟩

/-- The delay counter is back at 0 when the delay is over (R34). -/
theorem delay_dlycnt {s : State} (h : s.dlycnt = 0) : (State.delay s).dlycnt = 0 := by
  unfold State.delay State.live
  split
  · exact h
  · exact countDown_eq_zero _

theorem delay_inv {s : State} (h : s.inv) : (State.delay s).inv := by
  obtain ⟨evs, hlogs⟩ := delay_logs s
  obtain ⟨hbase, hbelow, hrising, hbuf, hmrising, hwf, hdly, hrsp, htrace⟩ := h
  simp only [State.inv, delay_base, delay_par, delay_buf, delay_modules, delay_rsp]
  exact ⟨hbase, hbelow, hrising, hbuf, hmrising, hwf, delay_dlycnt hdly, hrsp, hlogs.legalTrace htrace⟩

theorem bufWrite_inv (i : Index) (v : Half) {s : State} (h : s.inv) : (State.bufWrite i v s).inv := by
  obtain ⟨hbase, hbelow, hrising, hbuf, hrest⟩ := h
  obtain ⟨hrising', hbuf'⟩ := bufWrite_wf i v s hrising hbuf
  simp only [State.inv, bufWrite_base, bufWrite_par, bufWrite_modules, bufWrite_dlycnt, bufWrite_rsp, bufWrite_trace]
  exact ⟨hbase, hbelow, hrising', hbuf', hrest⟩

/-- Bits 31 to 23 of a packed response are 0 (R35, R106). -/
theorem response_high (rdack : BitVec 3) (status : BitVec 4) (rdata : Half) :
    (Operand.response rdack status rdata).extractLsb' 23 9 = 0#9 := by
  apply BitVec.eq_of_toNat_eq
  have h : (Operand.response rdack status rdata).toNat < 2 ^ 23 := by
    rw [response_eq, Frame.rsp, BitVec.toNat_ofNat]
    omega
  rw [BitVec.extractLsb'_toNat, Nat.shiftRight_eq_div_pow, Nat.div_eq_of_lt h]
  rfl

theorem complete_rsp_high {status : BitVec 4} {rdata : Half} {s : State} (h : s.rsp.extractLsb' 23 9 = 0#9) :
    (State.complete status rdata s).rsp.extractLsb' 23 9 = 0#9 := by
  unfold State.complete State.live
  split
  · exact h
  · exact response_high _ _ _

theorem complete_inv (status : BitVec 4) (rdata : Half) {s : State} (h : s.inv) : (State.complete status rdata s).inv := by
  obtain ⟨hbase, hbelow, hrising, hbuf, hmrising, hwf, hdly, hrsp, htrace⟩ := h
  simp only [State.inv, complete_base, complete_par, complete_buf, complete_modules, complete_dlycnt, complete_trace]
  exact ⟨hbase, hbelow, hrising, hbuf, hmrising, hwf, hdly, complete_rsp_high hrsp, htrace⟩

theorem inv_kept : State.Kept State.inv where
  lineWrite hv h := lineWrite_inv hv h
  act := by
    intro o s ho h
    cases o
    case writeDelay v => exact delay_inv (lineWrite_inv ho h)
    case delay => exact delay_inv h
    case readSample => exact readSample_inv h
    case bufWrite i v => exact bufWrite_inv i v h
    case complete status rdata => exact complete_inv status rdata h
    all_goals apply h.of_same <;> simp [Act.run]

/-- A reset leaves the targets and the trace and takes the registers to values that meet the invariant (R250, R252). -/
theorem afterReset_inv {s : State} (h : s.inv) : s.afterReset.inv := by
  obtain ⟨_, hbelow, _, _, hmrising, hwf, _, _, htrace⟩ := h
  exact ⟨Nat.two_pow_pos _, hbelow, rfl, rfl, hmrising, hwf, rfl, by rw [afterReset_rsp]; decide, htrace⟩

/-- Settles O58. -/
theorem resetInv : Obligations.ResetInv :=
  ⟨Nat.two_pow_pos _, rfl, rfl, rfl, rfl, by simp [State.reset], rfl, rfl, by simp [State.reset]⟩

/-- Taking a request off the port and latching it keeps the invariant: the base address is cut to `ADDR_W` bits (R29). -/
theorem accept_inv (r : Request) {s : State} (h : s.inv) : (State.accept r s).inv := by
  obtain ⟨_, hrest⟩ := h
  have hbase := accept_base_lt r s
  simp only [State.inv, accept_par, accept_modules, accept_buf, accept_dlycnt, accept_rsp, accept_trace]
  exact ⟨hbase, hrest⟩

/-! ### What a step can do -/

/-- What a step with a next state does: the reset, an event of the running command, nothing, or a whole command (R140, R250). -/
theorem step_cases {s t : State} (h : step s = .next t) :
    (s.resetDue = true ∧ t = s.afterReset) ∨
    (s.resetDue = false ∧ s.busy = true ∧ s.seqNamesEvent = true ∧ t = s.tick) ∨
    (s.resetDue = false ∧ s.busy = false ∧ s.script = [] ∧ t = s) ∨
    (s.resetDue = false ∧ s.busy = false ∧ ∃ r rest i, s.script = r :: rest ∧
      decode (Operand.latched r.code (State.accept r { s with script := rest })) = .ok i ∧
      exec i (State.accept r { s with script := rest }) = .next t) := by
  unfold step at h
  split at h
  · next hr => exact .inl ⟨hr, (Host.Outcome.next.inj h).symm⟩
  next hr =>
  refine .inr ?_
  rw [Bool.not_eq_true] at hr
  split at h
  · next hb =>
    split at h
    · next hq => exact .inl ⟨hr, hb, hq, (Host.Outcome.next.inj h).symm⟩
    · cases h
  next hb =>
  rw [Bool.not_eq_true] at hb
  split at h
  · next hs => exact .inr (.inl ⟨hr, hb, hs, (Host.Outcome.next.inj h).symm⟩)
  · next r rest hs =>
    simp only [runRequest] at h
    split at h
    · next i hi => exact .inr (.inr ⟨hr, hb, r, rest, i, hs, hi, h⟩)
    · cases h

/-- Settles O57: each way a step can go keeps the invariant; a tick and a command because the elementary operations do. -/
theorem stepKeepsInv : Obligations.StepKeepsInv := by
  intro s t h hstep
  rcases step_cases hstep with ⟨_, rfl⟩ | ⟨_, _, _, rfl⟩ | ⟨_, _, _, rfl⟩ | ⟨_, _, r, rest, i, _, _, hexec⟩
  · exact afterReset_inv h
  · exact inv_kept.tick h
  · exact h
  · exact inv_kept.exec hexec (accept_inv r h)

/-! ### The latches and the buffer -/

theorem State.latchesKept.trans {s t u : State} (h : s.latchesKept t) (g : t.latchesKept u) : s.latchesKept u := by
  obtain ⟨h1, h2, h3, h4, h5, h6⟩ := h
  obtain ⟨g1, g2, g3, g4, g5, g6⟩ := g
  exact ⟨g1.trans h1, g2.trans h2, g3.trans h3, g4.trans h4, g5.trans h5, g6.trans h6⟩

theorem latchesKept_kept (s : State) : State.Kept s.latchesKept where
  lineWrite _ h := h.trans (by simp [State.latchesKept])
  act {o t} _ h := h.trans (o.run_latchesKept t)

/-- Settles O9: a busy block's step is the reset, which leaves what is presented, or an event, which writes no latch. -/
theorem busyAcceptsNothing : Obligations.BusyAcceptsNothing := by
  intro s t hbusy hstep
  rcases step_cases hstep with ⟨hreset, rfl⟩ | ⟨_, _, _, rfl⟩ | ⟨_, hidle, _⟩ | ⟨_, hidle, _⟩
  · exact ⟨rfl, fun hno => by simp [hreset] at hno⟩
  · obtain ⟨hop, hbase, ha, hdata, _, hscript⟩ := (latchesKept_kept s).tick (s := s) ⟨rfl, rfl, rfl, rfl, rfl, rfl⟩
    exact ⟨hscript, fun _ => ⟨hop, ha, hdata, hbase⟩⟩
  · simp [hbusy] at hidle
  · simp [hbusy] at hidle

/-- Settles O7: acceptance latches the fields, and the command that then runs writes no latch. -/
theorem acceptanceLatches : Obligations.AcceptanceLatches := by
  intro s t w b rest hbusy hreset hscript hstep
  rcases step_cases hstep with ⟨hdue, _⟩ | ⟨_, hb, _⟩ | ⟨_, _, hempty, _⟩ | ⟨_, _, r, rest', i, hs, _, hexec⟩
  · simp [hreset] at hdue
  · simp [hbusy] at hb
  · simp [hscript] at hempty
  · obtain ⟨rfl, rfl⟩ := List.cons.inj (hscript.symm.trans hs)
    obtain ⟨hop, hbase, ha, hdata, _, hrest⟩ := (exec_runs hexec).latchesKept
    exact ⟨hop, ha, hdata, hbase, hrest⟩

theorem State.Runs.buf_kept {buf : Prop} (hb : ¬ buf) {s t : State} {n : Nat} (h : s.Runs buf n t) : t.buf = s.buf := by
  induction h with
  | refl n => rfl
  | @act o n t ho _ ih =>
    rw [← ih]
    cases o
    case bufWrite => exact absurd ho hb
    all_goals simp [Act.run, State.writeDelay]

/-- Settles O30: among the acts of a command only those of `BUFWR` and `RDALL` may write the buffer. -/
theorem bufferWriters : Obligations.BufferWriters := by
  intro i s t h hbufwr hrdall
  refine (exec_runs h).buf_kept ?_
  rintro (⟨k, v, hi⟩ | hi)
  · exact hbufwr k v hi
  · exact hrdall hi

theorem bufTouch_of_unwritten {i : Index} {s : State} (h : s.blocked = false) (hi : Table.get i.toNat s.buf = none) :
    State.bufTouch i s = { s with draws := s.draws + 1 } := by
  rw [State.bufTouch, State.live_of_running h, if_neg (by simp [hi])]

/-- Settles O14: the launch, the free value drawn and the completion, each by its equation. -/
theorem bufrdUnwritten : Obligations.BufrdUnwritten := by
  intro i s h hi
  have launched : (State.launch (.prim .bufrd) s).blocked = false := by simpa [State.blocked] using h
  have unwritten : Table.get i.toNat (State.launch (.prim .bufrd) s).buf = none := by simpa using hi
  have touched : (State.bufTouch i (State.launch (.prim .bufrd) s)).blocked = false := by simpa [State.blocked] using h
  simp only [exec, execBufrd]
  rw [complete_of_running touched, bufTouch_of_unwritten launched unwritten, State.bufValue, unwritten, response_eq,
    launch_of_running h]
  simp [Frame.rsp]

/-- Settles O52. -/
theorem resetValues : Obligations.ResetValues := ⟨rfl, rfl, rfl, rfl, rfl, rfl, rfl, rfl⟩

/-- Settles O60. -/
theorem resetSequenced : Obligations.ResetSequenced :=
  ⟨fun _ => ⟨rfl, rfl⟩, fun h => Bool.noConfusion h, by decide, by decide⟩

end Sys2Proof.Machine

namespace Sys2Proof.Machine

/-! ### A stopped sequence, event by event -/

theorem Act.run_blocked {s : State} (h : s.blocked = true) (o : Act) : o.run s = s := by
  cases o
  case writeDelay v => exact writeDelay_blocked h v
  all_goals
    dsimp only [Act.run]
    exact State.live_of_blocked h

/-- Once the sequence has stopped, no operation changes anything (R74, R253). -/
theorem eq_kept {s : State} (h : s.blocked = true) : State.Kept (· = s) where
  lineWrite := by
    rintro v _ _ rfl
    exact lineWrite_blocked h v
  act := by
    rintro o _ _ rfl
    exact o.run_blocked h

theorem tick_blocked {s : State} (h : s.blocked = true) : s.tick = s := (eq_kept h).tick rfl

theorem ticks_blocked {s : State} (h : s.blocked = true) (n : Nat) : s.ticks n = s := by
  induction n with
  | zero => rfl
  | succ n ih => rw [State.ticks, tick_blocked h, ih]

theorem ticks_add (m n : Nat) (s : State) : s.ticks (m + n) = (s.ticks m).ticks n := by
  induction m generalizing s with
  | zero => rw [Nat.zero_add]; rfl
  | succ m ih => rw [Nat.succ_add]; exact ih s.tick

theorem leave_blocked {s : State} (h : s.blocked = true) (st : Stage) : s.leave st = s :=
  (eq_kept h).runs (State.Runs.leave (.refl 0)) rfl

theorem event_blocked {s : State} (h : s.blocked = true) {m : Micro} (hm : m.legal) (k : Nat) : s.event m k = s :=
  (eq_kept h).event hm rfl

/-! ### One event -/

/-- An event of a running sequence either waits for ever, with nothing changed but the request on the master port (R74), or is
done and moves `SEQ` on (R26). -/
def State.Occurs (s t : State) : Prop :=
  (∃ p : MasterPort, p.req = true ∧ t = { s with mport := p }) ∨ (t.mport.req = false ∧ t.seq = s.seq.advance)

theorem State.running_iff {s : State} : s.blocked = false ↔ s.mport.req = false ∧ s.rst ≠ some 0 := by
  simp [State.blocked]

theorem lineWrite_occurs (v : Half) {s : State} (h : s.blocked = false) : s.Occurs (State.lineWrite v s) := by
  rw [State.lineWrite, State.live_of_running h]
  dsimp only
  split
  · exact .inl ⟨s.writeRequest v, rfl, rfl⟩
  · exact .inr ⟨rfl, rfl⟩

theorem readSample_occurs {s : State} (h : s.blocked = false) : s.Occurs (State.readSample s) := by
  rw [State.readSample, State.live_of_running h]
  dsimp only
  split
  · exact .inl ⟨s.readRequest, rfl, rfl⟩
  · exact .inr ⟨rfl, rfl⟩

theorem delay_occurs {s : State} (h : s.blocked = false) : s.Occurs (State.delay s) := by
  rw [State.delay, State.live_of_running h]
  exact .inr ⟨(State.running_iff.1 h).1, rfl⟩

theorem bitEvent_occurs (dbs last : Bool) (p : Nat) {s : State} (h : s.blocked = false) :
    s.Occurs (State.bitEvent dbs last p s) :=
  bitEvent_cases (fun v _ => lineWrite_occurs v h) (delay_occurs h) (readSample_occurs h) dbs last p

/-- What the block writes beside an event takes no part in whether the event is done. -/
theorem State.Occurs.beside {s t u : State} (h : s.Occurs t) (hstop : t.blocked = true → u = t)
    (hmport : u.mport = t.mport) (hseq : u.seq = t.seq) : s.Occurs u := by
  rcases h with ⟨p, hp, rfl⟩ | ⟨hreq, hadv⟩
  · exact .inl ⟨p, hp, hstop (by simp [State.blocked, hp])⟩
  · exact .inr ⟨by rw [hmport, hreq], by rw [hseq, hadv]⟩

theorem event_occurs {m : Micro} (hm : m ≠ .none) (k : Nat) {s : State} (h : s.blocked = false) :
    s.Occurs (State.event m k s) := by
  cases m with
  | none => exact absurd rfl hm
  | delay => exact delay_occurs h
  | bit dbs last => exact bitEvent_occurs _ _ _ h
  | writes ws =>
    simp only [State.event]
    split
    · exact lineWrite_occurs _ h
    · exact delay_occurs h
  | send b =>
    simp only [State.event]
    split
    · exact (bitEvent_occurs _ _ _ h).beside (fun hb => countBit_blocked hb) (by simp) (by simp)
    · exact bitEvent_occurs _ _ _ h
  | recv =>
    simp only [State.event]
    split
    · have occurs := bitEvent_occurs true s.lastd (k % 7) h
      exact occurs.beside (fun hb => by rw [shiftAcc_blocked hb, countBit_blocked hb]) (by simp) (by simp)
    · exact bitEvent_occurs _ _ _ h

/-- What neither an access nor a delay changes, no event of a bit clock changes. -/
theorem bitEvent_keeps {α : Type} (g : State → α) (hw : ∀ v s, g (State.lineWrite v s) = g s)
    (hd : ∀ s, g (State.delay s) = g s) (hr : ∀ s, g (State.readSample s) = g s) (dbs last : Bool) (p : Nat) (s : State) :
    g (State.bitEvent dbs last p s) = g s :=
  bitEvent_cases (P := fun t => g t = g s) (fun v _ => hw v s) (hd s) (hr s) dbs last p

@[simp] theorem bitEvent_busy (dbs last : Bool) (p : Nat) (s : State) : (State.bitEvent dbs last p s).busy = s.busy :=
  bitEvent_keeps State.busy lineWrite_busy delay_busy readSample_busy dbs last p s
@[simp] theorem bitEvent_bitcnt (dbs last : Bool) (p : Nat) (s : State) : (State.bitEvent dbs last p s).bitcnt = s.bitcnt :=
  bitEvent_keeps State.bitcnt lineWrite_bitcnt delay_bitcnt readSample_bitcnt dbs last p s
@[simp] theorem bitEvent_a (dbs last : Bool) (p : Nat) (s : State) : (State.bitEvent dbs last p s).a = s.a :=
  bitEvent_keeps State.a lineWrite_a delay_a readSample_a dbs last p s
@[simp] theorem bitEvent_data (dbs last : Bool) (p : Nat) (s : State) : (State.bitEvent dbs last p s).data = s.data :=
  bitEvent_keeps State.data lineWrite_data delay_data readSample_data dbs last p s
@[simp] theorem bitEvent_wword (dbs last : Bool) (p : Nat) (s : State) : (State.bitEvent dbs last p s).wword = s.wword :=
  bitEvent_keeps State.wword lineWrite_wword delay_wword readSample_wword dbs last p s
@[simp] theorem bitEvent_widx (dbs last : Bool) (p : Nat) (s : State) : (State.bitEvent dbs last p s).widx = s.widx :=
  bitEvent_keeps State.widx lineWrite_widx delay_widx readSample_widx dbs last p s

/-- What a running stage takes its operands and its place from: `A`, `DATA`, the held word, `WIDX` (R29, R76, R204). -/
def State.operandsKept (s t : State) : Prop := t.a = s.a ∧ t.data = s.data ∧ t.wword = s.wword ∧ t.widx = s.widx

theorem State.operandsKept.trans {s t u : State} (h : s.operandsKept t) (g : t.operandsKept u) : s.operandsKept u := by
  obtain ⟨h1, h2, h3, h4⟩ := h
  obtain ⟨g1, g2, g3, g4⟩ := g
  exact ⟨g1.trans h1, g2.trans h2, g3.trans h3, g4.trans h4⟩

theorem event_operandsKept (m : Micro) (k : Nat) (s : State) : s.operandsKept (State.event m k s) := by
  cases m <;> simp only [State.event]
  case none | delay | bit => simp [State.operandsKept]
  all_goals split <;> simp [State.operandsKept]

/-! ### The events of a stage -/

/-- `n` events of a micro-sequence from number `k` on. -/
def State.perform (m : Micro) (k : Nat) : Nat → State → State
  | 0, s => s
  | n + 1, s => State.perform m (k + 1) n (State.event m k s)

/-- All events of a micro-sequence. -/
def State.play (m : Micro) (s : State) : State := State.perform m 0 m.length s

theorem perform_add (m : Micro) (k n j : Nat) (s : State) :
    State.perform m k (n + j) s = State.perform m (k + n) j (State.perform m k n s) := by
  induction n generalizing k s with
  | zero => rw [Nat.zero_add]; rfl
  | succ n ih => rw [Nat.succ_add, State.perform, ih, State.perform, Nat.add_assoc, Nat.add_comm 1 n]

theorem perform_operandsKept (m : Micro) (k n : Nat) (s : State) : s.operandsKept (State.perform m k n s) := by
  induction n generalizing k s with
  | zero => exact ⟨rfl, rfl, rfl, rfl⟩
  | succ n ih => exact (event_operandsKept m k s).trans (ih _ _)

theorem perform_blocked {s : State} (h : s.blocked = true) {m : Micro} (hm : m.legal) (k n : Nat) :
    State.perform m k n s = s := by
  induction n generalizing k with
  | zero => rfl
  | succ n ih => rw [State.perform, event_blocked h hm, ih]

theorem play_start (s : State) : State.play (Micro.start s.lastd) s = State.startSeq s := by
  simp [State.play, State.perform, State.event, Micro.start, Micro.length, State.startSeq, State.writeDelay]

theorem play_stop (s : State) : State.play (Micro.stop s.lastd) s = State.stopSeq s := by
  simp [State.play, State.perform, State.event, Micro.stop, Micro.length, State.stopSeq, State.writeDelay]

/-- The seven events of one bit of a byte sent (R150, R158). -/
theorem perform_send_bit (b : Byte) (j : Nat) (s : State) :
    State.perform (.send b) (7 * j) 7 s =
      State.countBit (State.bitClk (Operand.msbFirst b s.bitcnt.toNat) s.lastd s) := by
  simp [State.perform, State.event, State.bitEvent, State.bitClk, State.writeDelay, Nat.add_assoc]

theorem perform_recv_bit (j : Nat) (s : State) :
    State.perform .recv (7 * j) 7 s = State.countBit (State.shiftAcc (State.bitClk true s.lastd s)) := by
  simp [State.perform, State.event, State.bitEvent, State.bitClk, State.writeDelay, Nat.add_assoc]

theorem perform_send (b : Byte) (n j : Nat) (s : State) :
    State.perform (.send b) (7 * j) (7 * n) s = State.sendBits b n s := by
  induction n generalizing j s with
  | zero => rfl
  | succ n ih =>
    rw [Nat.mul_succ, Nat.add_comm, perform_add, perform_send_bit, State.sendBits, ← ih (j + 1)]
    rfl

theorem perform_recv (n j : Nat) (s : State) : State.perform .recv (7 * j) (7 * n) s = State.recvBits n s := by
  induction n generalizing j s with
  | zero => rfl
  | succ n ih =>
    rw [Nat.mul_succ, Nat.add_comm, perform_add, perform_recv_bit, State.recvBits, ← ih (j + 1)]
    rfl

theorem play_send (b : Byte) (s : State) : State.play (.send b) s = State.sendBits b 8 s := perform_send b 8 0 s

theorem play_recv (s : State) : State.play .recv s = State.recvBits 8 s := perform_recv 8 0 s

/-! ### Running a stage to its end -/

/-- Two micro-sequences that differ in their first event at most. -/
def Micro.SameTail (m m' : Micro) : Prop := m.length = m'.length ∧ ∀ k s, State.event m (k + 1) s = State.event m' (k + 1) s

theorem Micro.SameTail.refl (m : Micro) : m.SameTail m := ⟨rfl, fun _ _ => rfl⟩

/-- Only the first write of a sequence of writes depends on the value it starts from. -/
theorem Micro.writes_sameTail (v v' : Half) (ws : List Half) :
    (Micro.writes (v :: ws)).SameTail (Micro.writes (v' :: ws)) := by
  refine ⟨rfl, fun k s => ?_⟩
  simp only [State.event]
  split
  · obtain ⟨j, hj⟩ : ∃ j, (k + 1) / 2 = j + 1 := ⟨(k + 1) / 2 - 1, by omega⟩
    rw [hj]
    rfl
  · rfl

theorem WStage.micro_sameTail (i : Index) (v : Half) (l l' : Bool) (w : WStage) :
    (w.micro i v l).SameTail (w.micro i v l') := by
  cases w
  case start | stop | abortStop => exact Micro.writes_sameTail _ _ _
  all_goals exact .refl _

theorem RStage.micro_sameTail (i : Index) (l l' : Bool) (r : RStage) : (r.micro i l).SameTail (r.micro i l') := by
  cases r
  case start | restart | stop => exact Micro.writes_sameTail _ _ _
  all_goals exact .refl _

theorem Prim.micro_sameTail (a : Byte) (l l' : Bool) (p : Prim) : (p.micro a l).SameTail (p.micro a l') := by
  cases p
  case start | stop => exact Micro.writes_sameTail _ _ _
  all_goals exact .refl _

/-- A stage that is on its way keeps its micro-sequence: only its first event depends on `LASTD` (R29, R76). -/
theorem micro_sameTail {s t : State} (h : s.operandsKept t) (st : Stage) : (t.micro st).SameTail (s.micro st) := by
  obtain ⟨ha, hdata, hwword, _⟩ := h
  cases st with
  | prim p => simpa only [State.micro, ha] using p.micro_sameTail _ _ _
  | word w => simpa only [State.micro, ha, hdata] using w.micro_sameTail _ _ _ _
  | read r => simpa only [State.micro, ha] using r.micro_sameTail _ _ _
  | aWord i r => exact r.micro_sameTail _ _ _
  | bWord i w => simpa only [State.micro, hwword] using w.micro_sameTail _ _ _ _

theorem Micro.SameTail.perform {m m' : Micro} (h : m.SameTail m') (k n : Nat) (s : State) :
    State.perform m (k + 1) n s = State.perform m' (k + 1) n s := by
  induction n generalizing k s with
  | zero => rfl
  | succ n ih => rw [State.perform, State.perform, h.2, ih]

theorem tick_of_run {s : State} {st : Stage} {k : Nat} (h : s.seq = .run st k) :
    s.tick = if k + 1 < (s.micro st).length then State.event (s.micro st) k s
      else State.leave st (State.event (s.micro st) k s) := by
  simp only [State.tick, h]

/-- `SEQ` is at event `k` of a stage, or the sequence has stopped. -/
def State.At (s : State) (st : Stage) (k : Nat) : Prop := s.blocked = true ∨ s.seq = .run st k

theorem event_at {s : State} {st : Stage} {k : Nat} {m : Micro} (hm : m ≠ .none) (hb : s.blocked = false)
    (h : s.seq = .run st k) : (State.event m k s).At st (k + 1) := by
  rcases event_occurs hm k hb with ⟨p, hp, ht⟩ | ⟨_, hseq⟩
  · exact .inl (by simp [ht, State.blocked, hp])
  · exact .inr (by rw [hseq, h]; rfl)

/-- From event `k` of a stage the ticks perform its remaining `n + 1` events and then leave it. -/
theorem ticks_perform {s : State} {st : Stage} {k n : Nat} (h : s.At st k) (hn : (s.micro st).length - (k + 1) = n) :
    s.ticks (n + 1) = State.leave st (State.perform (s.micro st) k (n + 1) s) := by
  induction n generalizing k s with
  | zero =>
    rcases h with hb | hseq
    · rw [ticks_blocked hb, perform_blocked hb (micro_legal s st), leave_blocked hb]
    · exact (tick_of_run hseq).trans (if_neg (by omega))
  | succ n ih =>
    by_cases hb : s.blocked = true
    · rw [ticks_blocked hb, perform_blocked hb (micro_legal s st), leave_blocked hb]
    · have hseq : s.seq = .run st k := h.resolve_left hb
      have hm : s.micro st ≠ .none := by
        intro he
        rw [he, Micro.length] at hn
        omega
      have same := micro_sameTail (event_operandsKept (s.micro st) k s) st
      have next := ih (event_at hm (by simpa using hb) hseq) (by rw [same.1]; omega)
      rw [State.ticks, tick_of_run hseq, if_pos (by omega), next, same.perform]
      rfl

theorem micro_eq_none {s : State} {st : Stage} (h : (s.micro st).length = 0) : s.micro st = .none := by
  have hw : ∀ i v l (w : WStage), (w.micro i v l).length ≠ 0 := by
    intro i v l w
    cases w <;> simp [WStage.micro, Micro.select, Micro.deselect, Micro.start, Micro.stop, Micro.length]
  have hr : ∀ i l (r : RStage), (r.micro i l).length ≠ 0 := by
    intro i l r
    cases r <;> simp [RStage.micro, Micro.select, Micro.deselect, Micro.start, Micro.stop, Micro.length]
  cases st with
  | prim p =>
    cases p
    case bufrd | bufwr | illegal => rfl
    all_goals cases h
  | word w => exact absurd h (hw _ _ _ w)
  | read r => exact absurd h (hr _ _ r)
  | aWord i r => exact absurd h (hr _ _ r)
  | bWord i w => exact absurd h (hw _ _ _ w)

/-- Ticks take a stage from its first event to its end. -/
theorem ticks_stage {s : State} {st : Stage} (h : s.At st 0) :
    ∃ n, s.ticks n = State.leave st (State.play (s.micro st) s) := by
  refine ⟨_, (ticks_perform h rfl).trans ?_⟩
  rw [State.play]
  cases hlen : (s.micro st).length with
  | succ n => rfl
  | zero =>
    rw [micro_eq_none hlen]
    rfl

end Sys2Proof.Machine

namespace Sys2Proof.Machine

/-! ### From stage to stage -/

/-- Ticks take the running command from `s` to `t`, at the first event of the stage `st` or stopped before it. -/
structure State.Reaches (s : State) (st : Stage) (t : State) : Prop where
  ticks : ∃ n, s.ticks n = t
  at_start : t.At st 0
  kept : s.operandsKept t

theorem enter_at (st : Stage) (s : State) : (State.enter st s).At st 0 := by
  unfold State.enter State.live
  split
  · next h => exact .inl h
  · exact .inr rfl

theorem launch_at (st : Stage) (s : State) : (State.launch st s).At st 0 := by
  unfold State.launch State.live
  split
  · next h => exact .inl h
  · exact .inr rfl

theorem State.At.setBitcnt {s : State} {st : Stage} {k : Nat} (h : s.At st k) (v : BitVec 4) :
    (State.setBitcnt v s).At st k := by simpa [State.At, State.blocked] using h

theorem enterByte_at (st : Stage) (s : State) : (State.enterByte st s).At st 0 := (enter_at st s).setBitcnt 0#4

theorem State.Reaches.start {s : State} {st : Stage} (h : s.At st 0) : s.Reaches st s :=
  ⟨⟨0, rfl⟩, h, rfl, rfl, rfl, rfl⟩

theorem State.Reaches.leave {s t : State} {st : Stage} (h : s.Reaches st t) :
    ∃ n, s.ticks n = State.leave st (State.play (t.micro st) t) := by
  obtain ⟨m, hm⟩ := h.ticks
  obtain ⟨n, hn⟩ := ticks_stage h.at_start
  exact ⟨m + n, by rw [ticks_add, hm, hn]⟩

theorem State.Reaches.played {s t : State} {st : Stage} (h : s.Reaches st t) :
    s.operandsKept (State.play (t.micro st) t) := h.kept.trans (perform_operandsKept _ _ _ t)

/-- On to the next stage. -/
theorem State.Reaches.next {s t u : State} {st st' : Stage} (h : s.Reaches st t)
    (hl : State.leave st (State.play (t.micro st) t) = u) (hat : u.At st' 0)
    (hk : (State.play (t.micro st) t).operandsKept u) : s.Reaches st' u :=
  ⟨hl ▸ h.leave, hat, h.played.trans hk⟩

/-! ### A word read, stage by stage (R183, R184) -/

/-- What a stage of a word read does. -/
def RStage.play (i : Index) (s : State) : RStage → State
  | .select => State.selectSeq s
  | .start => State.startSeq s
  | .opcodeW => State.sendBits Config.opWrite 8 s
  | .ack1 => State.ackChk s
  | .addr => State.sendBits (Operand.addrByte i) 8 s
  | .ack2 => State.ackChk s
  | .restart => State.startSeq s
  | .opcodeR => State.sendBits Config.opRead 8 s
  | .ack3 => State.ackChk s
  | .rxhi => State.recvBits 8 s
  | .mack => State.sendAck s
  | .rxlo => State.recvBits 8 s
  | .mnack => State.sendNack s
  | .stop => State.stopSeq s
  | .deselect => State.deselectSeq s

theorem play_read (i : Index) (s : State) (r : RStage) : State.play (r.micro i s.lastd) s = r.play i s := by
  cases r
  case start | restart => exact play_start s
  case stop => exact play_stop s
  case opcodeW | addr | opcodeR => exact play_send _ s
  case rxhi | rxlo => exact play_recv s
  all_goals rfl

/-- The stage after a stage of a word read (R184). -/
def RStage.next : RStage → RStage
  | .select => .start
  | .start => .opcodeW
  | .opcodeW => .ack1
  | .ack1 => .addr
  | .addr => .ack2
  | .ack2 => .restart
  | .restart => .opcodeR
  | .opcodeR => .ack3
  | .ack3 => .rxhi
  | .rxhi => .mack
  | .mack => .rxlo
  | .rxlo => .mnack
  | .mnack => .stop
  | .stop => .deselect
  | .deselect => .deselect

theorem leaveRead_at {r : RStage} (hr : r ≠ .deselect) (at_ : RStage → Stage) (good : State → State) (s : State) :
    (State.leaveRead at_ good r s).At (at_ r.next) 0 := by
  cases r
  case deselect => exact absurd rfl hr
  case start | ack1 | restart | ack3 | mack => exact enterByte_at _ _
  all_goals exact enter_at _ _

theorem leaveRead_operandsKept {r : RStage} (hr : r ≠ .deselect) (at_ : RStage → Stage) (good : State → State) (s : State) :
    s.operandsKept (State.leaveRead at_ good r s) := by
  cases r
  case deselect => exact absurd rfl hr
  all_goals simp [State.leaveRead, State.enterByte, State.operandsKept]

section Read

variable {at_ : RStage → Stage} {i : Index} {good : State → State} {s : State}
  (hmicro : ∀ t, s.operandsKept t → ∀ r, t.micro (at_ r) = r.micro i t.lastd)
  (hleave : ∀ r t, State.leave (at_ r) t = State.leaveRead at_ good r t)
include hmicro hleave

theorem State.Reaches.read {r : RStage} {t : State} (h : s.Reaches (at_ r) t) (hr : r ≠ .deselect) :
    s.Reaches (at_ r.next) (State.leaveRead at_ good r (r.play i t)) := by
  have hplay : State.play (t.micro (at_ r)) t = r.play i t := by rw [hmicro t h.kept, play_read]
  rw [← hplay]
  exact h.next (hleave r _) (leaveRead_at hr _ _ _) (leaveRead_operandsKept hr _ _ _)

theorem State.Reaches.readLast {t : State} (h : s.Reaches (at_ .deselect) t) :
    s.operandsKept (State.deselectSeq t) ∧ ∃ n, s.ticks n = good (State.deselectSeq t) := by
  have hplay : State.play (t.micro (at_ .deselect)) t = State.deselectSeq t := by rw [hmicro t h.kept]; rfl
  rw [← hplay]
  obtain ⟨n, hn⟩ := h.leave
  exact ⟨h.played, n, hn.trans (hleave .deselect _)⟩

/-- Ticks take a word read from its first stage to its end. -/
theorem readWord_ticks (h : s.At (at_ .select) 0) :
    s.operandsKept (State.readWord at_ i s) ∧ ∃ n, s.ticks n = good (State.readWord at_ i s) := by
  have read {r t} (g : s.Reaches (at_ r) t) (hr : r ≠ .deselect) := g.read hmicro hleave hr
  have start := read (.start h) (by decide)
  have addressed := read (read (read (read (read start (by decide)) (by decide)) (by decide)) (by decide)) (by decide)
  have turned := read (read (read addressed (by decide)) (by decide)) (by decide)
  have received := read (read (read (read turned (by decide)) (by decide)) (by decide)) (by decide)
  exact (read received (by decide)).readLast hmicro hleave

end Read

/-! ### A word write, stage by stage (R180, R181, R182) -/

/-- What a stage of a word write does. -/
def WStage.play (i : Index) (v : Half) (s : State) : WStage → State
  | .select => State.selectSeq s
  | .start => State.startSeq s
  | .opcode => State.sendBits Config.opWrite 8 s
  | .ack1 => State.ackChk s
  | .addr => State.sendBits (Operand.addrByte i) 8 s
  | .ack2 => State.ackChk s
  | .dhi => State.sendBits (Operand.hiByte v) 8 s
  | .ack3 => State.ackChk s
  | .dlo => State.sendBits (Operand.loByte v) 8 s
  | .ack4 => State.ackChk s
  | .stop => State.stopSeq s
  | .deselect => State.deselectSeq s
  | .abortStop _ => State.stopSeq s
  | .abortDeselect _ => State.deselectSeq s

theorem play_write (i : Index) (v : Half) (s : State) (w : WStage) : State.play (w.micro i v s.lastd) s = w.play i v s := by
  cases w
  case start => exact play_start s
  case stop | abortStop => exact play_stop s
  case opcode | addr | dhi | dlo => exact play_send _ s
  all_goals rfl

/-- The end of a word write: `good`, or after the abort path of the failing checkpoint `bad` (R180, R182). -/
def State.wordEnd (at_ : WStage → Stage) (good : State → State) (bad : BitVec 4 → State → State)
    (r : BitVec 4 × State) : State :=
  if r.1 = 0#4 then good r.2 else bad r.1 (State.abortPath at_ r.1 r.2)

/-- The number of the checkpoint that a stage is, 0 for none (R181). -/
def WStage.checkpoint : WStage → BitVec 4
  | .ack1 => 1#4
  | .ack2 => 2#4
  | .ack3 => 3#4
  | .ack4 => 4#4
  | _ => 0#4

/-- A failing checkpoint leads to the abort path, but at checkpoint 1 of a build without the cleanup (R182, R228). -/
theorem leaveWrite_nack {w : WStage} (hw : w.checkpoint ≠ 0#4) (at_ : WStage → Stage) (good : State → State)
    (bad : BitVec 4 → State → State) {s : State} (h : s.sample = true) :
    State.leaveWrite at_ good bad w s =
      if w.checkpoint = 1#4 ∧ s.par.ack1Cleanup = false then bad w.checkpoint s
      else State.enter (at_ (.abortStop w.checkpoint)) s := by
  cases w
  case ack1 => cases hc : s.par.ack1Cleanup <;> simp [State.leaveWrite, WStage.checkpoint, h, hc]
  case ack2 | ack3 | ack4 => simp [State.leaveWrite, WStage.checkpoint, h]
  all_goals exact absurd rfl hw

section Write

variable {at_ : WStage → Stage} {i : Index} {v : Half} {good : State → State} {bad : BitVec 4 → State → State} {s : State}
  (hmicro : ∀ t, s.operandsKept t → ∀ w, t.micro (at_ w) = w.micro i v t.lastd)
  (hleave : ∀ w t, State.leave (at_ w) t = State.leaveWrite at_ good bad w t)
include hmicro hleave

theorem State.Reaches.writePlay {w : WStage} {t u : State} (h : s.Reaches (at_ w) t) (hu : w.play i v t = u) :
    s.operandsKept u ∧ ∃ n, s.ticks n = State.leaveWrite at_ good bad w u := by
  have hplay : State.play (t.micro (at_ w)) t = u := by rw [hmicro t h.kept, play_write, hu]
  rw [← hplay]
  exact ⟨h.played, hleave w _ ▸ h.leave⟩

theorem State.Reaches.write {w w' : WStage} {t u : State} (h : s.Reaches (at_ w) t) (hu : w.play i v t = u)
    (hnext : State.leaveWrite at_ good bad w u = State.enter (at_ w') u) : s.Reaches (at_ w') (State.enter (at_ w') u) := by
  obtain ⟨kept, ticks⟩ := h.writePlay hmicro hleave hu
  exact ⟨hnext ▸ ticks, enter_at _ _, kept.trans (by simp [State.operandsKept])⟩

theorem State.Reaches.writeByte {w w' : WStage} {t u : State} (h : s.Reaches (at_ w) t) (hu : w.play i v t = u)
    (hnext : State.leaveWrite at_ good bad w u = State.enterByte (at_ w') u) :
    s.Reaches (at_ w') (State.enterByte (at_ w') u) := by
  obtain ⟨kept, ticks⟩ := h.writePlay hmicro hleave hu
  exact ⟨hnext ▸ ticks, enterByte_at _ _, kept.trans (by simp [State.enterByte, State.operandsKept])⟩

/-- A failing checkpoint ends the word by its abort path (R182). -/
theorem State.Reaches.abort {w : WStage} {t u : State} (h : s.Reaches (at_ w) t) (hu : w.play i v t = u)
    (hw : w.checkpoint ≠ 0#4) (nack : u.sample = true) :
    s.operandsKept u ∧ ∃ n, s.ticks n = State.wordEnd at_ good bad (w.checkpoint, u) := by
  obtain ⟨kept, ticks⟩ := h.writePlay hmicro hleave hu
  have hnext := leaveWrite_nack hw at_ good bad nack
  refine ⟨kept, ?_⟩
  simp only [State.wordEnd, if_neg hw, State.abortPath]
  split
  · next hdefect => rwa [hnext, if_pos hdefect] at ticks
  · next hclean =>
    have stop := h.write hmicro hleave hu (hnext.trans (if_neg hclean))
    obtain ⟨_, ticks⟩ := (stop.write (w' := .abortDeselect _) hmicro hleave rfl rfl).writePlay hmicro hleave rfl
    exact ticks

/-- Ticks take a word write from its first stage to its end. -/
theorem writeWord_ticks (h : s.At (at_ .select) 0) :
    s.operandsKept (State.writeWord at_ i v s).2 ∧
      ∃ n, s.ticks n = State.wordEnd at_ good bad (State.writeWord at_ i v s) := by
  have write {w w' t u} (g : s.Reaches (at_ w) t) (hu : w.play i v t = u) := g.write (w' := w') hmicro hleave hu
  have writeByte {w w' t u} (g : s.Reaches (at_ w) t) (hu : w.play i v t = u) := g.writeByte (w' := w') hmicro hleave hu
  have start := write (.start h) rfl (w' := .start) rfl
  have ack1 := write (writeByte start rfl (w' := .opcode) rfl) rfl (w' := .ack1) rfl
  unfold State.writeWord
  extract_lets s1 s2 s3 s4
  have play1 : WStage.ack1.play i v _ = s1 := rfl
  have play2 : WStage.ack2.play i v (State.enter (at_ .ack2) (WStage.addr.play i v (State.enterByte (at_ .addr) s1))) = s2 := rfl
  have play3 : WStage.ack3.play i v (State.enter (at_ .ack3) (WStage.dhi.play i v (State.enterByte (at_ .dhi) s2))) = s3 := rfl
  have play4 : WStage.ack4.play i v (State.enter (at_ .ack4) (WStage.dlo.play i v (State.enterByte (at_ .dlo) s3))) = s4 := rfl
  clear_value s1 s2 s3 s4
  split
  · next nack => exact ack1.abort hmicro hleave play1 (by decide) nack
  next hack1 =>
  have ack2 := write (writeByte ack1 play1 (w' := .addr) (if_neg hack1)) rfl (w' := .ack2) rfl
  split
  · next nack => exact ack2.abort hmicro hleave play2 (by decide) nack
  next hack2 =>
  have ack3 := write (writeByte ack2 play2 (w' := .dhi) (if_neg hack2)) rfl (w' := .ack3) rfl
  split
  · next nack => exact ack3.abort hmicro hleave play3 (by decide) nack
  next hack3 =>
  have ack4 := write (writeByte ack3 play3 (w' := .dlo) (if_neg hack3)) rfl (w' := .ack4) rfl
  split
  · next nack => exact ack4.abort hmicro hleave play4 (by decide) nack
  next hack4 =>
  have stop := write ack4 play4 (w' := .stop) (if_neg hack4)
  exact (write stop rfl (w' := .deselect) rfl).writePlay hmicro hleave rfl

end Write

end Sys2Proof.Machine

namespace Sys2Proof.Machine

/-! ### A command, stage by stage -/

/-- The latches hold the operands of an instruction (R29, R105). -/
def State.latched (s : State) : Instr → Prop
  | .bitclk dbs lastdbs => Decode.dbs s.a = dbs ∧ Decode.lastarg s.a = lastdbs
  | .sendop code => s.a = code
  | .rdword index => Decode.index s.a = index
  | .wrword index data => Decode.index s.a = index ∧ s.data = data
  | .bufrd index => Decode.index s.a = index
  | .bufwr index data => Decode.index s.a = index ∧ s.data = data
  | .eeWrite => s.a = Config.opWrite
  | .eeRead => s.a = Config.opRead
  | _ => True

theorem fields_latched (op : BitVec 4) (s : State) : s.latched (Decode.fields op s.a s.data) := by
  unfold Decode.fields
  split
  -- by the number of the decoder's arm: two operands in BITCLK, WRWORD and BUFWR, one in SENDOP, RDWORD and BUFRD
  case h_3 | h_10 | h_14 => exact ⟨rfl, rfl⟩
  case h_8 | h_9 | h_13 => exact rfl
  all_goals trivial

theorem eeprom_latched {b : Byte} {i : Instr} {s : State} (h : Decode.eeprom b = .ok i) (hs : s.a = b) : s.latched i := by
  unfold Decode.eeprom at h
  split at h
  · next hb =>
    obtain rfl := Except.ok.inj h
    exact hs.trans hb
  · split at h
    · next hb =>
      obtain rfl := Except.ok.inj h
      exact hs.trans hb
    · cases h

theorem accept_latched {r : Request} {i : Instr} (h : decode r.code = .ok i) (s : State) :
    (State.accept r s).latched i := by
  obtain ⟨code, base⟩ := r
  cases code with
  | cmd w =>
    obtain rfl := Except.ok.inj h
    exact fields_latched (Decode.op w) (State.accept ⟨.cmd w, base⟩ s)
  | eeop b => exact eeprom_latched h rfl

/-- `A` of a command word built from its fields (R103). -/
theorem a_cmd (op : BitVec 4) (a : Byte) (d : Half) : Decode.a (op ++ 0#4 ++ a ++ d) = a := by
  apply BitVec.eq_of_getLsbD_eq
  intro j hj
  simp only [Decode.a, BitVec.getLsbD_extractLsb', BitVec.getLsbD_append, hj, decide_true, Bool.true_and]
  rw [if_neg (by omega), if_pos (by omega), show 16 + j - 16 = j by omega]

/-- `DATA` of a command word built from its fields (R103). -/
theorem data_cmd (op : BitVec 4) (a : Byte) (d : Half) : Decode.data (op ++ 0#4 ++ a ++ d) = d := by
  apply BitVec.eq_of_getLsbD_eq
  intro j hj
  simp only [Decode.data, BitVec.getLsbD_extractLsb', BitVec.getLsbD_append, hj, decide_true, Bool.true_and]
  rw [if_pos (by omega), Nat.zero_add]

/-- What the latches decode to has its operands in them (R29, R76). -/
theorem latched_of_decode {c : Code} {i : Instr} {s : State} (h : decode (Operand.latched c s) = .ok i) : s.latched i := by
  cases c with
  | cmd w =>
    obtain rfl := Except.ok.inj h
    rw [a_cmd, data_cmd]
    exact fields_latched _ s
  | eeop b => exact eeprom_latched h rfl

/-- What the stage of a one-stage command does. -/
def Prim.play (s : State) : Prim → State
  | .delay => State.delay s
  | .bitclk => State.bitClk (Decode.dbs s.a) (Decode.lastarg s.a) s
  | .select => State.selectSeq s
  | .deselect => State.deselectSeq s
  | .start => State.startSeq s
  | .stop => State.stopSeq s
  | .sendop => State.sendBits s.a 8 s
  | .bufrd => s
  | .bufwr => s
  | .illegal => s

theorem play_prim (s : State) (p : Prim) : State.play (p.micro s.a s.lastd) s = p.play s := by
  cases p
  case start => exact play_start s
  case stop => exact play_stop s
  case sendop => exact play_send s.a s
  all_goals rfl

/-- Ticks take a one-stage command from its start to its completion (R142). -/
theorem prim_ticks {s : State} {p : Prim} (h : s.At (.prim p) 0) : ∃ n, s.ticks n = State.leavePrim p (p.play s) := by
  rw [← play_prim]
  exact ticks_stage h

/-! ### The words of a bulk command (R200, R201, R204) -/

theorem beginRead_blocked {s : State} (h : s.blocked = true) (at_ : RStage → Stage) : State.beginRead at_ s = s :=
  (eq_kept h).runs (State.Runs.refl 0).beginRead rfl

theorem beginWrite_blocked {s : State} (h : s.blocked = true) : s.beginWrite = s :=
  (eq_kept h).runs (State.Runs.refl 0).beginWrite rfl

theorem beginRead_at (at_ : RStage → Stage) (s : State) : (State.beginRead at_ s).At (at_ .select) 0 := enter_at _ _

theorem beginWrite_at (s : State) : (State.beginWrite s).At (.bWord (Operand.slot s.widx) .select) 0 := enter_at _ _

@[simp] theorem beginRead_widx (at_ : RStage → Stage) (s : State) : (State.beginRead at_ s).widx = s.widx := by
  simp [State.beginRead]

@[simp] theorem beginWrite_widx (s : State) : (State.beginWrite s).widx = s.widx := by simp [State.beginWrite]

theorem blocked_countWord {s : State} : (State.countWord s).blocked = s.blocked := by simp [State.countWord, State.blocked]

theorem countWord_widx {s : State} (h : s.blocked = false) : (State.countWord s).widx = s.widx + 1#8 := by
  rw [State.countWord, State.setWidx, State.live_of_running h]

/-- The word counter, or the sequence has stopped. -/
def State.Counts (s : State) (k : Nat) : Prop := s.blocked = true ∨ s.widx.toNat = k

theorem countWord_counts {s t : State} {k : Nat} (hk : k < 128) (h : s.Counts k) (hstop : s.blocked = true → t.blocked = true)
    (hw : t.widx = s.widx) : (State.countWord t).Counts (k + 1) := by
  by_cases hb : t.blocked = true
  · exact .inl (blocked_countWord.trans hb)
  · have hs := h.resolve_left fun hs => hb (hstop hs)
    refine .inr ?_
    rw [countWord_widx (by simpa using hb), hw, BitVec.toNat_add, hs]
    simp
    omega

/-- Whether a bulk command goes on to its next word is told by how many words are done (R204). -/
theorem State.Counts.next {s : State} {k : Nat} (h : s.Counts k) {next : State → State}
    (hstop : s.blocked = true → next s = s) :
    (if s.widx = 128#8 then State.complete 0#4 0#16 s else next s) =
      if k = 128 then State.complete 0#4 0#16 s else next s := by
  rcases h with hb | hk
  · rw [complete_blocked hb, hstop hb, ite_self, ite_self]
  · have : s.widx = 128#8 ↔ k = 128 := by rw [← hk, ← BitVec.toNat_inj]; rfl
    simp only [this]

/-- Ticks take one word of `RDALL` to the start of the next, or to the completion (R200). -/
theorem rdallWord_ticks {u : State} {k : Nat} (hk : k < 128) (h : u.Counts k) :
    u.rdallWord.Counts (k + 1) ∧
    ∃ n, State.ticks n (State.beginRead (.aWord (Operand.slot u.widx)) u) =
      if k + 1 = 128 then State.complete 0#4 0#16 u.rdallWord
      else State.beginRead (.aWord (Operand.slot u.rdallWord.widx)) u.rdallWord := by
  obtain ⟨⟨_, _, _, hwidx⟩, n, hn⟩ := readWord_ticks (i := Operand.slot u.widx)
    (good := State.leaveAWord (Operand.slot u.widx)) (fun _ _ _ => rfl) (fun _ _ => rfl)
    (beginRead_at (.aWord (Operand.slot u.widx)) u)
  have counts : u.rdallWord.Counts (k + 1) := by
    refine countWord_counts hk h (fun hb => ?_) ((bufWrite_widx _ _ _).trans (hwidx.trans (beginRead_widx _ u)))
    rw [(eq_kept hb).runs ((State.Runs.refl 0).beginRead.readWord.bufWrite trivial) rfl]
    exact hb
  exact ⟨counts, n, hn.trans (counts.next (next := fun w => State.beginRead (.aWord (Operand.slot w.widx)) w)
    fun hb => beginRead_blocked hb _)⟩

/-- Ticks take the `n + 1` words of `RDALL` that are left to its completion (R200, R204). -/
theorem rdallWords_ticks {n : Nat} {u : State} (hn : n < 128) (h : u.Counts (127 - n)) :
    ∃ k, State.ticks k (State.beginRead (.aWord (Operand.slot u.widx)) u) =
      State.complete 0#4 0#16 (State.rdallWords (n + 1) u) := by
  induction n generalizing u with
  | zero =>
    obtain ⟨_, j, hj⟩ := rdallWord_ticks (by omega) h
    exact ⟨j, hj.trans (if_pos rfl)⟩
  | succ n ih =>
    obtain ⟨counts, j, hj⟩ := rdallWord_ticks (by omega) h
    rw [if_neg (by omega)] at hj
    rw [show 127 - (n + 1) + 1 = 127 - n by omega] at counts
    obtain ⟨k, hk⟩ := ih (by omega) counts
    exact ⟨j + k, by rw [ticks_add, hj, hk]; rfl⟩

/-- The word write that a word of `WRALL` is (R201). -/
def State.wrallWord (s : State) : BitVec 4 × State :=
  State.writeWord (.bWord (Operand.slot s.widx)) (Operand.slot s.widx) s.beginWrite.wword s.beginWrite

theorem wrallWords_succ (n : Nat) (s : State) :
    State.wrallWords (n + 1) s =
      if s.wrallWord.1 = 0#4 then State.wrallWords n (State.countWord s.wrallWord.2)
      else State.raiseNoAck (.bWord (Operand.slot s.widx)) s.wrallWord.1 1#4
        (Operand.failure (Operand.slot s.widx) s.wrallWord.1) s.wrallWord.2 := rfl

/-- Ticks take one word of `WRALL` to the start of the next, to the completion, or to the end of the command at a failing
checkpoint (R201). -/
theorem wrallWord_ticks {u : State} {k : Nat} (hk : k < 128) (h : u.Counts k) :
    (State.countWord u.wrallWord.2).Counts (k + 1) ∧
    ∃ n, State.ticks n u.beginWrite =
      if u.wrallWord.1 = 0#4 then
        if k + 1 = 128 then State.complete 0#4 0#16 (State.countWord u.wrallWord.2)
        else State.beginWrite (State.countWord u.wrallWord.2)
      else State.raiseNoAck (.bWord (Operand.slot u.widx)) u.wrallWord.1 1#4
        (Operand.failure (Operand.slot u.widx) u.wrallWord.1) u.wrallWord.2 := by
  obtain ⟨⟨_, _, _, hwidx⟩, n, hn⟩ := writeWord_ticks (i := Operand.slot u.widx) (v := u.beginWrite.wword)
    (good := State.leaveBWord) (bad := fun k => State.complete 1#4 (Operand.failure (Operand.slot u.widx) k))
    (fun _ ⟨_, _, hwword, _⟩ _ => by rw [← hwword]; rfl) (fun _ _ => rfl) (beginWrite_at u)
  have counts : (State.countWord u.wrallWord.2).Counts (k + 1) := by
    rw [State.wrallWord]
    refine countWord_counts hk h (fun hb => ?_) (hwidx.trans (beginWrite_widx u))
    rw [(eq_kept hb).runs (State.Runs.refl 0).beginWrite.writeWord rfl]
    exact hb
  refine ⟨counts, n, hn.trans ?_⟩
  rw [← counts.next (next := State.beginWrite) beginWrite_blocked]
  rfl

/-- Ticks take the `n + 1` words of `WRALL` that are left to its completion or to its first failing word (R201, R204). -/
theorem wrallWords_ticks {n : Nat} {u : State} (hn : n < 128) (h : u.Counts (127 - n)) :
    ∃ k, State.ticks k u.beginWrite = State.wrallWords (n + 1) u := by
  induction n generalizing u with
  | zero =>
    obtain ⟨_, j, hj⟩ := wrallWord_ticks (by omega) h
    rw [if_pos rfl] at hj
    exact ⟨j, hj⟩
  | succ n ih =>
    obtain ⟨counts, j, hj⟩ := wrallWord_ticks (by omega) h
    rw [if_neg (show 127 - (n + 1) + 1 ≠ 128 by omega)] at hj
    rw [show 127 - (n + 1) + 1 = 127 - n by omega] at counts
    rw [wrallWords_succ]
    split
    · next hgood =>
      rw [if_pos hgood] at hj
      obtain ⟨k, hk⟩ := ih (by omega) counts
      exact ⟨j + k, by rw [ticks_add, hj, hk]⟩
    · next hbad =>
      rw [if_neg hbad] at hj
      exact ⟨j, hj⟩

/-! ### The sequencer does what the command does -/

theorem setWidx_counts (s : State) : (State.setWidx 0#8 s).Counts 0 := by
  unfold State.setWidx State.live
  split
  · next h => exact .inl h
  · exact .inr rfl

/-- A bulk command begins at its word 0. -/
theorem setWidx_slot (s : State) (h : s.blocked = false) : Operand.slot (State.setWidx 0#8 s).widx = 0#7 := by
  rw [State.setWidx, State.live_of_running h]
  rfl

theorem beginRead_slot (s : State) :
    State.beginRead (.aWord (Operand.slot (State.setWidx 0#8 s).widx)) (State.setWidx 0#8 s) =
      State.beginRead (.aWord 0#7) (State.setWidx 0#8 s) := by
  by_cases h : s.blocked = true
  · rw [setWidx_blocked h, beginRead_blocked h, beginRead_blocked h]
  · rw [setWidx_slot s (by simpa using h)]

/-- Ticks take the opcode primitive, the byte in `A`, from its start to its completion (R149). -/
theorem opcodeCommand_ticks {b : Byte} {s : State} (h : s.a = b) :
    ∃ n, State.ticks n (State.setBitcnt 0#4 (State.launch (.prim .sendop) s)) = State.opcodeCommand b s := by
  have ticks := prim_ticks ((launch_at (.prim .sendop) s).setBitcnt 0#4)
  rw [Prim.play, setBitcnt_a, launch_a, h] at ticks
  exact ticks

theorem rdword_ticks (s : State) :
    ∃ n, State.ticks n (State.beginRead .read (State.launch (.read .select) s)) =
      State.complete 0#4
        (State.readWord .read (Decode.index s.a) (State.beginRead .read (State.launch (.read .select) s))).acc
        (State.readWord .read (Decode.index s.a) (State.beginRead .read (State.launch (.read .select) s))) := by
  refine (readWord_ticks (good := fun t => State.complete 0#4 t.acc t) (fun t ht r => ?_) (fun _ _ => rfl)
    (beginRead_at _ _)).2
  obtain ⟨ha, _⟩ := ht
  rw [State.micro, ha, State.beginRead, enter_a, setAcc_a, launch_a]

theorem wrword_ticks (s : State) :
    ∃ n, State.ticks n (State.launch (.word .select) s) =
      State.wordEnd .word (State.complete 0#4 0#16) (fun k => State.complete k 0#16)
        (State.writeWord .word (Decode.index s.a) s.data (State.launch (.word .select) s)) := by
  refine (writeWord_ticks (fun t ht w => ?_) (fun _ _ => rfl) (launch_at _ _)).2
  obtain ⟨ha, hdata, _⟩ := ht
  rw [State.micro, ha, hdata, launch_a, launch_data]

theorem rdall_ticks (s : State) :
    ∃ n, State.ticks n (State.beginRead (.aWord 0#7) (State.setWidx 0#8 (State.launch (.aWord 0#7 .select) s))) =
      State.complete 0#4 0#16
        (State.rdallWords Config.nwords (State.setWidx 0#8 (State.launch (.aWord 0#7 .select) s))) := by
  rw [← beginRead_slot]
  exact rdallWords_ticks (n := 127) (by decide) (setWidx_counts _)

/-- No instruction stops. -/
theorem exec_next (i : Instr) (s : State) : ∃ t, exec i s = .next t := by cases i <;> exact ⟨_, rfl⟩

/-- From the start of an instruction's sequence, its operands in the latches, ticks take the block to what the instruction does,
in every state. -/
theorem exec_eq_ticks {i : Instr} {s : State} (h : s.latched i) : ∃ n, exec i s = .next (State.ticks n (State.begin i s)) := by
  suffices done : ∀ t, exec i s = .next t → ∃ n, State.ticks n (State.begin i s) = t by
    obtain ⟨t, ht⟩ := exec_next i s
    obtain ⟨n, hn⟩ := done t ht
    exact ⟨n, by rw [ht, hn]⟩
  have prim (p : Prim) := prim_ticks (launch_at (.prim p) s)
  intro t ht
  cases i <;> obtain rfl := Host.Outcome.next.inj ht
  case delay => exact prim .delay
  case select => exact prim .select
  case deselect => exact prim .deselect
  case start => exact prim .start
  case stop => exact prim .stop
  case reserved0 | reservedE | reservedF => exact prim .illegal
  case bitclk =>
    obtain ⟨rfl, rfl⟩ := h
    simpa only [State.begin, State.leavePrim, Prim.play, launch_a] using prim .bitclk
  case bufrd =>
    obtain rfl := h
    simpa only [State.begin, State.leavePrim, Prim.play, launch_a] using prim .bufrd
  case bufwr =>
    obtain ⟨rfl, rfl⟩ := h
    simpa only [State.begin, State.leavePrim, Prim.play, launch_a, launch_data] using prim .bufwr
  case sendop => exact opcodeCommand_ticks h
  case eeWrite => exact opcodeCommand_ticks h
  case eeRead => exact opcodeCommand_ticks h
  case rdword =>
    obtain rfl := h
    exact rdword_ticks s
  case wrword =>
    obtain ⟨rfl, rfl⟩ := h
    exact wrword_ticks s
  case rdall => exact rdall_ticks s
  case wrall => exact wrallWords_ticks (n := 127) (by decide) (setWidx_counts _)

/-- Settles O51: acceptance latches the operands, and from there ticks do what `exec` does, an access outstanding or not. -/
theorem sequencerRefinesCommands : Obligations.SequencerRefinesCommands := by
  intro c b i s hc _
  exact exec_eq_ticks (accept_latched (r := { code := c, base := b }) hc s)

end Sys2Proof.Machine

namespace Sys2Proof.Machine

/-! ### The counters of a stage -/

/-- The stages of a word write that send a byte (R181). -/
def WStage.isByte : WStage → Bool
  | .opcode => true
  | .addr => true
  | .dhi => true
  | .dlo => true
  | _ => false

/-- The stages of a word read that send or receive a byte (R184). -/
def RStage.isByte : RStage → Bool
  | .opcodeW => true
  | .addr => true
  | .opcodeR => true
  | .rxhi => true
  | .rxlo => true
  | _ => false

/-- The stages that send or receive a byte, in which `BITCNT` counts (R33). -/
def Stage.isByte : Stage → Bool
  | .prim p => p = .sendop
  | .word w => w.isByte
  | .read r => r.isByte
  | .aWord _ r => r.isByte
  | .bWord _ w => w.isByte

/-- `WIDX` is the word that a stage of a bulk command belongs to (R204). -/
def Stage.inWord (widx : BitVec 8) : Stage → Prop
  | .aWord i _ => widx.toNat = i.toNat
  | .bWord i _ => widx.toNat = i.toNat
  | _ => True

def Micro.isByte : Micro → Bool
  | .send _ => true
  | .recv => true
  | _ => false

theorem Micro.length_of_isByte {m : Micro} (h : m.isByte = true) : m.length = 56 := by
  cases m
  case send | recv => rfl
  all_goals cases h

theorem micro_isByte (s : State) (st : Stage) : (s.micro st).isByte = st.isByte := by
  cases st with
  | prim p => cases p <;> rfl
  | word w => cases w <;> rfl
  | read r => cases r <;> rfl
  | aWord i r => cases r <;> rfl
  | bWord i w => cases w <;> rfl

theorem seqNamesEvent_iff {s : State} {st : Stage} {k : Nat} (h : s.seq = .run st k) :
    s.seqNamesEvent = true ↔ k < (s.micro st).length ∨ ((s.micro st).length = 0 ∧ k = 0) := by
  have hnone : s.micro st = .none ↔ (s.micro st).length = 0 := ⟨fun hm => by rw [hm]; rfl, micro_eq_none⟩
  simp [State.seqNamesEvent, h, hnone]

theorem countersFit_iff {s : State} {st : Stage} {k : Nat} (h : s.seq = .run st k) :
    s.countersFit ↔ (st.isByte = true → s.bitcnt.toNat = k / 7) ∧ st.inWord s.widx := by
  rw [← micro_isByte s st]
  simp only [State.countersFit, h]
  refine and_congr ?_ ?_
  · cases s.micro st <;> simp [Micro.isByte]
  · cases st <;> rfl

/-- A running command whose counters are in range (R33). -/
structure State.Underway (s : State) : Prop where
  running : s.blocked = false
  busy : s.busy = true
  bitcnt : s.bitcnt.toNat ≤ 8
  widx : s.widx.toNat ≤ 128

theorem State.Underway.sequenced {s : State} {st : Stage} {k : Nat} (h : s.Underway) (hseq : s.seq = .run st k)
    (hname : k < (s.micro st).length ∨ ((s.micro st).length = 0 ∧ k = 0))
    (hbyte : st.isByte = true → s.bitcnt.toNat = k / 7) (hword : st.inWord s.widx) : s.sequenced :=
  ⟨fun hidle => by simp [h.busy] at hidle,
    fun _ => .inr ⟨(seqNamesEvent_iff hseq).2 hname, (countersFit_iff hseq).2 ⟨hbyte, hword⟩⟩, h.bitcnt, h.widx⟩

theorem State.Underway.at_start {s : State} {st : Stage} (h : s.Underway) (hat : s.At st 0)
    (hbyte : st.isByte = true → s.bitcnt = 0#4) (hword : st.inWord s.widx) : s.sequenced := by
  have hseq : s.seq = .run st 0 := hat.resolve_left (by simp [h.running])
  exact h.sequenced hseq (by omega) (fun hb => by rw [hbyte hb]; rfl) hword

/-- An operation that keeps the ports, `BUSY` and the counters leaves the command underway. -/
theorem State.Underway.of_same {s t : State} (h : s.Underway) (hmport : t.mport = s.mport) (hrst : t.rst = s.rst)
    (hbusy : t.busy = s.busy) (hbit : t.bitcnt = s.bitcnt) (hwidx : t.widx = s.widx) : t.Underway :=
  ⟨by simpa only [State.blocked, hmport, hrst] using h.running, hbusy ▸ h.busy, hbit ▸ h.bitcnt, hwidx ▸ h.widx⟩

theorem slot_toNat {w : BitVec 8} (h : w.toNat < 128) : (Operand.slot w).toNat = w.toNat := by
  rw [Operand.slot, BitVec.extractLsb'_toNat, Nat.shiftRight_zero]
  omega

section Underway

variable {s : State} (h : s.Underway)
include h

theorem State.Underway.enter (st : Stage) : (State.enter st s).Underway := by apply h.of_same <;> simp

theorem State.Underway.noteAck (k : Nat) : (State.noteAck k s).Underway := by apply h.of_same <;> simp

theorem State.Underway.setAcc (v : Half) : (State.setAcc v s).Underway := by apply h.of_same <;> simp

theorem State.Underway.setWword (v : Half) : (State.setWword v s).Underway := by apply h.of_same <;> simp

theorem State.Underway.bufTouch (i : Index) : (State.bufTouch i s).Underway := by apply h.of_same <;> simp

theorem State.Underway.bufWrite (i : Index) (v : Half) : (State.bufWrite i v s).Underway := by apply h.of_same <;> simp

theorem State.Underway.setBitcnt {v : BitVec 4} (hv : v.toNat ≤ 8) : (State.setBitcnt v s).Underway :=
  ⟨by simpa [State.blocked] using h.running, by simpa using h.busy, by rw [setBitcnt_of_running h.running]; exact hv,
    by simpa using h.widx⟩

theorem State.Underway.setWidx {v : BitVec 8} (hv : v.toNat ≤ 128) : (State.setWidx v s).Underway :=
  ⟨by simpa [State.blocked] using h.running, by simpa using h.busy, by simpa using h.bitcnt,
    by rw [State.setWidx, State.live_of_running h.running]; exact hv⟩

theorem enter_sequenced {st : Stage} (hbyte : st.isByte = false) (hword : st.inWord s.widx) :
    (State.enter st s).sequenced :=
  (h.enter st).at_start (enter_at st s) (by simp [hbyte]) (by simpa using hword)

theorem enterByte_sequenced {st : Stage} (hword : st.inWord s.widx) : (State.enterByte st s).sequenced :=
  ((h.enter st).setBitcnt (v := 0#4) (by decide)).at_start (enterByte_at st s)
    (fun _ => setBitcnt_of_running (h.enter st).running _) (by simpa using hword)

theorem complete_sequenced (status : BitVec 4) (rdata : Half) : (State.complete status rdata s).sequenced := by
  rw [complete_of_running h.running]
  exact ⟨fun _ => ⟨rfl, (State.running_iff.1 h.running).1⟩, fun hb => Bool.noConfusion hb, h.bitcnt, h.widx⟩

theorem beginRead_sequenced {at_ : RStage → Stage} (hbyte : (at_ .select).isByte = false)
    (hword : (at_ .select).inWord s.widx) : (State.beginRead at_ s).sequenced :=
  enter_sequenced (h.setAcc _) hbyte (by simpa using hword)

/-- A word of `WRALL` begins at the word that `WIDX` names, unless all are done. -/
theorem beginWrite_sequenced (hword : s.widx.toNat < 128) : (State.beginWrite s).sequenced := by
  refine enter_sequenced ((h.setWword _).bufTouch _) rfl ?_
  simpa [Stage.inWord] using (slot_toNat hword).symm

end Underway

/-! ### The end of a stage leaves the block sequenced -/

section Leaving

variable {s : State} (h : s.Underway)
include h

theorem leavePrim_sequenced (p : Prim) : (State.leavePrim p s).sequenced := by
  cases p
  case bufrd => exact complete_sequenced (h.bufTouch _) _ _
  case bufwr => exact complete_sequenced (h.bufWrite _ _) _ _
  all_goals exact complete_sequenced h _ _

theorem leaveRead_sequenced {at_ : RStage → Stage} {good : State → State} (hbyte : ∀ r, (at_ r).isByte = r.isByte)
    (hword : ∀ r, (at_ r).inWord s.widx) (hgood : (good s).sequenced) (r : RStage) :
    (State.leaveRead at_ good r s).sequenced := by
  cases r
  case start | restart | mack => exact enterByte_sequenced h (hword _)
  case ack1 | ack3 => exact enterByte_sequenced (h.noteAck _) (by simpa using hword _)
  case ack2 => exact enter_sequenced (h.noteAck _) (hbyte _) (by simpa using hword _)
  case deselect => exact hgood
  all_goals exact enter_sequenced h (hbyte _) (hword _)

theorem leaveWrite_sequenced {at_ : WStage → Stage} {good : State → State} {bad : BitVec 4 → State → State}
    (hbyte : ∀ w, (at_ w).isByte = w.isByte) (hword : ∀ w, (at_ w).inWord s.widx) (hgood : (good s).sequenced)
    (hbad : ∀ k, (bad k s).sequenced) (w : WStage) : (State.leaveWrite at_ good bad w s).sequenced := by
  have enter (w : WStage) (hw : w.isByte = false) := enter_sequenced h ((hbyte w).trans hw) (hword w)
  have byte (w : WStage) := enterByte_sequenced h (hword w)
  cases w
  case ack1 =>
    simp only [State.leaveWrite]
    split
    · split
      · exact enter _ rfl
      · exact hbad _
    · exact byte _
  case ack2 | ack3 =>
    simp only [State.leaveWrite]
    split
    · exact enter _ rfl
    · exact byte _
  case ack4 =>
    simp only [State.leaveWrite]
    split
    · exact enter _ rfl
    · exact enter _ rfl
  case start => exact byte _
  case deselect => exact hgood
  case abortDeselect k => exact hbad k
  all_goals exact enter _ rfl

/-- After a word of a bulk command the counter names the next word, or all are done (R204). -/
theorem countWord_underway {i : Index} (hi : s.widx.toNat = i.toNat) :
    (State.countWord s).Underway ∧ ((State.countWord s).widx ≠ 128#8 → (State.countWord s).widx.toNat < 128) := by
  have hsum : (s.widx + 1#8).toNat = i.toNat + 1 := by
    rw [BitVec.toNat_add, hi]
    simp
    omega
  refine ⟨h.setWidx (by omega), fun hne => ?_⟩
  rw [countWord_widx h.running] at hne ⊢
  have : (s.widx + 1#8).toNat ≠ 128 := fun he => hne (BitVec.eq_of_toNat_eq he)
  omega

theorem leaveBWord_sequenced {i : Index} (hi : s.widx.toNat = i.toNat) : (State.leaveBWord s).sequenced := by
  obtain ⟨counted, hnext⟩ := countWord_underway h hi
  unfold State.leaveBWord
  extract_lets t
  split
  · exact complete_sequenced counted _ _
  · next hne => exact beginWrite_sequenced counted (hnext hne)

theorem leaveAWord_sequenced {i : Index} (hi : s.widx.toNat = i.toNat) : (State.leaveAWord i s).sequenced := by
  obtain ⟨counted, hnext⟩ := countWord_underway (h.bufWrite i s.acc) (by simpa using hi)
  unfold State.leaveAWord
  extract_lets t
  split
  · exact complete_sequenced counted _ _
  · next hne => exact beginRead_sequenced counted rfl (slot_toNat (hnext hne)).symm

theorem leave_sequenced {st : Stage} (hword : st.inWord s.widx) : (State.leave st s).sequenced := by
  unfold State.leave
  cases st with
  | prim p => exact leavePrim_sequenced h p
  | word w =>
    exact leaveWrite_sequenced (at_ := .word) h (fun _ => rfl) (fun _ => trivial) (complete_sequenced h _ _)
      (fun _ => complete_sequenced h _ _) w
  | read r => exact leaveRead_sequenced (at_ := .read) h (fun _ => rfl) (fun _ => trivial) (complete_sequenced h _ _) r
  | aWord i r =>
    exact leaveRead_sequenced (at_ := .aWord i) h (fun _ => rfl) (fun _ => hword) (leaveAWord_sequenced h hword) r
  | bWord i w =>
    exact leaveWrite_sequenced (at_ := .bWord i) h (fun _ => rfl) (fun _ => hword) (leaveBWord_sequenced h hword)
      (fun _ => complete_sequenced h _ _) w

end Leaving

/-! ### An event leaves the block sequenced -/

theorem event_busy (m : Micro) (k : Nat) (s : State) : (State.event m k s).busy = s.busy := by
  cases m with
  | none => rfl
  | delay | bit dbs last => simp [State.event]
  | writes ws | send b | recv =>
    simp only [State.event]
    split <;> simp

theorem countBit_bitcnt (s : State) :
    (State.countBit s).bitcnt = if (State.countBit s).blocked = false then s.bitcnt + 1#4 else s.bitcnt := by
  have hb : (State.countBit s).blocked = s.blocked := by simp [State.blocked]
  rw [hb]
  split
  · next h => exact setBitcnt_of_running h _
  · next h => rw [countBit_blocked (by simpa using h)]

/-- `BITCNT` counts with the seventh event of each bit of a byte, the sample, once that is done (R33, R150, R152). -/
theorem event_bitcnt (m : Micro) (k : Nat) (s : State) :
    (State.event m k s).bitcnt =
      if m.isByte = true ∧ k % 7 = 6 ∧ (State.event m k s).blocked = false then s.bitcnt + 1#4 else s.bitcnt := by
  cases m with
  | none | delay | bit dbs last => simp [State.event, Micro.isByte]
  | writes ws =>
    simp only [State.event]
    split <;> simp [Micro.isByte]
  | send b | recv =>
    simp only [State.event, Micro.isByte]
    split
    · next hk =>
      rw [countBit_bitcnt]
      simp [hk]
    · next hk => simp [hk]

/-- An event that the sequence stops at, waiting or at a reset, leaves the block sequenced (R74, R253). -/
theorem event_sequenced_of_stopped {s : State} {st : Stage} {k : Nat} (hs : s.sequenced) (hrun : s.blocked = false)
    (hb : s.busy = true) (hstop : (State.event (s.micro st) k s).blocked = true) :
    (State.event (s.micro st) k s).sequenced := by
  obtain ⟨_, hbusy, hbit, hwidx⟩ := hs
  have hm : s.micro st ≠ .none := by
    intro hm
    rw [hm, State.event, hrun] at hstop
    cases hstop
  rcases event_occurs hm k hrun with ⟨p, _, ht⟩ | ⟨hreq, _⟩
  · rw [ht]
    exact ⟨fun hidle => absurd hidle (by simp [hb]), fun _ => hbusy hb, hbit, hwidx⟩
  · have hrst : (State.event (s.micro st) k s).rst = some 0 := by simpa [State.blocked, hreq] using hstop
    obtain ⟨_, _, _, hw⟩ := event_operandsKept (s.micro st) k s
    refine ⟨fun hidle => absurd hidle (by simp [event_busy, hb]), fun _ => .inl hrst, ?_, hw ▸ hwidx⟩
    rw [event_bitcnt, if_neg (by simp [hstop])]
    exact hbit

/-- An event after which the sequence goes on leaves the command underway, with `BITCNT` at the bit that comes next (R33). -/
theorem event_underway {s : State} {st : Stage} {k : Nat} (h : s.Underway)
    (hname : k < (s.micro st).length ∨ ((s.micro st).length = 0 ∧ k = 0))
    (hbyte : st.isByte = true → s.bitcnt.toNat = k / 7)
    (hgo : (State.event (s.micro st) k s).blocked = false) :
    (State.event (s.micro st) k s).Underway ∧
      (st.isByte = true → (State.event (s.micro st) k s).bitcnt.toNat = (k + 1) / 7) := by
  obtain ⟨_, _, _, hw⟩ := event_operandsKept (s.micro st) k s
  have hbit := event_bitcnt (s.micro st) k s
  simp only [micro_isByte, hgo, and_true] at hbit
  have hcount : st.isByte = true → (State.event (s.micro st) k s).bitcnt.toNat = (k + 1) / 7 ∧ (k + 1) / 7 ≤ 8 := by
    intro hst
    have hlen := Micro.length_of_isByte ((micro_isByte s st).trans hst)
    have hk := hbyte hst
    rw [hbit]
    split
    · rw [BitVec.toNat_add, hk]
      simp
      omega
    · next hlast =>
      have : k % 7 ≠ 6 := fun he => hlast ⟨hst, he⟩
      omega
  refine ⟨⟨hgo, (event_busy _ _ _).trans h.busy, ?_, hw ▸ h.widx⟩, fun hst => (hcount hst).1⟩
  by_cases hst : st.isByte = true
  · rw [(hcount hst).1]
    exact (hcount hst).2
  · rw [hbit, if_neg fun hc => hst hc.1]
    exact h.bitcnt

/-- Every event of the sequencer leaves the block sequenced (R26, R33). -/
theorem tick_sequenced {s : State} (h : s.sequenced) : s.tick.sequenced := by
  by_cases hstopped : s.blocked = true
  · rwa [tick_blocked hstopped]
  rw [Bool.not_eq_true] at hstopped
  obtain ⟨hidle, hbusy, hbit, hwidx⟩ := h
  cases hseq : s.seq with
  | idle =>
    rw [State.tick, hseq]
    exact ⟨hidle, hbusy, hbit, hwidx⟩
  | run st k =>
    have hb : s.busy = true := by
      by_contra hb
      have hpark := (hidle (by simpa using hb)).1
      rw [hseq] at hpark
      cases hpark
    obtain ⟨hnames, hfits⟩ := (hbusy hb).resolve_left (State.running_iff.1 hstopped).2
    have hname := (seqNamesEvent_iff hseq).1 hnames
    obtain ⟨hbyte, hword⟩ := (countersFit_iff hseq).1 hfits
    rw [tick_of_run hseq]
    by_cases hgo : (State.event (s.micro st) k s).blocked = true
    · rw [leave_blocked hgo, ite_self]
      exact event_sequenced_of_stopped ⟨hidle, hbusy, hbit, hwidx⟩ hstopped hb hgo
    rw [Bool.not_eq_true] at hgo
    obtain ⟨underway, hcount⟩ := event_underway ⟨hstopped, hb, hbit, hwidx⟩ hname hbyte hgo
    have kept := event_operandsKept (s.micro st) k s
    have same := micro_sameTail kept st
    obtain ⟨_, _, _, hw⟩ := kept
    rw [← hw] at hword
    split
    · next hmore =>
      have hm : s.micro st ≠ .none := fun hm => by simp [hm, Micro.length] at hmore
      have hseq' := (event_at hm hstopped hseq).resolve_left (by simp [hgo])
      exact underway.sequenced hseq' (.inl (by rwa [same.1])) hcount hword
    · exact leave_sequenced underway hword

theorem ticks_sequenced {s : State} (n : Nat) (h : s.sequenced) : (s.ticks n).sequenced := by
  induction n generalizing s with
  | zero => exact h
  | succ n ih => exact ih (tick_sequenced h)

/-! ### The start of a command is sequenced -/

section Begin

variable {s : State} (hrun : s.blocked = false) (hbit : s.bitcnt.toNat ≤ 8) (hwidx : s.widx.toNat ≤ 128)
include hrun hbit hwidx

theorem launch_underway (st : Stage) : (State.launch st s).Underway := by
  rw [launch_of_running hrun]
  exact ⟨hrun, rfl, hbit, hwidx⟩

theorem launch_sequenced {st : Stage} (hbyte : st.isByte = false) (hword : st.inWord s.widx) :
    (State.launch st s).sequenced :=
  (launch_underway hrun hbit hwidx st).at_start (launch_at st s) (by simp [hbyte]) (by simpa using hword)

theorem launch_sendop_sequenced : (State.setBitcnt 0#4 (State.launch (.prim .sendop) s)).sequenced := by
  have launched := launch_underway hrun hbit hwidx (.prim .sendop)
  exact (launched.setBitcnt (v := 0#4) (by decide)).at_start ((launch_at _ s).setBitcnt _)
    (fun _ => setBitcnt_of_running launched.running _) trivial

theorem begin_sequenced (i : Instr) : (State.begin i s).sequenced := by
  have launched := launch_underway hrun hbit hwidx
  have at0 (st : Stage) : (State.setWidx 0#8 (State.launch st s)).widx = 0#8 := by
    rw [State.setWidx, State.live_of_running (launched st).running]
  cases i
  case sendop | eeWrite | eeRead => exact launch_sendop_sequenced hrun hbit hwidx
  case rdword => exact beginRead_sequenced (launched _) rfl trivial
  case rdall => exact beginRead_sequenced ((launched _).setWidx (by decide)) rfl (by rw [at0]; rfl)
  case wrall => exact beginWrite_sequenced ((launched _).setWidx (by decide)) (by rw [at0]; decide)
  all_goals exact launch_sequenced hrun hbit hwidx rfl trivial

/-- A command leaves the block sequenced wherever it ends: it is at a state its ticks reach. -/
theorem exec_sequenced {i : Instr} {t : State} (hi : s.latched i) (h : exec i s = .next t) : t.sequenced := by
  obtain ⟨n, hn⟩ := exec_eq_ticks hi
  obtain rfl := Host.Outcome.next.inj (hn.symm.trans h)
  exact ticks_sequenced n (begin_sequenced hrun hbit hwidx i)

end Begin

/-! ### A step of a sequenced block -/

theorem runRequest_ne_fault (r : Request) (s : State) (f : Fault) : runRequest r s ≠ .fault f := by
  unfold runRequest
  extract_lets t
  split
  · next i _ =>
    obtain ⟨u, hu⟩ := exec_next i t
    rw [hu]
    exact nofun
  · exact nofun

/-- Only a busy block whose `SEQ` names no event faults (R26). -/
theorem step_ne_fault {s : State} (h : s.busy = true → s.resetDue = false → s.seqNamesEvent = true) (f : Fault) :
    step s ≠ .fault f := by
  unfold step
  split
  · exact nofun
  next hreset =>
  split
  · next hb =>
    rw [if_pos (h hb (by simpa using hreset))]
    exact nofun
  · split
    · exact nofun
    · exact runRequest_ne_fault _ _ _

theorem rst_of_no_reset {s : State} (h : s.resetDue = false) : s.rst ≠ some 0 := by
  rintro hr
  simp [State.resetDue, hr] at h

/-- Settles O59: a reset, a tick and a command each leave the block sequenced, a command because its ticks do. -/
theorem stepKeepsSequenced : Obligations.StepKeepsSequenced := by
  intro s h
  obtain ⟨hidle, hbusy, hbit, hwidx⟩ := h
  constructor
  · refine step_ne_fault fun hb hreset => ?_
    exact ((hbusy hb).resolve_left (rst_of_no_reset hreset)).1
  · intro t hstep
    rcases step_cases hstep with ⟨_, rfl⟩ | ⟨_, _, _, rfl⟩ | ⟨_, _, _, rfl⟩ |
      ⟨hreset, hb, r, rest, i, _, hdec, hexec⟩
    · exact resetSequenced
    · exact tick_sequenced ⟨hidle, hbusy, hbit, hwidx⟩
    · exact ⟨hidle, hbusy, hbit, hwidx⟩
    · have hrun : s.blocked = false := State.running_iff.2 ⟨(hidle hb).2, rst_of_no_reset hreset⟩
      refine exec_sequenced (s := State.accept r { s with script := rest }) ?_ ?_ ?_ (latched_of_decode hdec) hexec
      · simpa [State.blocked] using hrun
      · simpa using hbit
      · simpa using hwidx

end Sys2Proof.Machine

namespace Sys2Proof.Machine

/-! ### Commands without an access, and what every command leaves alone -/

/-- Settles O55: an outstanding request stops the sequence, and an event of a stopped sequence changes nothing. -/
theorem unacknowledgedAccessHangs : Obligations.UnacknowledgedAccessHangs := by
  intro s hbusy hreq hrst hevent
  have hdue : s.resetDue = false := by simp [State.resetDue, hrst]
  have hstopped : s.blocked = true := by simp [State.blocked, hreq]
  simp [step, hdue, hbusy, hevent, tick_blocked hstopped]

/-- Settles O53: the step is the reset, whose values are those of the state after reset but for what the block does not own. -/
theorem resetTakesPlace : Obligations.ResetTakesPlace := fun s hdue =>
  ⟨s.afterReset, if_pos hdue, rfl, rfl, rfl, rfl, rfl, rfl, rfl, rfl, rfl, rfl, rfl, rfl⟩

theorem bufValue_of_written {i : Index} {v : Half} {s : State} (h : Table.get i.toNat s.buf = some v) : s.bufValue i = v := by
  simp [State.bufValue, h]

theorem bufTouch_of_written {i : Index} {v : Half} {s : State} (h : Table.get i.toNat s.buf = some v) :
    State.bufTouch i s = s := by
  simp [State.bufTouch, State.live, h]

theorem bufWrite_of_running {i : Index} {v : Half} {s : State} (h : s.blocked = false) :
    State.bufWrite i v s = { s with buf := Table.put i.toNat v s.buf } := State.live_of_running h

/-- `BUFRD` of a written entry, in any running state (R202). -/
theorem exec_bufrd {i : Index} {v : Half} {s : State} (h : s.blocked = false) (hv : Table.get i.toNat s.buf = some v) :
    exec (.bufrd i) s = .next { s with busy := false, seq := .idle, rdack := 0#3, rsp := BitVec.ofNat 32 v.toNat } := by
  have launched : (State.launch (.prim .bufrd) s).blocked = false := by simpa [State.blocked] using h
  have written : Table.get i.toNat (State.launch (.prim .bufrd) s).buf = some v := by simpa using hv
  simp only [exec, execBufrd]
  rw [bufTouch_of_written written, bufValue_of_written written, complete_of_running launched, response_eq,
    launch_of_running h]
  simp [Frame.rsp]

/-- `BUFWR` in any running state (R203). -/
theorem exec_bufwr {i : Index} {v : Half} {s : State} (h : s.blocked = false) :
    exec (.bufwr i v) s =
      .next { s with busy := false, seq := .idle, rdack := 0#3, rsp := 0#32, buf := Table.put i.toNat v s.buf } := by
  have launched : (State.launch (.prim .bufwr) s).blocked = false := by simpa [State.blocked] using h
  have written : (State.bufWrite i v (State.launch (.prim .bufwr) s)).blocked = false := by simpa [State.blocked] using h
  simp only [exec, execBufwr]
  rw [complete_of_running written, bufWrite_of_running launched, launch_of_running h, response_eq]
  rfl

/-- Settles O16: the entry that `BUFWR` leaves under `j` is what `BUFRD j` answers. -/
theorem bufferReadsBack : Obligations.BufferReadsBack := by
  intro i j v u s t hcalm hu hexec
  rw [exec_bufwr hcalm.running] at hexec
  obtain rfl := Host.Outcome.next.inj hexec
  refine ⟨_, exec_bufrd (v := if j = i then v else u) hcalm.running ?_, rfl⟩
  by_cases hij : j = i
  · simp [hij]
  · rw [if_neg hij, ← hu]
    exact Table.get_put_other (fun h => hij (BitVec.eq_of_toNat_eq h)) _ _

theorem delay_trace (s : State) : (State.delay s).trace = if s.blocked = false then .d s.base :: s.trace else s.trace := by
  cases h : s.blocked <;> simp [State.delay, State.live, h, State.emit]

/-- Settles O29: the launch and the completion of a command touch none of these fields, and what stands between them only
what it is named for. -/
theorem noAccessFrame : Obligations.NoAccessFrame := by
  intro i s t hi hexec
  have launched {st : Stage} : (State.launch st s).blocked = s.blocked := by simp [State.blocked]
  rcases hi with rfl | ⟨k, rfl⟩ | ⟨k, v, rfl⟩ | rfl | rfl | rfl <;> obtain rfl := Host.Outcome.next.inj hexec
  case inl => simp [State.countersKept, delay_trace, launched]
  all_goals simp [State.countersKept, State.illegal]

/-- An access replaces the target of the latched base address alone, or none (R61, R235). -/
theorem lineWrite_modules (v : Half) (s : State) :
    (State.lineWrite v s).modules = s.modules ∨ ∃ m, (State.lineWrite v s).modules = Table.put s.base m s.modules := by
  unfold State.lineWrite State.live
  split
  · exact .inl rfl
  · dsimp only
    split
    · exact .inl rfl
    · exact .inr ⟨_, rfl⟩

theorem readSample_modules (s : State) :
    (State.readSample s).modules = s.modules ∨ ∃ m, (State.readSample s).modules = Table.put s.base m s.modules := by
  unfold State.readSample State.live
  split
  · exact .inl rfl
  · dsimp only
    split
    · exact .inl rfl
    · exact .inr ⟨_, rfl⟩

theorem othersKept_of_access {s t u : State} (hbase : t.base = s.base) (h : s.othersKept t)
    (hmod : u.modules = t.modules ∨ ∃ m, u.modules = Table.put t.base m t.modules) : s.othersKept u := by
  intro b hb
  rw [← h b hb]
  rcases hmod with hmod | ⟨m, hmod⟩
  · exact moduleAt_congr hmod b
  · rw [moduleAt_of_put hmod, if_neg (hbase ▸ hb)]

theorem othersKept_kept (s : State) : State.Kept fun t => t.base = s.base ∧ s.othersKept t where
  lineWrite {v t} _ h := ⟨by simp [h.1], othersKept_of_access h.1 h.2 (lineWrite_modules v t)⟩
  act {o t} ho h := by
    obtain ⟨-, hbase, -⟩ := o.run_latchesKept t
    refine ⟨hbase.trans h.1, othersKept_of_access h.1 h.2 ?_⟩
    cases o
    case writeDelay v => simpa [Act.run, State.writeDelay] using lineWrite_modules v t
    case readSample => exact readSample_modules t
    all_goals exact .inl (by simp [Act.run])

/-- Settles O32: every act keeps the targets of the other base addresses. -/
theorem oneTargetOnly : Obligations.OneTargetOnly := by
  intro i s t hexec
  have kept := (othersKept_kept s).exec hexec ⟨rfl, fun _ _ => rfl⟩
  exact kept.2

end Sys2Proof.Machine

namespace Sys2Proof.Machine

/-! ### Two runs of one command side by side

A relation of two states that every operation keeps is kept by whole commands, if the states agree on what a command decides by.
A property of one state is the case of two equal states. -/

/-- Which operations use an act: 0 for those of the micro-sequences and of a word write, 1 for those a word read adds, 2 for those
the bulk and buffer commands add, 3 for the start and the completion of a command. -/
def Act.rank : Act → Nat
  | .writeDelay _ | .delay | .readSample | .setBitcnt _ | .enter _ => 0
  | .noteAck _ | .setAcc _ | .shiftAcc => 1
  | .setWidx _ | .setWword _ | .bufTouch _ | .bufWrite _ _ => 2
  | .launch _ | .complete _ _ => 3

/-- Two states agree on what a command reads to decide what it does next or what it answers. -/
structure State.Agree (s u : State) : Prop where
  lastd : u.lastd = s.lastd
  sample : u.sample = s.sample
  bitcnt : u.bitcnt = s.bitcnt
  acc : u.acc = s.acc
  widx : u.widx = s.widx
  wword : u.wword = s.wword
  cleanup : u.par.ack1Cleanup = s.par.ack1Cleanup
  bufValue : ∀ i, u.bufValue i = s.bufValue i

/-- A relation that every act of rank at most `n` keeps. -/
structure State.Sim (n : Nat) (R : State → State → Prop) : Prop where
  act : ∀ {o : Act} {s u : State}, o.rank ≤ n → o.allowed True → R s u → R (o.run s) (o.run u)
  agree : ∀ {s u : State}, R s u → s.Agree u

/-- A property of one state that every act of rank at most `n` keeps. -/
theorem State.Sim.ofProperty {n : Nat} {P : State → Prop}
    (hP : ∀ {o : Act} {s : State}, o.rank ≤ n → o.allowed True → P s → P (o.run s)) :
    State.Sim n fun s u => u = s ∧ P s where
  act hrank ho := by
    rintro ⟨rfl, h⟩
    exact ⟨rfl, hP hrank ho h⟩
  agree := by
    rintro s _ ⟨rfl, _⟩
    exact ⟨rfl, rfl, rfl, rfl, rfl, rfl, rfl, fun _ => rfl⟩

namespace State.Sim

section Line

variable {n : Nat} {R : State → State → Prop} (k : State.Sim n R) {s u : State} (h : R s u)
include k h

theorem writeDelay {v : Half} (hv : v ∈ Line.legal) : R (s.writeDelay v) (u.writeDelay v) :=
  k.act (o := .writeDelay v) (Nat.zero_le n) hv h

theorem enter {st : Stage} : R (s.enter st) (u.enter st) := k.act (o := .enter st) (Nat.zero_le n) trivial h

theorem setBitcnt {v : BitVec 4} : R (s.setBitcnt v) (u.setBitcnt v) :=
  k.act (o := .setBitcnt v) (Nat.zero_le n) trivial h

theorem bitClk {dbs last : Bool} : R (s.bitClk dbs last) (u.bitClk dbs last) := by
  have low := k.writeDelay (k.writeDelay h (clockLow_legal last)) (clockLow_legal dbs)
  exact k.act (o := .readSample) (Nat.zero_le n) trivial (k.writeDelay low (clockHigh_legal dbs))

/-- A bit clock that holds the data bit on the line. -/
theorem bitClkHeld {dbs : Bool} : R (s.bitClk dbs s.lastd) (u.bitClk dbs u.lastd) := by
  rw [(k.agree h).lastd]
  exact k.bitClk h

theorem selectSeq : R s.selectSeq u.selectSeq := k.writeDelay (k.writeDelay h (by decide)) (by decide)

theorem deselectSeq : R s.deselectSeq u.deselectSeq := k.writeDelay h (by decide)

theorem startSeq : R s.startSeq u.startSeq := by
  unfold State.startSeq
  rw [(k.agree h).lastd]
  have low := k.writeDelay (k.writeDelay h (clockLow_legal s.lastd)) (v := 0x0028#16) (by decide)
  exact k.writeDelay (k.writeDelay low (by decide)) (by decide)

theorem stopSeq : R s.stopSeq u.stopSeq := by
  unfold State.stopSeq
  rw [(k.agree h).lastd]
  have low := k.writeDelay (k.writeDelay h (clockLow_legal s.lastd)) (v := 0x0020#16) (by decide)
  exact k.writeDelay (k.writeDelay low (by decide)) (by decide)

theorem countBit : R s.countBit u.countBit := by
  unfold State.countBit
  rw [(k.agree h).bitcnt]
  exact k.setBitcnt h

theorem sendBits {b : Byte} {m : Nat} : R (s.sendBits b m) (u.sendBits b m) := by
  induction m generalizing s u with
  | zero => exact h
  | succ m ih =>
    unfold State.sendBits
    rw [(k.agree h).bitcnt]
    exact ih (k.countBit (k.bitClkHeld h))

theorem sendByte {b : Byte} : R (s.sendByte b) (u.sendByte b) := k.sendBits (k.setBitcnt h)

theorem abortPath {at_ : WStage → Stage} {c : BitVec 4} : R (s.abortPath at_ c) (u.abortPath at_ c) := by
  unfold State.abortPath
  rw [(k.agree h).cleanup]
  split
  · exact h
  · exact k.deselectSeq (k.enter (k.stopSeq (k.enter h)))

theorem ackChk : R s.ackChk u.ackChk := k.bitClkHeld h

theorem sendAck : R s.sendAck u.sendAck := k.bitClkHeld h

theorem sendNack : R s.sendNack u.sendNack := k.bitClkHeld h

/-- A byte and its acknowledge. -/
theorem checkpoint {st st' : Stage} {b : Byte} :
    R (State.ackChk (State.enter st' (State.sendByte b (State.enter st s))))
      (State.ackChk (State.enter st' (State.sendByte b (State.enter st u)))) :=
  k.ackChk (k.enter (k.sendByte (k.enter h)))

theorem writeCode {at_ : WStage → Stage} : R (s.writeCode at_) (u.writeCode at_) :=
  k.checkpoint (k.startSeq (k.enter (k.selectSeq h)))

theorem writeWord {at_ : WStage → Stage} {i : Index} {w : Half} :
    (u.writeWord at_ i w).1 = (s.writeWord at_ i w).1 ∧ R (s.writeWord at_ i w).2 (u.writeWord at_ i w).2 := by
  unfold State.writeWord
  extract_lets u1 u2 u3 u4 s1 s2 s3 s4
  have h1 : R s1 u1 := k.writeCode h
  have h2 : R s2 u2 := k.checkpoint h1
  have h3 : R s3 u3 := k.checkpoint h2
  have h4 : R s4 u4 := k.checkpoint h3
  rw [(k.agree h1).sample, (k.agree h2).sample, (k.agree h3).sample, (k.agree h4).sample]
  clear_value u1 u2 u3 u4 s1 s2 s3 s4
  split
  · exact ⟨rfl, h1⟩
  split
  · exact ⟨rfl, h2⟩
  split
  · exact ⟨rfl, h3⟩
  split
  · exact ⟨rfl, h4⟩
  · exact ⟨rfl, k.deselectSeq (k.enter (k.stopSeq (k.enter h4)))⟩

end Line

section Read

variable {n : Nat} {R : State → State → Prop} (k : State.Sim n R) (hn : 1 ≤ n) {s u : State} (h : R s u)
include k hn h

theorem noteAck {j : Nat} : R (s.noteAck j) (u.noteAck j) := k.act (o := .noteAck j) hn trivial h

theorem recvBits {m : Nat} : R (s.recvBits m) (u.recvBits m) := by
  induction m generalizing s u with
  | zero => exact h
  | succ m ih => exact ih (k.countBit (k.act (o := .shiftAcc) hn trivial (k.bitClkHeld h)))

theorem recvByte : R s.recvByte u.recvByte := k.recvBits hn (k.setBitcnt h)

theorem beginRead {at_ : RStage → Stage} : R (s.beginRead at_) (u.beginRead at_) :=
  k.enter (k.act (o := .setAcc 0#16) hn trivial h)

theorem readWord {at_ : RStage → Stage} {i : Index} : R (s.readWord at_ i) (u.readWord at_ i) :=
  have opcode := k.noteAck hn (k.checkpoint (k.startSeq (k.enter (k.selectSeq h))))
  have addressed := k.noteAck hn (k.checkpoint opcode)
  have turned := k.noteAck hn (k.checkpoint (k.startSeq (k.enter addressed)))
  have high := k.sendAck (k.enter (k.recvByte hn (k.enter turned)))
  have low := k.sendNack (k.enter (k.recvByte hn (k.enter high)))
  k.deselectSeq (k.enter (k.stopSeq (k.enter low)))

end Read

section Bulk

variable {R : State → State → Prop} (k : State.Sim 2 R) {s u : State} (h : R s u)
include k h

theorem setWidx {v : BitVec 8} : R (s.setWidx v) (u.setWidx v) := k.act (o := .setWidx v) le_rfl trivial h

theorem countWord : R s.countWord u.countWord := by
  unfold State.countWord
  rw [(k.agree h).widx]
  exact k.setWidx h

theorem bufTouch {i : Index} : R (s.bufTouch i) (u.bufTouch i) := k.act (o := .bufTouch i) le_rfl trivial h

theorem bufWrite {i : Index} {v : Half} : R (s.bufWrite i v) (u.bufWrite i v) := k.act (o := .bufWrite i v) le_rfl trivial h

theorem rdallWord : R s.rdallWord u.rdallWord := by
  unfold State.rdallWord
  rw [(k.agree h).widx]
  have read := k.readWord (by decide) (k.beginRead (by decide) h (at_ := .aWord (Operand.slot s.widx)))
    (at_ := .aWord (Operand.slot s.widx)) (i := Operand.slot s.widx)
  simp only
  rw [(k.agree read).acc]
  exact k.countWord (k.bufWrite read)

theorem rdallWords {m : Nat} : R (s.rdallWords m) (u.rdallWords m) := by
  induction m generalizing s u with
  | zero => exact h
  | succ m ih => exact ih (k.rdallWord h)

theorem beginWrite : R s.beginWrite u.beginWrite := by
  unfold State.beginWrite
  simp only [(k.agree h).widx, (k.agree h).bufValue]
  exact k.enter (k.bufTouch (k.act (o := .setWword _) le_rfl trivial h))

end Bulk

end State.Sim

/-- Both runs end alike: they complete (a stopped run does nothing) with one status and one data word, from related states. -/
def State.EndAlike (R : State → State → Prop) (t t' : State) : Prop :=
  ∃ a b status rdata, t = State.complete status rdata a ∧ t' = State.complete status rdata b ∧ R a b

theorem State.Sim.wrallWords {R : State → State → Prop} (k : State.Sim 2 R) {s u : State} (h : R s u) {m : Nat} :
    State.EndAlike R (s.wrallWords m) (u.wrallWords m) := by
  induction m generalizing s u with
  | zero => exact ⟨s, u, _, _, rfl, rfl, h⟩
  | succ m ih =>
    have begun := k.beginWrite h
    rw [wrallWords_succ, wrallWords_succ, State.wrallWord, State.wrallWord, (k.agree h).widx, (k.agree begun).wword]
    obtain ⟨code, word⟩ := k.writeWord begun (at_ := .bWord (Operand.slot s.widx)) (i := Operand.slot s.widx)
      (w := s.beginWrite.wword)
    rw [code]
    split
    · exact ih (k.countWord word)
    · exact ⟨_, _, _, _, rfl, rfl, k.abortPath word⟩

/-- What every command does: it starts, performs acts, and completes (R140, R141). -/
theorem State.Sim.exec {R : State → State → Prop} (k : State.Sim 2 R) {s u : State} (i : Instr)
    (start : ∀ st, R (State.launch st s) (State.launch st u)) :
    ∃ t t', exec i s = .next t ∧ exec i u = .next t' ∧ State.EndAlike R t t' := by
  have acc {a b : State} (h : R a b) : b.acc = a.acc := (k.agree h).acc
  have sample {a b : State} (h : R a b) : b.sample = a.sample := (k.agree h).sample
  have value {a b : State} (h : R a b) (j : Index) : b.bufValue j = a.bufValue j := (k.agree h).bufValue j
  cases i
  case wrall => exact ⟨_, _, rfl, rfl, k.wrallWords (k.setWidx (start _))⟩
  case rdword j =>
    have read := k.readWord (by decide) (k.beginRead (by decide) (start (.read .select)) (at_ := .read)) (at_ := .read) (i := j)
    exact ⟨_, _, rfl, rfl, _, _, _, _, rfl, by rw [acc read], read⟩
  case bitclk dbs last =>
    have sampled := k.bitClk (start (.prim .bitclk)) (dbs := dbs) (last := last)
    exact ⟨_, _, rfl, rfl, _, _, _, _, rfl, by rw [sample sampled], sampled⟩
  case bufrd j =>
    have launched := start (.prim .bufrd)
    exact ⟨_, _, rfl, rfl, _, _, _, _, rfl, by rw [value launched], k.bufTouch launched⟩
  case wrword j w =>
    obtain ⟨code, word⟩ := k.writeWord (start (.word .select)) (at_ := .word) (i := j) (w := w)
    refine ⟨_, _, rfl, rfl, ?_⟩
    rw [code]
    split
    · exact ⟨_, _, _, _, rfl, rfl, word⟩
    · exact ⟨_, _, _, _, rfl, rfl, k.abortPath word⟩
  case delay => exact ⟨_, _, rfl, rfl, _, _, _, _, rfl, rfl, k.act (o := .delay) (by decide) trivial (start _)⟩
  case select => exact ⟨_, _, rfl, rfl, _, _, _, _, rfl, rfl, k.selectSeq (start _)⟩
  case deselect => exact ⟨_, _, rfl, rfl, _, _, _, _, rfl, rfl, k.deselectSeq (start _)⟩
  case start => exact ⟨_, _, rfl, rfl, _, _, _, _, rfl, rfl, k.startSeq (start _)⟩
  case stop => exact ⟨_, _, rfl, rfl, _, _, _, _, rfl, rfl, k.stopSeq (start _)⟩
  case rdall => exact ⟨_, _, rfl, rfl, _, _, _, _, rfl, rfl, k.rdallWords (k.setWidx (start _))⟩
  case bufwr => exact ⟨_, _, rfl, rfl, _, _, _, _, rfl, rfl, k.bufWrite (start _)⟩
  case sendop | eeWrite | eeRead => exact ⟨_, _, rfl, rfl, _, _, _, _, rfl, rfl, k.sendByte (start _)⟩
  case reserved0 | reservedE | reservedF => exact ⟨_, _, rfl, rfl, _, _, _, _, rfl, rfl, start _⟩

end Sys2Proof.Machine

namespace Sys2Proof.Machine

/-! ### A command ends complete, or waits -/

/-- Whatever every act of a command keeps holds where the command completes, or tries to. -/
theorem exec_ends {P : State → Prop} (hP : ∀ {o : Act} {s : State}, o.rank ≤ 2 → o.allowed True → P s → P (o.run s))
    {i : Instr} {s t : State} (start : ∀ st, P (State.launch st s)) (h : exec i s = .next t) :
    ∃ a status rdata, t = State.complete status rdata a ∧ P a := by
  obtain ⟨t', _, ht', _, a, _, status, rdata, rfl, _, _, ha⟩ :=
    (State.Sim.ofProperty hP).exec i (s := s) (u := s) fun st => ⟨rfl, start st⟩
  exact ⟨a, status, rdata, Host.Outcome.next.inj (h.symm.trans ht'), ha⟩

/-- A command that started at `s` is under way at `t`: no reset is coming, nothing is answered yet, and an access that waits is one
that the target does not acknowledge (R74). -/
structure State.Pending (s t : State) : Prop where
  rst : t.rst = none
  busy : t.busy = true
  rsp : t.rsp = s.rsp
  base : t.base = s.base
  refused : t.mport.req = true → (t.moduleAt s.base).grants = some 0

theorem State.Pending.running_iff {s t : State} (h : s.Pending t) : t.blocked = false ↔ t.mport.req = false := by
  simp [State.blocked, h.rst]

/-- An act that leaves the ports and the targets alone, and does not start or complete the command. -/
theorem State.Pending.silent {s t u : State} (h : s.Pending t) (hrst : u.rst = t.rst) (hbusy : u.busy = t.busy)
    (hrsp : u.rsp = t.rsp) (hbase : u.base = t.base) (hreq : u.mport = t.mport) (hmod : u.modules = t.modules) :
    s.Pending u :=
  ⟨hrst.trans h.rst, hbusy.trans h.busy, hrsp.trans h.rsp, hbase.trans h.base,
    fun hr => by rw [moduleAt_congr hmod]; exact h.refused (hreq ▸ hr)⟩

theorem lineWrite_pending (v : Half) {s t : State} (h : s.Pending t) : s.Pending (State.lineWrite v t) := by
  have hbase := h.base
  unfold State.lineWrite State.live
  split
  · exact h
  · dsimp only
    split
    · next hg => exact ⟨h.rst, h.busy, h.rsp, h.base, fun _ => hbase ▸ hg⟩
    · exact ⟨by simp [State.emit, h.rst], h.busy, h.rsp, h.base, nofun⟩

theorem readSample_pending {s t : State} (h : s.Pending t) : s.Pending (State.readSample t) := by
  have hbase := h.base
  unfold State.readSample State.live
  split
  · exact h
  · dsimp only
    split
    · next hg => exact ⟨h.rst, h.busy, h.rsp, h.base, fun _ => hbase ▸ hg⟩
    · exact ⟨by simp [State.emit, h.rst], h.busy, h.rsp, h.base, nofun⟩

theorem delay_rst {s : State} (h : s.rst = none) : (State.delay s).rst = none := by
  unfold State.delay State.live
  split
  · exact h
  · simp [State.emit, h]

theorem delay_pending {s t : State} (h : s.Pending t) : s.Pending (State.delay t) :=
  h.silent ((delay_rst h.rst).trans h.rst.symm) (by simp) (by simp) (by simp) (by simp) (by simp)

theorem Act.run_pending {o : Act} {s t : State} (hrank : o.rank ≤ 2) (h : s.Pending t) : s.Pending (o.run t) := by
  cases o
  case writeDelay v => exact delay_pending (lineWrite_pending v h)
  case readSample => exact readSample_pending h
  case delay => exact delay_pending h
  case launch | complete => simp [Act.rank] at hrank
  all_goals apply h.silent <;> simp [Act.run]

theorem launch_pending {s : State} (h : s.calm) (st : Stage) : s.Pending (State.launch st s) := by
  rw [launch_of_running h.running]
  exact ⟨h.2, rfl, rfl, rfl, fun hreq => by simp [h.1] at hreq⟩

theorem State.Runs.ready {buf : Prop} {s t : State} {n : Nat} (h : s.Runs buf n t) (hs : s.ready) : t.ready :=
  (h.writes_le_delays hs).1

/-- Settles O11: up to the completion a command is pending, and the completion takes place unless an access waits. -/
theorem commandCompletesOrWaits : Obligations.CommandCompletesOrWaits := by
  intro i s hcalm
  obtain ⟨t, hexec⟩ := exec_next i s
  have ready : s.ready → t.mport.req = false := fun hs => ((exec_runs hexec).ready hs).1.1
  obtain ⟨a, status, rdata, rfl, pending⟩ :=
    exec_ends (fun hrank _ => Act.run_pending hrank) (launch_pending hcalm) hexec
  refine ⟨_, hexec, ?_⟩
  cases hreq : a.mport.req with
  | false =>
    rw [complete_of_running (pending.running_iff.2 hreq)]
    exact ⟨.inl ⟨rfl, rfl, hreq⟩, fun _ => rfl⟩
  | true =>
    have hblocked : a.blocked = true := by simp [State.blocked, hreq]
    rw [complete_blocked hblocked] at ready ⊢
    exact ⟨.inr ⟨pending.busy, hreq, pending.rsp, pending.refused hreq⟩, fun hs => absurd (ready hs) (by simp [hreq])⟩

/-! ### The words on the master port -/

theorem lineWrite_portCarries (v : Half) {s : State} (h : s.ready) : s.portCarries (State.lineWrite v s) v := by
  simp [State.portCarries, State.lineWrite, State.live_of_running h.running, h.2, State.emit, MasterPort.done,
    State.writeRequest]

theorem writeDelay_portCarries (v : Half) {s : State} (h : s.ready) : s.portCarries (State.writeDelay v s) v := by
  rw [State.portCarries, State.writeDelay, delay_mport]
  exact lineWrite_portCarries v h

theorem readSample_portCarries {v : Half} {s : State} (h : s.ready) (hv : s.portCarries s v) :
    s.portCarries (State.readSample s) v := by
  simpa [State.portCarries, State.readSample, State.live_of_running h.running, h.2, State.emit, MasterPort.done,
    State.readRequest] using hv.2

/-- An act leaves the value it writes on the master port (R61, R63). -/
theorem Act.run_carries_written (o : Act) {v : Half} {s : State} (h : s.ready)
    (hv : (Trace.writes (o.events s)).getLast? = some v) : s.portCarries (o.run s) v := by
  cases o
  case writeDelay w =>
    obtain rfl := Option.some.inj hv
    exact writeDelay_portCarries w h
  all_goals cases hv

/-- An act that writes nothing leaves the value that stands there. -/
theorem Act.run_carries_kept (o : Act) {v : Half} {s : State} (h : s.ready)
    (hv : (Trace.writes (o.events s)).getLast? = none) (hs : s.portCarries s v) : s.portCarries (o.run s) v := by
  cases o
  case writeDelay w => cases hv
  case readSample => exact readSample_portCarries h hs
  all_goals simpa [State.portCarries, Act.run] using hs

theorem State.portCarries_congr {s t u : State} {v : Half} (hbase : t.base = s.base) (hpar : t.par = s.par) :
    t.portCarries u v ↔ s.portCarries u v := by
  rw [State.portCarries, State.portCarries, hbase, hpar]

theorem State.Runs.portCarries {buf : Prop} {s t : State} {n : Nat} (h : s.Runs buf n t) (hs : s.ready) :
    ∃ evs, s.ran t evs ∧ ∀ v, (Trace.writes evs).getLast? = some v → s.portCarries t v := by
  induction h with
  | refl n => exact ⟨[], ⟨rfl, by simp⟩, nofun⟩
  | @act o n t ho h ih =>
    obtain ⟨evs, hran, hport⟩ := ih
    obtain ⟨_, hran'⟩ := o.run_performed (h.ready hs)
    have congr {u : State} {v : Half} := State.portCarries_congr (u := u) (v := v) h.base h.par
    refine ⟨evs ++ o.events t, hran.trans hran' h.base, fun v hv => congr.1 ?_⟩
    rw [writes_append, List.getLast?_append] at hv
    cases hlast : (Trace.writes (o.events t)).getLast? with
    | some w =>
      obtain rfl : w = v := by simpa [hlast] using hv
      exact o.run_carries_written (h.ready hs) hlast
    | none => exact o.run_carries_kept (h.ready hs) hlast (congr.2 (hport v (by simpa [hlast] using hv)))

/-! ### Targets that answer logical values -/

/-- The responder and the degenerate targets (R80 to R89): all but the oracle, which stands for any target at all. -/
def Device.Modelled (d : Device) : Prop := ∀ answers, d ≠ .oracle answers

/-- The logical value that a modelled target answers, `line` being the last one written (R87, R89). -/
def Device.level (line : Half) : Device → Half
  | .oracle _ => line
  | .responder r => r.answer
  | .absent => line
  | .stuckLow => line &&& 0xFFF7#16

theorem Device.Modelled.take {d : Device} (h : d.Modelled) (v : Half) : (d.take v).Modelled := by
  cases d
  case oracle answers => exact absurd rfl (h answers)
  all_goals exact nofun

theorem Device.Modelled.answer {d : Device} (h : d.Modelled) (p : Params) (line : Half) (draws : Nat) :
    d.answer p line draws = (Operand.marshal p (d.level line), d, draws) := by
  cases d
  case oracle answers => exact absurd rfl (h answers)
  all_goals rfl

/-! ### Two builds that differ in the byte order -/

/-- The state in the build with the bytes of the register access exchanged, with the master port `m`. -/
def State.swapped (m : MasterPort) (s : State) : State :=
  { s with par := { s.par with swap := !s.par.swap }, mport := m }

/-- `u` is `s` in the other build: only the words on the master port may differ (R63). -/
def State.Twin (s u : State) : Prop :=
  (s.moduleAt s.base).device.Modelled ∧ ∃ m, u = s.swapped m ∧ m.req = s.mport.req

theorem State.Twin.agree {s u : State} (h : s.Twin u) : s.Agree u := by
  obtain ⟨_, m, rfl, _⟩ := h
  exact ⟨rfl, rfl, rfl, rfl, rfl, rfl, rfl, fun _ => rfl⟩

/-- An operation that neither looks at the port or the byte order nor changes the port or the targets. -/
theorem State.Twin.live {f : State → State} {s u : State} (h : s.Twin u) (hf : ∀ m t, f (State.swapped m t) = (f t).swapped m)
    (hport : ∀ t, (f t).mport = t.mport) (hmod : ∀ t, (f t).modules = t.modules) (hbase : ∀ t, (f t).base = t.base) :
    (State.live f s).Twin (State.live f u) := by
  obtain ⟨hmodelled, m, rfl, hreq⟩ := h
  have hblocked : (s.swapped m).blocked = s.blocked := by simp [State.blocked, State.swapped, hreq]
  simp only [State.live, hblocked, hf]
  split
  · exact ⟨hmodelled, m, rfl, hreq⟩
  · exact ⟨by rwa [hbase, moduleAt_congr (hmod s)], m, rfl, by rw [hport, hreq]⟩

theorem delay_twin {s u : State} (h : s.Twin u) : (State.delay s).Twin (State.delay u) :=
  h.live (fun _ _ => by simp [State.swapped, State.emit]) (fun _ => rfl) (fun _ => rfl) (fun _ => rfl)

theorem lineWrite_twin {v : Half} {s u : State} (h : s.Twin u) : (State.lineWrite v s).Twin (State.lineWrite v u) := by
  obtain ⟨hmodelled, m, rfl, hreq⟩ := h
  have hblocked : (s.swapped m).blocked = s.blocked := by simp [State.blocked, State.swapped, hreq]
  have hmodule : (s.swapped m).moduleAt (s.swapped m).base = s.moduleAt s.base := rfl
  simp only [State.lineWrite, State.live, hblocked, hmodule]
  split
  · exact ⟨hmodelled, m, rfl, hreq⟩
  split
  · exact ⟨hmodelled, _, rfl, rfl⟩
  · refine ⟨?_, _, rfl, rfl⟩
    simpa [State.moduleAt, State.emit, Module.take, Module.granted] using hmodelled.take v

/-- The logical value read does not depend on the byte order it travels in (R63). -/
theorem readSample_twin {s u : State} (h : s.Twin u) : (State.readSample s).Twin (State.readSample u) := by
  obtain ⟨hmodelled, m, rfl, hreq⟩ := h
  have hblocked : (s.swapped m).blocked = s.blocked := by simp [State.blocked, State.swapped, hreq]
  have hmodule : (s.swapped m).moduleAt (s.swapped m).base = s.moduleAt s.base := rfl
  simp only [State.readSample, State.live, hblocked, hmodule, hmodelled.answer, unmarshal_marshal]
  split
  · exact ⟨hmodelled, m, rfl, hreq⟩
  split
  · exact ⟨hmodelled, _, rfl, rfl⟩
  · refine ⟨?_, _, rfl, rfl⟩
    simpa [State.moduleAt, State.emit] using hmodelled

theorem noteAck_twin (j : Nat) {s u : State} (h : s.Twin u) : (State.noteAck j s).Twin (State.noteAck j u) := by
  unfold State.noteAck
  refine h.live (fun m t => ?_) (fun t => ?_) (fun t => ?_) (fun t => ?_)
  · cases hs : t.sample <;> simp [State.swapped, hs]
  all_goals split <;> rfl

theorem bufTouch_twin (j : Index) {s u : State} (h : s.Twin u) : (State.bufTouch j s).Twin (State.bufTouch j u) := by
  unfold State.bufTouch
  refine h.live (fun m t => ?_) (fun t => ?_) (fun t => ?_) (fun t => ?_)
  · cases hb : (Table.get j.toNat t.buf).isSome <;> simp [State.swapped, hb]
  all_goals split <;> rfl

theorem Act.run_twin {o : Act} {s u : State} (h : s.Twin u) : (o.run s).Twin (o.run u) := by
  cases o
  case writeDelay v => exact delay_twin (lineWrite_twin h)
  case readSample => exact readSample_twin h
  case delay => exact delay_twin h
  case noteAck j => exact noteAck_twin j h
  case bufTouch j => exact bufTouch_twin j h
  all_goals exact h.live (fun _ _ => rfl) (fun _ => rfl) (fun _ => rfl) (fun _ => rfl)

theorem twin_sim (n : Nat) : State.Sim n State.Twin := ⟨fun _ _ => Act.run_twin, State.Twin.agree⟩

/-- Settles O48: the last write stands on the port, and two builds that differ in the byte order stay twins through a command. -/
theorem swapIsInvisible : Obligations.SwapIsInvisible := by
  refine ⟨fun i s t hs hexec => (exec_runs hexec).portCarries hs, fun i s t _ hmodelled hexec => ?_⟩
  have start : s.Twin (s.swapped s.mport) := ⟨hmodelled, s.mport, rfl, rfl⟩
  obtain ⟨t', u, ht', hu, a, b, status, rdata, rfl, rfl, hab⟩ :=
    (twin_sim 2).exec i fun st => Act.run_twin (o := .launch st) start
  obtain rfl := Host.Outcome.next.inj (hexec.symm.trans ht')
  obtain ⟨_, m, hm, _⟩ : (State.complete status rdata a).Twin (State.complete status rdata b) := Act.run_twin (o := .complete status rdata) hab
  refine ⟨_, hu, by rw [hm]; rfl, ?_⟩
  rw [hm, State.swapped, (exec_runs hexec).par]

end Sys2Proof.Machine

namespace Sys2Proof.Machine

/-! ### A target that acknowledges nothing

The first write of a command is refused and stops the sequence, so whatever the command would do after it is void. -/

/-- The sequence runs, and the target of the latched base address acknowledges nothing (R74). -/
def State.Refused (s : State) : Prop := s.blocked = false ∧ (s.moduleAt s.base).grants = some 0

/-- The state in which a write of `v` waits for ever (R61, R74). -/
def State.hung (v : Half) (s : State) : State := { s with mport := s.writeRequest v }

theorem hung_blocked (v : Half) (s : State) : (s.hung v).blocked = true := rfl

/-- Nothing that a command does changes the waiting state. -/
theorem State.Runs.of_hung {v : Half} {s t : State} {n : Nat} (h : (s.hung v).Runs True n t) : t = s.hung v :=
  (eq_kept (hung_blocked v s)).runs h rfl

section Refused

variable {s : State} (h : s.Refused)
include h

theorem writeDelay_refused (v : Half) : State.writeDelay v s = s.hung v := by
  have hwrite : State.lineWrite v s = s.hung v := by
    rw [State.lineWrite, State.live_of_running h.1]
    exact if_pos h.2
  rw [State.writeDelay, hwrite, delay_blocked (hung_blocked v s)]

theorem bitClk_refused (dbs last : Bool) : State.bitClk dbs last s = s.hung (Frame.low last) := by
  simp [State.bitClk, clockLow_eq, writeDelay_refused h, writeDelay_blocked (hung_blocked _ s),
    readSample_blocked (hung_blocked _ s)]

theorem selectSeq_refused : State.selectSeq s = s.hung 0x0000#16 := by
  rw [State.selectSeq, writeDelay_refused h, writeDelay_blocked (hung_blocked _ s)]
  rfl

theorem deselectSeq_refused : State.deselectSeq s = s.hung 0x0000#16 := writeDelay_refused h _

theorem startSeq_refused : State.startSeq s = s.hung (Frame.low s.lastd) := by
  simp [State.startSeq, clockLow_eq, writeDelay_refused h, writeDelay_blocked (hung_blocked _ s)]

theorem stopSeq_refused : State.stopSeq s = s.hung (Frame.low s.lastd) := by
  simp [State.stopSeq, clockLow_eq, writeDelay_refused h, writeDelay_blocked (hung_blocked _ s)]

theorem sendBits_refused (b : Byte) (n : Nat) : State.sendBits b (n + 1) s = s.hung (Frame.low s.lastd) := by
  rw [State.sendBits, bitClk_refused h, countBit_blocked (hung_blocked _ s), sendBits_blocked (hung_blocked _ s)]

/-- A word read is void from its first write on: it does to `s` what it does to the stopped state. -/
theorem readWord_refused (at_ : RStage → Stage) (i : Index) : State.readWord at_ i s = s.hung 0x0000#16 := by
  have hblocked := hung_blocked 0x0000#16 s
  have void : State.readWord at_ i s = State.readWord at_ i (s.hung 0x0000#16) := by
    simp only [State.readWord, selectSeq_refused h, selectSeq_blocked hblocked]
  exact void.trans (State.Runs.refl 0).readWord.of_hung

theorem writeWord_refused (at_ : WStage → Stage) (i : Index) (w : Half) :
    (State.writeWord at_ i w s).2 = s.hung 0x0000#16 := by
  have hblocked := hung_blocked 0x0000#16 s
  have void : State.writeWord at_ i w s = State.writeWord at_ i w (s.hung 0x0000#16) := by
    simp only [State.writeWord, State.writeCode, selectSeq_refused h, selectSeq_blocked hblocked]
  rw [void]
  exact (State.Runs.refl 0).writeWord.of_hung

end Refused

/-- A command from `s` has started at `t` and not reached its first event: what its first access depends on is as at `s`. -/
structure State.Started (s t : State) : Prop where
  running : t.blocked = false
  busy : t.busy = true
  base : t.base = s.base
  par : t.par = s.par
  modules : t.modules = s.modules
  trace : t.trace = s.trace
  lastd : t.lastd = s.lastd
  rsp : t.rsp = s.rsp

theorem State.Started.refused {s t : State} (h : s.Started t) (hs : (s.moduleAt s.base).grants = some 0) : t.Refused :=
  ⟨h.running, by rw [h.base, moduleAt_congr h.modules]; exact hs⟩

theorem launch_started {s : State} (h : s.blocked = false) (st : Stage) : s.Started (State.launch st s) := by
  rw [launch_of_running h]
  exact ⟨h, rfl, rfl, rfl, rfl, rfl, rfl, rfl⟩

theorem State.Started.act {s t : State} (h : s.Started t) (o : Act) (hrank : o.rank ≤ 2) (ho : o.events t = []) :
    s.Started (o.run t) := by
  obtain ⟨hmport, hrst, hmod, htrace⟩ := Act.run_silent ho
  obtain ⟨-, hbase, -, -, hpar, -⟩ := o.run_latchesKept t
  have same : (o.run t).busy = t.busy ∧ (o.run t).lastd = t.lastd ∧ (o.run t).rsp = t.rsp := by
    cases o
    case launch | complete => simp [Act.rank] at hrank
    case writeDelay | delay | readSample => cases ho
    all_goals simp [Act.run]
  obtain ⟨hbusy, hlastd, hrsp⟩ := same
  exact ⟨by simpa [State.blocked, hmport, hrst] using h.running, hbusy.trans h.busy, hbase.trans h.base, hpar.trans h.par,
    hmod.trans h.modules, htrace.trans h.trace, hlastd.trans h.lastd, hrsp.trans h.rsp⟩

section Started

variable {s t : State} (h : s.Started t)
include h

theorem State.Started.enter (st : Stage) : s.Started (t.enter st) := h.act (.enter st) (by simp [Act.rank]) rfl

theorem State.Started.setBitcnt (v : BitVec 4) : s.Started (t.setBitcnt v) := h.act (.setBitcnt v) (by simp [Act.rank]) rfl

theorem State.Started.setWidx (v : BitVec 8) : s.Started (t.setWidx v) := h.act (.setWidx v) (by simp [Act.rank]) rfl

theorem State.Started.beginRead (at_ : RStage → Stage) : s.Started (t.beginRead at_) :=
  (h.act (.setAcc 0#16) (by decide) rfl).enter _

theorem State.Started.beginWrite : s.Started t.beginWrite :=
  ((h.act (.setWword _) (by simp [Act.rank]) rfl).act (.bufTouch _) (by simp [Act.rank]) rfl).enter _

variable (hs : (s.moduleAt s.base).grants = some 0)
include hs

theorem opcode_refused (code : Byte) :
    State.complete 0#4 0#16 (State.sendByte code t) = (t.setBitcnt 0#4).hung (Frame.low s.lastd) := by
  have h0 := h.setBitcnt 0#4
  rw [State.sendByte, sendBits_refused (h0.refused hs), h0.lastd, complete_blocked (hung_blocked _ _)]

/-- The first word of `RDALL` stops the command (R200). -/
theorem rdallWords_refused (n : Nat) :
    State.complete 0#4 0#16 (State.rdallWords (n + 1) t) =
      (t.beginRead (.aWord (Operand.slot t.widx))).hung 0x0000#16 := by
  rw [State.rdallWords, State.rdallWord]
  rw [readWord_refused ((h.beginRead _).refused hs)]
  exact ((((State.Runs.refl 0).bufWrite trivial).setWidx).rdallWords trivial).complete.of_hung

/-- The first word of `WRALL` stops the command (R201). -/
theorem wrallWords_refused (n : Nat) : State.wrallWords (n + 1) t = t.beginWrite.hung 0x0000#16 := by
  rw [wrallWords_succ, State.wrallWord, writeWord_refused (h.beginWrite.refused hs)]
  split
  · exact (State.Runs.refl 0).setWidx.wrallWords.of_hung
  · exact (State.Runs.refl 0).raiseNoAck.of_hung

end Started

/-- A command that reaches its target stops at its first write, of the value that the command begins with. -/
theorem exec_refused {i : Instr} {s : State} (hrun : s.blocked = false) (hs : (s.moduleAt s.base).grants = some 0)
    (hi : i ≠ .delay ∧ (∀ k, i ≠ .bufrd k) ∧ (∀ k v, i ≠ .bufwr k v) ∧ i ≠ .reserved0 ∧ i ≠ .reservedE ∧ i ≠ .reservedF) :
    ∃ t, s.Started t ∧ exec i s = .next (t.hung (Frame.first i s.lastd)) := by
  obtain ⟨hdelay, hbufrd, hbufwr, h0, hE, hF⟩ := hi
  have start := launch_started hrun
  have refused (st : Stage) := (start st).refused hs
  cases i
  case delay => exact absurd rfl hdelay
  case bufrd k => exact absurd rfl (hbufrd k)
  case bufwr k v => exact absurd rfl (hbufwr k v)
  case reserved0 => exact absurd rfl h0
  case reservedE => exact absurd rfl hE
  case reservedF => exact absurd rfl hF
  case bitclk dbs last =>
    refine ⟨_, start (.prim .bitclk), ?_⟩
    simp only [exec, execBitclk, bitClk_refused (refused _), complete_blocked (hung_blocked _ _), Frame.first]
  case select =>
    refine ⟨_, start (.prim .select), ?_⟩
    simp only [exec, execSelect, selectSeq_refused (refused _), complete_blocked (hung_blocked _ _), Frame.first]
  case deselect =>
    refine ⟨_, start (.prim .deselect), ?_⟩
    simp only [exec, execDeselect, deselectSeq_refused (refused _), complete_blocked (hung_blocked _ _), Frame.first]
  case start =>
    refine ⟨_, start (.prim .start), ?_⟩
    simp only [exec, execStart, startSeq_refused (refused _), complete_blocked (hung_blocked _ _), Frame.first, (start _).lastd]
  case stop =>
    refine ⟨_, start (.prim .stop), ?_⟩
    simp only [exec, execStop, stopSeq_refused (refused _), complete_blocked (hung_blocked _ _), Frame.first, (start _).lastd]
  case sendop | eeWrite | eeRead =>
    exact ⟨_, (start (.prim .sendop)).setBitcnt 0#4, congrArg Host.Outcome.next (opcode_refused (start _) hs _)⟩
  case rdword k =>
    have begun := (start (.read .select)).beginRead .read
    refine ⟨_, begun, ?_⟩
    simp only [exec, execRdword, readWord_refused (begun.refused hs), complete_blocked (hung_blocked _ _), Frame.first]
  case wrword k w =>
    refine ⟨_, start (.word .select), ?_⟩
    simp only [exec, execWrword, writeWord_refused (refused _), complete_blocked (hung_blocked _ _), Frame.first]
    rw [(State.Runs.refl 0).raiseNoAck.of_hung, ite_self]
  case rdall =>
    exact ⟨_, ((start (.aWord 0#7 .select)).setWidx 0#8).beginRead _,
      congrArg Host.Outcome.next (rdallWords_refused ((start _).setWidx 0#8) hs 127)⟩
  case wrall =>
    exact ⟨_, ((start (.bWord 0#7 .select)).setWidx 0#8).beginWrite,
      congrArg Host.Outcome.next (wrallWords_refused ((start _).setWidx 0#8) hs 127)⟩

/-- Settles O56: where the first write waits, the request stands on the port and the rest is as at the start. -/
theorem firstAccessHangs : Obligations.FirstAccessHangs := by
  intro i s hcalm hs hi
  obtain ⟨t, h, hexec⟩ := exec_refused hcalm.running hs hi
  refine ⟨_, hexec, h.busy, rfl, rfl, ?_, h.trace, h.modules, h.lastd, h.rsp⟩
  rw [State.portCarries, ← h.par, ← h.base]
  exact ⟨rfl, rfl⟩

end Sys2Proof.Machine

namespace Sys2Proof.Machine

/-! ### What a modelled target sees of a command

A command shows a target nothing but its writes, and a modelled target answers from the writes it has seen. So what a command does
to it, and what it hears from it, is a function of the target alone. -/

/-- The target after writes, in order. -/
def Device.takes (vs : List Half) (d : Device) : Device := vs.foldl (fun e v => e.take v) d

/-- The target after a bit clock (R144). -/
def Device.clock (dbs last : Bool) (d : Device) : Device := d.takes [Frame.low last, Frame.low dbs, Frame.high dbs]

/-- The sample of a bit clock, from the target after its writes (R24, R144). -/
def Device.heard (dbs : Bool) (d : Device) : Bool := (d.level (Frame.high dbs)).getLsbD 3

/-- The target after bits, the data bit `last` on the line before them (R111). -/
def Device.send (last : Bool) : List Bool → Device → Device
  | [], d => d
  | b :: rest, d => Device.send b rest (d.clock b last)

/-- The samples of bits. -/
def Device.hears (last : Bool) : List Bool → Device → List Bool
  | [], _ => []
  | b :: rest, d => (d.clock b last).heard b :: Device.hears b rest (d.clock b last)

/-- The target after a byte and its acknowledge (R150, R151). -/
def Device.sendAcked (last : Bool) (b : Byte) (d : Device) : Device := (d.send last (Frame.msbFirst b)).clock true (b.getLsbD 0)

/-- A ready block faces the target `d` with the given data bit on the line, accumulator and acknowledge record. -/
structure State.Faces (s : State) (d : Device) (last : Bool) (acc : Half) (rdack : BitVec 3) : Prop where
  ready : s.ready
  modelled : d.Modelled
  device : (s.moduleAt s.base).device = d
  lastd : s.lastd = last
  acc : s.acc = acc
  rdack : s.rdack = rdack

section Faces

variable {s : State} {d : Device} {last : Bool} {acc : Half} {rdack : BitVec 3} (h : s.Faces d last acc rdack)
include h

/-- What leaves the ports, the targets and these registers alone changes nothing of what the block faces. -/
theorem State.Faces.of_same {t : State} (hmport : t.mport = s.mport) (hrst : t.rst = s.rst) (hmod : t.modules = s.modules)
    (hbase : t.base = s.base) (hlastd : t.lastd = s.lastd) (hacc : t.acc = s.acc) (hrdack : t.rdack = s.rdack) :
    t.Faces d last acc rdack := by
  obtain ⟨⟨⟨hreq, hnone⟩, hgrants⟩, hmodelled, hdevice, hlast, ha, hr⟩ := h
  have hmodule : t.moduleAt t.base = s.moduleAt s.base := by rw [hbase, moduleAt_congr hmod]
  exact ⟨⟨⟨hmport ▸ hreq, hrst ▸ hnone⟩, hmodule ▸ hgrants⟩, hmodelled, hmodule ▸ hdevice, hlastd.trans hlast, hacc.trans ha,
    hrdack.trans hr⟩

theorem State.Faces.enter {st : Stage} : (s.enter st).Faces d last acc rdack := by apply h.of_same <;> simp

theorem State.Faces.setBitcnt {v : BitVec 4} : (s.setBitcnt v).Faces d last acc rdack := by apply h.of_same <;> simp

theorem State.Faces.setWidx {v : BitVec 8} : (s.setWidx v).Faces d last acc rdack := by apply h.of_same <;> simp

theorem State.Faces.bufWrite {i : Index} {v : Half} : (s.bufWrite i v).Faces d last acc rdack := by apply h.of_same <;> simp

theorem State.Faces.beginWrite : s.beginWrite.Faces d last acc rdack := by apply h.of_same <;> simp [State.beginWrite]

theorem State.Faces.countBit : s.countBit.Faces d last acc rdack := h.setBitcnt

theorem State.Faces.writeDelay (v : Half) : (s.writeDelay v).Faces (d.take v) (v.getLsbD 3) acc rdack where
  ready := (writeDelay_performs v h.ready).ready
  modelled := h.modelled.take v
  device := by rw [(writeDelay_performs v h.ready).base, writeDelay_device h.ready, h.device]
  lastd := (writeDelay_performs v h.ready).lastd
  acc := (writeDelay_acc v s).trans h.acc
  rdack := (writeDelay_rdack v s).trans h.rdack

/-- A sample leaves the target as it was and takes the value it answers (R30, R63). -/
theorem State.Faces.readSample :
    s.readSample.Faces d last acc rdack ∧ s.readSample.sample = (d.level (s.moduleAt s.base).line).getLsbD 3 := by
  obtain ⟨hp, hsample⟩ := readSample_performs h.ready
  refine ⟨⟨hp.ready, h.modelled, ?_, hp.lastd.trans h.lastd, (readSample_acc s).trans h.acc, (readSample_rdack s).trans h.rdack⟩, ?_⟩
  · rw [hp.base, readSample_device h.ready, h.device, h.modelled.answer]
  · rw [hsample, State.answerValue, h.device, h.modelled.answer, unmarshal_marshal]

theorem State.Faces.bitClk (dbs b : Bool) :
    (s.bitClk dbs b).Faces (d.clock dbs b) dbs acc rdack ∧ (s.bitClk dbs b).sample = (d.clock dbs b).heard dbs := by
  have low := (h.writeDelay (Frame.low b)).writeDelay (Frame.low dbs)
  have high := low.writeDelay (Frame.high dbs)
  obtain ⟨hfaces, hsample⟩ := high.readSample
  have hline := (writeDelay_performs (Frame.high dbs) low.ready).line
  rw [lastLine_written, ← (writeDelay_performs (Frame.high dbs) low.ready).base] at hline
  rw [hline] at hsample
  rw [high_data] at hfaces
  simp only [State.bitClk, clockLow_eq, clockHigh_eq]
  exact ⟨hfaces, hsample⟩

/-- A bit clock that holds the data bit on the line. -/
theorem State.Faces.bitClkHeld (dbs : Bool) :
    (s.bitClk dbs s.lastd).Faces (d.clock dbs last) dbs acc rdack ∧
      (s.bitClk dbs s.lastd).sample = (d.clock dbs last).heard dbs := by
  rw [h.lastd]
  exact h.bitClk dbs last

theorem State.Faces.selectSeq : s.selectSeq.Faces (d.takes [0x0000#16, 0x0038#16]) true acc rdack :=
  (h.writeDelay 0x0000#16).writeDelay 0x0038#16

theorem State.Faces.deselectSeq : s.deselectSeq.Faces (d.takes [0x0000#16]) false acc rdack := h.writeDelay 0x0000#16

theorem State.Faces.startSeq : s.startSeq.Faces (d.takes [Frame.low last, 0x0028#16, 0x0038#16, 0x0030#16]) false acc rdack := by
  have low := (h.writeDelay (Frame.low last)).writeDelay 0x0028#16
  simp only [State.startSeq, clockLow_eq, h.lastd]
  exact (low.writeDelay 0x0038#16).writeDelay 0x0030#16

theorem State.Faces.stopSeq : s.stopSeq.Faces (d.takes [Frame.low last, 0x0020#16, 0x0030#16, 0x0038#16]) true acc rdack := by
  have low := (h.writeDelay (Frame.low last)).writeDelay 0x0020#16
  simp only [State.stopSeq, clockLow_eq, h.lastd]
  exact (low.writeDelay 0x0030#16).writeDelay 0x0038#16

theorem State.Faces.sendBits (b : Byte) (n : Nat) (hn : n ≤ 8) (hc : s.bitcnt.toNat = 8 - n) :
    (s.sendBits b n).Faces (d.send last (Frame.restBits b n)) ((Frame.restBits b n).getLastD last) acc rdack := by
  induction n generalizing s d last with
  | zero => simpa [State.sendBits, Frame.restBits, Frame.msbFirst, Device.send] using h
  | succ n ih =>
    have hbit : Operand.msbFirst b s.bitcnt.toNat = Operand.msbFirst b (7 - n) := by rw [hc]; congr 1; omega
    obtain ⟨hclock, _⟩ := h.bitClkHeld (Operand.msbFirst b s.bitcnt.toNat)
    have hcount : (State.countBit (State.bitClk (Operand.msbFirst b s.bitcnt.toNat) s.lastd s)).bitcnt.toNat = 8 - n := by
      obtain ⟨_, hclocks⟩ := bitClk_clocks (Operand.msbFirst b s.bitcnt.toNat) s.lastd h.ready
      rw [countBit_eq, setBitcnt_of_running hclock.ready.running, hclocks.bitcnt, BitVec.toNat_add, hc]
      simp
      omega
    have rest := ih hclock.countBit (by omega) hcount
    rw [Frame.restBits_succ b (by omega), ← hbit, List.getLastD_cons]
    exact rest

theorem State.Faces.sendByte (b : Byte) : (s.sendByte b).Faces (d.send last (Frame.msbFirst b)) (b.getLsbD 0) acc rdack :=
  h.setBitcnt.sendBits b 8 le_rfl (by rw [setBitcnt_of_running h.ready.running]; rfl)

theorem State.Faces.ackChk : s.ackChk.Faces (d.clock true last) true acc rdack ∧ s.ackChk.sample = (d.clock true last).heard true :=
  h.bitClkHeld true

/-- A byte and its acknowledge (R150, R151). -/
theorem State.Faces.checkpoint {st st' : Stage} (b : Byte) :
    (State.ackChk (State.enter st' (State.sendByte b (State.enter st s)))).Faces (d.sendAcked last b) true acc rdack ∧
      (State.ackChk (State.enter st' (State.sendByte b (State.enter st s)))).sample = (d.sendAcked last b).heard true :=
  (h.enter.sendByte b).enter.ackChk

theorem State.Faces.shiftAcc : s.shiftAcc.Faces d last (Frame.shiftIn acc [s.sample]) rdack where
  ready := (shiftAcc_performs h.ready).ready
  modelled := h.modelled
  device := by rw [shiftAcc_base, moduleAt_congr (shiftAcc_modules s)]; exact h.device
  lastd := (shiftAcc_lastd s).trans h.lastd
  acc := by rw [shiftAcc_of_running h.ready.running, h.acc]; rfl
  rdack := (shiftAcc_rdack s).trans h.rdack

theorem State.Faces.recvBits (n : Nat) :
    (s.recvBits n).Faces (d.send last (List.replicate n true)) ((List.replicate n true).getLastD last)
      (Frame.shiftIn acc (d.hears last (List.replicate n true))) rdack := by
  induction n generalizing s d last acc with
  | zero => exact h
  | succ n ih =>
    obtain ⟨hclock, hsample⟩ := h.bitClkHeld true
    have rest := ih hclock.shiftAcc.countBit
    rw [hsample] at rest
    rw [List.replicate_succ, List.getLastD_cons]
    exact rest

theorem State.Faces.recvByte :
    s.recvByte.Faces (d.send last (List.replicate 8 true)) true (Frame.shiftIn acc (d.hears last (List.replicate 8 true))) rdack :=
  h.setBitcnt.recvBits 8

end Faces

/-- The acknowledge record after a sample of acknowledge `k` (R32). -/
def Device.note (k : Nat) (nack : Bool) (rdack : BitVec 3) : BitVec 3 := if nack then rdack ||| 1#3 <<< (k - 1) else rdack

theorem State.Faces.noteAck {s : State} {d : Device} {last : Bool} {acc : Half} {rdack : BitVec 3} (h : s.Faces d last acc rdack)
    (k : Nat) : (s.noteAck k).Faces d last acc (Device.note k s.sample rdack) where
  ready := (noteAck_performs k h.ready).ready
  modelled := h.modelled
  device := by rw [noteAck_base, moduleAt_congr (noteAck_modules k s)]; exact h.device
  lastd := (noteAck_lastd k s).trans h.lastd
  acc := by rw [← h.acc]; unfold State.noteAck; exact State.live_keeps State.acc (fun t => by split <;> rfl) s
  rdack := by
    rw [State.noteAck, State.live_of_running h.ready.running, Device.note, ← h.rdack]
    split <;> rfl

/-! ### What a word operation does to a target that acknowledges -/

/-- The target after select and start (R112). -/
def Device.opened (d : Device) : Device :=
  (d.takes [0x0000#16, 0x0038#16]).takes [Frame.low true, 0x0028#16, 0x0038#16, 0x0030#16]

/-- The target after the opcode "write" and its acknowledge. -/
def Device.coded (d : Device) : Device := d.opened.sendAcked false Config.opWrite

/-- The target after the address and its acknowledge. -/
def Device.addressed (i : Index) (d : Device) : Device := d.coded.sendAcked true (Operand.addrByte i)

/-- The target after the second start, the opcode "read" and its acknowledge (R113). -/
def Device.turned (i : Index) (d : Device) : Device :=
  ((d.addressed i).takes [Frame.low true, 0x0028#16, 0x0038#16, 0x0030#16]).sendAcked false Config.opRead

/-- The target after a byte read and its acknowledge, or the missing one that ends the reading (R152 to R154). -/
def Device.listened (last nack : Bool) (d : Device) : Device := (d.send last (List.replicate 8 true)).clock nack true

/-- The target after stop and deselect. -/
def Device.closed (d : Device) : Device :=
  (d.takes [Frame.low true, 0x0020#16, 0x0030#16, 0x0038#16]).takes [0x0000#16]

/-- The target after a word read (R183). -/
def Device.readWord (i : Index) (d : Device) : Device :=
  (((d.turned i).listened true false).listened false true).closed

/-- The samples of the two bytes of a word read (R186). -/
def Device.wordHeard (i : Index) (d : Device) : List Bool :=
  (d.turned i).hears true (List.replicate 8 true) ++ ((d.turned i).listened true false).hears false (List.replicate 8 true)

/-- The acknowledge record that a word read adds to (R32, R183). -/
def Device.readAcks (i : Index) (d : Device) (rdack : BitVec 3) : BitVec 3 :=
  Device.note 3 ((d.turned i).heard true) (Device.note 2 ((d.addressed i).heard true) (Device.note 1 (d.coded.heard true) rdack))

/-- The target after the high byte of a word write and its acknowledge. -/
def Device.tookHigh (i : Index) (w : Half) (d : Device) : Device := (d.addressed i).sendAcked true (Operand.hiByte w)

/-- The target after the low byte of a word write and its acknowledge. -/
def Device.tookLow (i : Index) (w : Half) (d : Device) : Device := (d.tookHigh i w).sendAcked true (Operand.loByte w)

/-- The target gives all four acknowledges of a word write (R180). -/
structure Device.Acks (i : Index) (w : Half) (d : Device) : Prop where
  coded : d.coded.heard true = false
  addressed : (d.addressed i).heard true = false
  tookHigh : (d.tookHigh i w).heard true = false
  tookLow : (d.tookLow i w).heard true = false

theorem Frame.shiftIn_append (acc : Half) (e f : List Bool) :
    Frame.shiftIn acc (e ++ f) = Frame.shiftIn (Frame.shiftIn acc e) f := List.foldl_append

/-- A word read, against any modelled target (R183, R185, R186). -/
theorem State.Faces.readWord {s : State} {d : Device} {last : Bool} {acc : Half} {rdack : BitVec 3} (h : s.Faces d last acc rdack)
    (at_ : RStage → Stage) (i : Index) :
    (s.readWord at_ i).Faces (d.readWord i) false (Frame.shiftIn acc (d.wordHeard i)) (d.readAcks i rdack) := by
  obtain ⟨hcoded, hack1⟩ := (h.selectSeq.enter (st := at_ .start)).startSeq.checkpoint (st := at_ .opcodeW) (st' := at_ .ack1)
    Config.opWrite
  have hcoded := hcoded.noteAck 1
  rw [hack1] at hcoded
  obtain ⟨haddressed, hack2⟩ := hcoded.checkpoint (st := at_ .addr) (st' := at_ .ack2) (Operand.addrByte i)
  have haddressed := haddressed.noteAck 2
  rw [hack2] at haddressed
  obtain ⟨hturned, hack3⟩ := (haddressed.enter (st := at_ .restart)).startSeq.checkpoint (st := at_ .opcodeR) (st' := at_ .ack3)
    Config.opRead
  have hturned := hturned.noteAck 3
  rw [hack3] at hturned
  have hhigh := ((hturned.enter (st := at_ .rxhi)).recvByte.enter (st := at_ .mack)).bitClkHeld false
  have hlow := ((hhigh.1.enter (st := at_ .rxlo)).recvByte.enter (st := at_ .mnack)).bitClkHeld true
  rw [Device.wordHeard, Frame.shiftIn_append]
  exact ((hlow.1.enter (st := at_ .stop)).stopSeq.enter (st := at_ .deselect)).deselectSeq

/-- A word write, against a modelled target that gives every acknowledge (R180). -/
theorem State.Faces.writeWord {s : State} {d : Device} {last : Bool} {acc : Half} {rdack : BitVec 3} (h : s.Faces d last acc rdack)
    (at_ : WStage → Stage) {i : Index} {w : Half} (acks : d.Acks i w) :
    (s.writeWord at_ i w).1 = 0#4 ∧ (s.writeWord at_ i w).2.Faces (d.tookLow i w).closed false acc rdack := by
  obtain ⟨hcoded, hack1⟩ := (h.selectSeq.enter (st := at_ .start)).startSeq.checkpoint (st := at_ .opcode) (st' := at_ .ack1)
    Config.opWrite
  obtain ⟨haddressed, hack2⟩ := hcoded.checkpoint (st := at_ .addr) (st' := at_ .ack2) (Operand.addrByte i)
  obtain ⟨hhigh, hack3⟩ := haddressed.checkpoint (st := at_ .dhi) (st' := at_ .ack3) (Operand.hiByte w)
  obtain ⟨hlow, hack4⟩ := hhigh.checkpoint (st := at_ .dlo) (st' := at_ .ack4) (Operand.loByte w)
  unfold State.writeWord
  extract_lets s1 s2 s3 s4
  have hlow : s4.Faces (d.tookLow i w) true acc rdack := hlow
  have hack1 : s1.sample = false := hack1.trans acks.coded
  have hack2 : s2.sample = false := hack2.trans acks.addressed
  have hack3 : s3.sample = false := hack3.trans acks.tookHigh
  have hack4 : s4.sample = false := hack4.trans acks.tookLow
  clear_value s1 s2 s3 s4
  simp only [hack1, hack2, hack3, hack4, Bool.false_eq_true, if_false, true_and]
  exact ((hlow.enter (st := at_ .stop)).stopSeq.enter (st := at_ .deselect)).deselectSeq

theorem complete_faces {s : State} {d : Device} {last : Bool} {acc : Half} {rdack : BitVec 3} (h : s.Faces d last acc rdack)
    (status : BitVec 4) (rdata : Half) :
    (State.complete status rdata s).Faces d last acc rdack ∧
      (State.complete status rdata s).rsp = Operand.response rdack status rdata := by
  rw [complete_of_running h.ready.running]
  exact ⟨⟨h.ready, h.modelled, h.device, h.lastd, h.acc, h.rdack⟩, by rw [h.rdack]⟩

/-- A command starts with an empty acknowledge record (R140). -/
theorem launch_faces {s : State} (hs : s.ready) (hd : (s.moduleAt s.base).device.Modelled) (st : Stage) :
    (State.launch st s).Faces (s.moduleAt s.base).device s.lastd s.acc 0#3 := by
  rw [launch_of_running hs.running]
  exact ⟨hs, hd, rfl, rfl, rfl, rfl⟩

theorem State.Faces.beginRead {s : State} {d : Device} {last : Bool} {acc : Half} {rdack : BitVec 3}
    (h : s.Faces d last acc rdack) (at_ : RStage → Stage) : (s.beginRead at_).Faces d last 0#16 rdack := by
  refine State.Faces.enter ?_
  rw [State.setAcc, State.live_of_running h.ready.running]
  exact ⟨h.ready, h.modelled, h.device, h.lastd, rfl, h.rdack⟩

/-- `RDWORD` in a ready state, against any modelled target (R183, R185). -/
theorem exec_rdword {i : Index} {s : State} {d : Device} (hs : s.ready) (hd : (s.moduleAt s.base).device = d) (hmod : d.Modelled) :
    ∃ t last acc rdack, exec (.rdword i) s = .next t ∧ t.Faces (d.readWord i) last acc rdack ∧
      t.rsp = Operand.response (d.readAcks i 0#3) 0#4 (Frame.shiftIn 0#16 (d.wordHeard i)) := by
  subst hd
  have read := ((launch_faces hs hmod (.read .select)).beginRead .read).readWord .read i
  obtain ⟨faces, hrsp⟩ := complete_faces read 0#4 (Frame.shiftIn 0#16 ((s.moduleAt s.base).device.wordHeard i))
  rw [← read.acc] at faces hrsp
  exact ⟨_, _, _, _, rfl, faces, read.acc ▸ hrsp⟩

/-! ### The degenerate targets (R89) -/

/-- A target that no write changes. -/
def Device.Steady (d : Device) : Prop := ∀ v, d.take v = d

section Steady

variable {d : Device} (h : d.Steady)
include h

theorem Device.Steady.takes (vs : List Half) : d.takes vs = d := by
  induction vs with
  | nil => rfl
  | cons v vs ih => rwa [Device.takes, List.foldl_cons, h v]

theorem Device.Steady.send (last : Bool) (bits : List Bool) : d.send last bits = d := by
  induction bits generalizing last with
  | nil => rfl
  | cons b bits ih => rw [Device.send, Device.clock, h.takes, ih]

theorem Device.Steady.sendAcked (last : Bool) (b : Byte) : d.sendAcked last b = d := by
  rw [Device.sendAcked, h.send, Device.clock, h.takes]

theorem Device.Steady.hears (last : Bool) (n : Nat) :
    d.hears last (List.replicate n true) = List.replicate n (d.heard true) := by
  induction n generalizing last with
  | zero => rfl
  | succ n ih => rw [List.replicate_succ, List.replicate_succ, Device.hears, Device.clock, h.takes, ih]

theorem Device.Steady.coded : d.coded = d := by rw [Device.coded, Device.opened, h.takes, h.takes, h.sendAcked]

theorem Device.Steady.addressed (i : Index) : d.addressed i = d := by rw [Device.addressed, h.coded, h.sendAcked]

theorem Device.Steady.turned (i : Index) : d.turned i = d := by rw [Device.turned, h.addressed, h.takes, h.sendAcked]

theorem Device.Steady.listened (last nack : Bool) : d.listened last nack = d := by
  rw [Device.listened, h.send, Device.clock, h.takes]

theorem Device.Steady.wordHeard (i : Index) :
    d.wordHeard i = List.replicate 8 (d.heard true) ++ List.replicate 8 (d.heard true) := by
  rw [Device.wordHeard, h.turned, h.listened, h.hears, h.hears]

theorem Device.Steady.readAcks (i : Index) (rdack : BitVec 3) :
    d.readAcks i rdack = Device.note 3 (d.heard true) (Device.note 2 (d.heard true) (Device.note 1 (d.heard true) rdack)) := by
  rw [Device.readAcks, h.turned, h.addressed, h.coded]

end Steady

/-- Settles O44: every sample of an absent target is the released line, every one of a line stuck low is 0. -/
theorem rdwordDegenerateTargets : Obligations.RdwordDegenerateTargets := by
  intro i s hs
  have absent : Device.Steady .absent := fun _ => rfl
  have stuckLow : Device.Steady .stuckLow := fun _ => rfl
  refine ⟨fun hd => ?_, fun hd => ?_⟩
  · obtain ⟨t, _, _, _, hexec, _, hrsp⟩ := exec_rdword (i := i) hs hd nofun
    refine ⟨t, hexec, ?_⟩
    rw [hrsp, absent.readAcks, absent.wordHeard]
    decide
  · obtain ⟨t, _, _, _, hexec, _, hrsp⟩ := exec_rdword (i := i) hs hd nofun
    refine ⟨t, hexec, ?_⟩
    rw [hrsp, stuckLow.readAcks, stuckLow.wordHeard]
    decide

end Sys2Proof.Machine

namespace Sys2Proof.Machine

/-! ### Bits as numbers -/

theorem number_from (bs : List Bool) (m : Nat) :
    bs.foldl (fun n b => 2 * n + b.toNat) m = m * 2 ^ bs.length + Frame.number bs := by
  induction bs generalizing m with
  | nil => simp [Frame.number]
  | cons b bs ih =>
    rw [Frame.number, List.foldl_cons, List.foldl_cons, ih, ih, List.length_cons, Nat.pow_succ]
    ring

theorem number_append (e f : List Bool) : Frame.number (e ++ f) = Frame.number e * 2 ^ f.length + Frame.number f := by
  rw [Frame.number, List.foldl_append, number_from f]
  rfl

theorem number_msbFirst (b : Byte) : Frame.number (Frame.msbFirst b) = b.toNat := by
  revert b
  decide

/-- A bit shifted in, as a number (R31, R85). -/
theorem shiftBit_toNat {n : Nat} (a : BitVec (n + 1)) (b : Bool) :
    (a.extractLsb' 0 n ++ BitVec.ofBool b : BitVec (n + 1)).toNat = (2 * a.toNat + b.toNat) % 2 ^ (n + 1) := by
  have hb : b.toNat < 2 := Bool.toNat_lt b
  rw [BitVec.toNat_append, ← Nat.shiftLeft_add_eq_or_of_lt (BitVec.isLt _), BitVec.extractLsb'_toNat, BitVec.toNat_ofBool,
    Nat.shiftRight_zero, Nat.shiftLeft_eq, show 2 ^ (n + 1) = 2 * 2 ^ n by ring, Nat.mod_mul,
    show (2 * a.toNat + b.toNat) % 2 = b.toNat by omega, show (2 * a.toNat + b.toNat) / 2 = a.toNat by omega]
  omega

/-- Bits shifted in one after another, as a number: the first one is the most significant (R111, R186). -/
theorem shiftBits_toNat {n : Nat} (bs : List Bool) (a : BitVec (n + 1)) :
    (bs.foldl (fun c b => (c.extractLsb' 0 n ++ BitVec.ofBool b : BitVec (n + 1))) a).toNat =
      (a.toNat * 2 ^ bs.length + Frame.number bs) % 2 ^ (n + 1) := by
  induction bs generalizing a with
  | nil => simp [Frame.number, Nat.mod_eq_of_lt a.isLt]
  | cons b bs ih =>
    have hnumber : Frame.number (b :: bs) = b.toNat * 2 ^ bs.length + Frame.number bs := by
      rw [Frame.number, List.foldl_cons, number_from]
      simp
    rw [List.foldl_cons, ih, shiftBit_toNat, hnumber, Nat.add_mod, Nat.mod_mul_mod, ← Nat.add_mod, List.length_cons, Nat.pow_succ]
    congr 1
    ring

theorem shiftIn_word (w : Half) :
    Frame.shiftIn 0#16 (Frame.msbFirst (Frame.high8 w) ++ Frame.msbFirst (Frame.low8 w)) = w := by
  apply BitVec.eq_of_toNat_eq
  refine (shiftBits_toNat (n := 15) _ 0#16).trans ?_
  rw [number_append, number_msbFirst, number_msbFirst]
  simp [Frame.high8, Frame.low8, Frame.msbFirst]
  omega

/-! ### The reference responder, edge by edge (R82 to R87)

A responder is written as `r.lines cs clk d`: what it remembers of the lines, beside `r` for all the rest, which edges alone change. -/

/-- The responder with the given lines remembered. -/
def Responder.lines (cs clk d : Bool) (r : Responder) : Responder := { r with pcs := cs, pclk := clk, pd := d }

/-- A start condition begins the receipt of a control byte (R83). -/
def Responder.begun (r : Responder) : Responder := { r with mode := .rx .ctrl 0 0#8, pull := false }

/-- A bit clock, apart from the lines: a falling edge and a rising one (R85, R86). -/
def Responder.bit (d : Bool) (r : Responder) : Responder := r.fall.rise d

theorem acknowledge_lines (cs clk d : Bool) (next : AckNext) {store : Responder → Responder} {r : Responder}
    (h : store (r.lines cs clk d) = (store r).lines cs clk d) :
    (r.lines cs clk d).acknowledge next store = (r.acknowledge next store).lines cs clk d := by
  have hleft : (r.lines cs clk d).acksLeft = r.acksLeft := rfl
  simp only [Responder.acknowledge, hleft, h]
  split <;> rfl

theorem received_lines (cs clk d : Bool) (kind : RxKind) (sh : Byte) (r : Responder) :
    (r.lines cs clk d).received kind sh = (r.received kind sh).lines cs clk d := by
  cases kind with
  | ctrl =>
    simp only [Responder.received]
    split
    · exact acknowledge_lines cs clk d _ rfl
    · split
      · exact acknowledge_lines cs clk d _ rfl
      · rfl
  | addr => exact acknowledge_lines cs clk d _ rfl
  | data => exact acknowledge_lines cs clk d _ rfl

/-- A falling edge neither looks at the remembered lines nor changes them. -/
theorem fall_lines (cs clk d : Bool) (r : Responder) : (r.lines cs clk d).fall = r.fall.lines cs clk d := by
  have hmode : (r.lines cs clk d).mode = r.mode := rfl
  cases hm : r.mode with
  | idle => simp only [Responder.fall, hmode, hm]
  | rx kind n sh =>
    simp only [Responder.fall, hmode, hm, received_lines]
    split <;> rfl
  | ack next => cases next <;> simp only [Responder.fall, hmode, hm] <;> rfl
  | tx n sh =>
    simp only [Responder.fall, hmode, hm]
    split
    · rfl
    · split <;> rfl
  | mack => simp only [Responder.fall, hmode, hm]
  | mackd a => cases a <;> simp only [Responder.fall, hmode, hm] <;> rfl

theorem rise_lines (cs clk d b : Bool) (r : Responder) : (r.lines cs clk d).rise b = (r.rise b).lines cs clk d := by
  have hmode : (r.lines cs clk d).mode = r.mode := rfl
  cases hm : r.mode with
  | rx kind n sh =>
    simp only [Responder.rise, hmode, hm]
    split <;> rfl
  | _ => simp only [Responder.rise, hmode, hm] <;> rfl

@[simp] theorem lines_lines (cs clk d cs' clk' d' : Bool) (r : Responder) :
    (r.lines cs clk d).lines cs' clk' d' = r.lines cs' clk' d' := rfl

theorem take_eq (v : Half) (r : Responder) :
    r.take v = (r.edge (Line.cs v) (Line.clk v) (Line.data v)).lines (Line.cs v) (Line.clk v) (Line.data v) := rfl

@[simp] theorem cs_low (d : Bool) : Line.cs (Frame.low d) = true := by cases d <;> rfl

@[simp] theorem clk_low (d : Bool) : Line.clk (Frame.low d) = false := by cases d <;> rfl

@[simp] theorem data_low (d : Bool) : Line.data (Frame.low d) = d := low_data d

@[simp] theorem cs_high (d : Bool) : Line.cs (Frame.high d) = true := by cases d <;> rfl

@[simp] theorem clk_high (d : Bool) : Line.clk (Frame.high d) = true := by cases d <;> rfl

@[simp] theorem data_high (d : Bool) : Line.data (Frame.high d) = d := high_data d

/-! ### Writes of the frame, as edges -/

section Takes

variable (r : Responder) (d e cs clk : Bool)

theorem take_low_falling : (r.lines true true e).take (Frame.low d) = r.fall.lines true false d := by
  have hedge : (r.lines true true e).edge true false d = (r.lines true true e).fall := by
    simp [Responder.edge, Responder.lines]
  rw [take_eq, cs_low, clk_low, data_low, hedge, fall_lines, lines_lines]

theorem take_low_held : (r.lines true false e).take (Frame.low d) = r.lines true false d := by
  have hedge : (r.lines true false e).edge true false d = r.lines true false e := by
    simp [Responder.edge, Responder.lines]
  rw [take_eq, cs_low, clk_low, data_low, hedge, lines_lines]

theorem take_high_rising : (r.lines true false e).take (Frame.high d) = (r.rise d).lines true true d := by
  have hedge : (r.lines true false e).edge true true d = (r.lines true false e).rise d := by
    simp [Responder.edge, Responder.lines]
  rw [take_eq, cs_high, clk_high, data_high, hedge, rise_lines, lines_lines]

theorem take_high_start : (r.lines true true true).take (Frame.high false) = r.begun.lines true true false := by
  have hedge : (r.lines true true true).edge true true false = (r.lines true true true).begun := by
    simp [Responder.edge, Responder.lines, Responder.begun]
  rw [take_eq, cs_high, clk_high, data_high, hedge]
  rfl

theorem take_high_stop : (r.lines true true false).take (Frame.high true) = r.toIdle.lines true true true := by
  have hedge : (r.lines true true false).edge true true true = (r.lines true true false).toIdle := by
    simp [Responder.edge, Responder.lines]
  rw [take_eq, cs_high, clk_high, data_high, hedge]
  rfl

/-- Chip-select off, whatever the responder was at (R82). -/
theorem take_deselected : r.take 0x0000#16 = r.toIdle.lines false false false := rfl

theorem take_selected : (r.lines false clk e).take (Frame.high d) = r.toIdle.lines true true d := by
  have hedge : (r.lines false clk e).edge true true d = (r.lines false clk e).toIdle := by
    simp [Responder.edge, Responder.lines]
  rw [take_eq, cs_high, clk_high, data_high, hedge]
  rfl

end Takes

/-! ### The frame, as the responder takes it -/

/-- Bits one after another, apart from the lines. -/
def Responder.bits (bs : List Bool) (r : Responder) : Responder := bs.foldl (fun q b => q.bit b) r

/-- A byte and its acknowledge, apart from the lines. -/
def Responder.acked (b : Byte) (r : Responder) : Responder := (r.bits (Frame.msbFirst b)).bit true

section Frames

variable (r : Responder) (d last : Bool)

theorem takes_responder (vs : List Half) (q : Responder) :
    Device.takes vs (.responder q) = .responder (vs.foldl (fun p v => p.take v) q) := by
  induction vs generalizing q with
  | nil => rfl
  | cons v vs ih => exact ih (q.take v)

theorem select_responder : Device.takes [0x0000#16, 0x0038#16] (.responder r) = .responder (r.toIdle.lines true true true) := by
  rw [show (0x0038#16 : Half) = Frame.high true from rfl, takes_responder, List.foldl_cons, take_deselected, List.foldl_cons,
    take_selected]
  rfl

theorem deselect_responder : Device.takes [0x0000#16] (.responder r) = .responder (r.toIdle.lines false false false) := rfl

theorem start_responder :
    Device.takes [Frame.low last, 0x0028#16, 0x0038#16, 0x0030#16] (.responder (r.lines true true d)) =
      .responder ((r.bit true).begun.lines true true false) := by
  rw [show (0x0028#16 : Half) = Frame.low true from rfl, show (0x0038#16 : Half) = Frame.high true from rfl,
    show (0x0030#16 : Half) = Frame.high false from rfl, takes_responder, List.foldl_cons, take_low_falling, List.foldl_cons,
    take_low_held, List.foldl_cons, take_high_rising, List.foldl_cons, take_high_start]
  rfl

theorem stop_responder :
    Device.takes [Frame.low last, 0x0020#16, 0x0030#16, 0x0038#16] (.responder (r.lines true true d)) =
      .responder ((r.bit false).toIdle.lines true true true) := by
  rw [show (0x0020#16 : Half) = Frame.low false from rfl, show (0x0030#16 : Half) = Frame.high false from rfl,
    show (0x0038#16 : Half) = Frame.high true from rfl, takes_responder, List.foldl_cons, take_low_falling, List.foldl_cons,
    take_low_held, List.foldl_cons, take_high_rising, List.foldl_cons, take_high_stop]
  rfl

theorem clock_responder (b : Bool) :
    Device.clock b last (.responder (r.lines true true d)) = .responder ((r.bit b).lines true true b) := by
  rw [Device.clock, takes_responder, List.foldl_cons, take_low_falling, List.foldl_cons, take_low_held, List.foldl_cons,
    take_high_rising]
  rfl

theorem heard_responder (b : Bool) : Device.heard b (.responder (r.lines true true b)) = (b && !r.pull) := by
  simp only [Device.heard, Device.level, Responder.answer, Responder.lines]
  cases b <;> cases r.pull <;> rfl

theorem send_responder (bs : List Bool) :
    Device.send last bs (.responder (r.lines true true d)) = .responder ((r.bits bs).lines true true (bs.getLastD d)) := by
  induction bs generalizing r d last with
  | nil => rfl
  | cons b bs ih => rw [Device.send, clock_responder, ih, List.getLastD_cons]; rfl

theorem sendAcked_responder (b : Byte) :
    Device.sendAcked last b (.responder (r.lines true true d)) = .responder ((r.acked b).lines true true true) := by
  rw [Device.sendAcked, send_responder, clock_responder]
  rfl

theorem opened_responder : Device.opened (.responder r) = .responder ((r.toIdle.bit true).begun.lines true true false) := by
  rw [Device.opened, select_responder, start_responder]

theorem closed_responder :
    Device.closed (.responder (r.lines true true d)) = .responder ((r.bit false).toIdle.lines false false false) := by
  rw [Device.closed, stop_responder, deselect_responder]
  rfl

end Frames

/-! ### Bytes received and sent by the responder (R85, R86) -/

theorem bit_rx (r : Responder) {kind : RxKind} {n : Nat} {sh : Byte} (hn : n < 8) (b : Bool) :
    ({ r with mode := .rx kind n sh } : Responder).bit b =
      { r with mode := .rx kind (n + 1) (sh.extractLsb' 0 7 ++ BitVec.ofBool b) } := by
  have hn' : n ≠ 8 := by omega
  simp [Responder.bit, Responder.fall, Responder.rise, hn, hn']

/-- Bits shifted into a byte (R85). -/
def Responder.shift (sh : Byte) (bs : List Bool) : Byte := bs.foldl (fun a b => a.extractLsb' 0 7 ++ BitVec.ofBool b) sh

theorem bits_rx (r : Responder) (kind : RxKind) (bs : List Bool) (n : Nat) (sh : Byte) (hn : n + bs.length ≤ 8) :
    Responder.bits bs { r with mode := .rx kind n sh } = { r with mode := .rx kind (n + bs.length) (Responder.shift sh bs) } := by
  induction bs generalizing n sh with
  | nil => rfl
  | cons b bs ih =>
    rw [List.length_cons] at hn
    have rest := ih (n + 1) (sh.extractLsb' 0 7 ++ BitVec.ofBool b) (by omega)
    rw [Responder.bits, List.foldl_cons, bit_rx r (by omega), List.length_cons, ← Nat.add_assoc, Nat.add_right_comm]
    exact rest

theorem shift_msbFirst (sh b : Byte) : Responder.shift sh (Frame.msbFirst b) = b := by
  apply BitVec.eq_of_toNat_eq
  refine (shiftBits_toNat (n := 7) _ sh).trans ?_
  rw [number_msbFirst]
  simpa [Frame.msbFirst] using b.isLt

/-- A falling edge that leads to a byte to receive is no edge of that byte. -/
theorem acked_of_fall {r q : Responder} (h : r.fall = q) (hq : q.fall = q) (b : Byte) : r.acked b = q.acked b := by
  have first : r.bit (b.getLsbD 7) = q.bit (b.getLsbD 7) := by rw [Responder.bit, Responder.bit, h, hq]
  simp only [Responder.acked, Responder.bits, Frame.msbFirst, List.map_cons, List.foldl_cons, first]

theorem acked_rx (r : Responder) (kind : RxKind) (b : Byte) :
    ({ r with mode := .rx kind 0 0#8 } : Responder).acked b =
      (({ r with mode := .rx kind 8 b } : Responder).received kind b).rise true := by
  rw [Responder.acked, bits_rx r kind _ 0 0#8 le_rfl, shift_msbFirst]
  rfl

/-- The samples of `n` bits that the host leaves to the responder. -/
def Responder.sends : Nat → Responder → List Bool
  | 0, _ => []
  | n + 1, r => (!(r.bit true).pull) :: Responder.sends n (r.bit true)

theorem hears_responder (r : Responder) (d last : Bool) (n : Nat) :
    Device.hears last (List.replicate n true) (.responder (r.lines true true d)) = r.sends n := by
  induction n generalizing r d last with
  | zero => rfl
  | succ n ih => rw [List.replicate_succ, Device.hears, clock_responder, heard_responder, ih]; rfl

theorem bit_tx (r : Responder) {n : Nat} (sh : Byte) (pull d : Bool) (h1 : 1 ≤ n) (h7 : n ≤ 7) :
    ({ r with mode := .tx n sh, pull := pull } : Responder).bit d =
      { r with mode := .tx (n + 1) sh, pull := !sh.getLsbD (7 - n) } := by
  have h8 : n ≠ 8 := by omega
  simp [Responder.bit, Responder.fall, Responder.rise, h8, h1, h7]

/-- A byte that begins at a falling edge goes out most significant bit first (R86, R111). -/
theorem sends_byte {r q : Responder} {sh : Byte} (h : r.fall = { q with mode := .tx 0 sh, pull := !sh.getLsbD 7 }) :
    r.sends 8 = Frame.msbFirst sh ∧
      r.bits (List.replicate 8 true) = { q with mode := .tx 8 sh, pull := !sh.getLsbD 0 } := by
  have first : r.bit true = { q with mode := .tx 1 sh, pull := !sh.getLsbD 7 } := by rw [Responder.bit, h]; rfl
  simp [Responder.sends, Responder.bits, first, bit_tx, Frame.msbFirst]

/-! ### A word, against a responder that gives every acknowledge (R86) -/

/-- A responder that gives every acknowledge, apart from the lines. -/
def Responder.willing (ptr : Byte) (mem : List Host.Cell) (mode : Mode) (pull : Bool) : Responder :=
  { pcs := false, pclk := false, pd := false, pull := pull, ptr := ptr, mem := mem, mode := mode, acksLeft := none }

section Willing

variable (p b : Byte) (m : List Host.Cell)

theorem willing_coded :
    (Responder.willing p m (.rx .ctrl 0 0#8) false).acked Config.opWrite = Responder.willing p m (.ack .rxAddr) true :=
  acked_rx (Responder.willing p m .idle false) .ctrl Config.opWrite

theorem willing_addressed :
    (Responder.willing p m (.ack .rxAddr) true).acked b = Responder.willing b m (.ack .rxData) true :=
  (acked_of_fall (q := Responder.willing p m (.rx .addr 0 0#8) false) rfl rfl b).trans
    (acked_rx (Responder.willing p m .idle false) .addr b)

theorem willing_stored :
    (Responder.willing p m (.ack .rxData) true).acked b =
      Responder.willing (p + 1#8) (Memory.write m p.toNat b) (.ack .rxData) true :=
  (acked_of_fall (q := Responder.willing p m (.rx .data 0 0#8) false) rfl rfl b).trans
    (acked_rx (Responder.willing p m .idle false) .data b)

theorem willing_restarted :
    ((Responder.willing p m (.ack .rxData) true).bit true).begun = Responder.willing p m (.rx .ctrl 0 0#8) false := rfl

theorem willing_turned :
    (Responder.willing p m (.rx .ctrl 0 0#8) false).acked Config.opRead = Responder.willing p m (.ack .tx) true :=
  acked_rx (Responder.willing p m .idle false) .ctrl Config.opRead

/-- A byte is sent, and the acknowledge of the host decides what follows (R86). -/
theorem willing_sends {mode : Mode} {pull : Bool} (h : (Responder.willing p m mode pull).fall = (Responder.willing p m mode pull).beginTx)
    (nack : Bool) :
    (Responder.willing p m mode pull).sends 8 = Frame.msbFirst (Memory.read m p.toNat) ∧
      ((Responder.willing p m mode pull).bits (List.replicate 8 true)).bit nack =
        Responder.willing (p + 1#8) m (.mackd nack) false := by
  obtain ⟨hsends, hbits⟩ := sends_byte (q := Responder.willing (p + 1#8) m mode pull) (sh := Memory.read m p.toNat) h
  exact ⟨hsends, by rw [hbits]; rfl⟩

theorem listened_willing {mode : Mode} {pull d : Bool}
    (h : (Responder.willing p m mode pull).fall = (Responder.willing p m mode pull).beginTx) (last nack : Bool) :
    Device.listened last nack (.responder ((Responder.willing p m mode pull).lines true true d)) =
      .responder ((Responder.willing (p + 1#8) m (.mackd nack) false).lines true true nack) := by
  rw [Device.listened, send_responder, clock_responder, (willing_sends p m h nack).2]

end Willing

/-- The memory with a word stored in its two bytes (R90). -/
def Memory.writeWord (m : List Host.Cell) (i : Index) (w : Half) : List Host.Cell :=
  Memory.write (Memory.write m (Operand.addrByte i).toNat (Operand.hiByte w)) (Operand.addrByte i + 1#8).toNat (Operand.loByte w)

section Word

variable {r : Responder} (h : r.acksLeft = none) (i : Index) (w : Half)
include h

theorem opened_willing :
    Device.opened (.responder r) = .responder ((Responder.willing r.ptr r.mem (.rx .ctrl 0 0#8) false).lines true true false) := by
  rw [opened_responder]
  cases r
  obtain rfl := h
  rfl

theorem coded_willing :
    Device.coded (.responder r) = .responder ((Responder.willing r.ptr r.mem (.ack .rxAddr) true).lines true true true) := by
  rw [Device.coded, opened_willing h, sendAcked_responder, willing_coded]

theorem addressed_willing :
    Device.addressed i (.responder r) =
      .responder ((Responder.willing (Operand.addrByte i) r.mem (.ack .rxData) true).lines true true true) := by
  rw [Device.addressed, coded_willing h, sendAcked_responder, willing_addressed]

theorem tookHigh_willing :
    Device.tookHigh i w (.responder r) =
      .responder ((Responder.willing (Operand.addrByte i + 1#8)
        (Memory.write r.mem (Operand.addrByte i).toNat (Operand.hiByte w)) (.ack .rxData) true).lines true true true) := by
  rw [Device.tookHigh, addressed_willing h, sendAcked_responder, willing_stored]

theorem tookLow_willing :
    Device.tookLow i w (.responder r) =
      .responder ((Responder.willing (Operand.addrByte i + 1#8 + 1#8) (Memory.writeWord r.mem i w) (.ack .rxData) true).lines
        true true true) := by
  rw [Device.tookLow, tookHigh_willing h, sendAcked_responder, willing_stored]
  rfl

theorem turned_willing :
    Device.turned i (.responder r) =
      .responder ((Responder.willing (Operand.addrByte i) r.mem (.ack .tx) true).lines true true true) := by
  rw [Device.turned, addressed_willing h, start_responder, willing_restarted, sendAcked_responder, willing_turned]

theorem willing_acks : Device.Acks i w (.responder r) where
  coded := by rw [coded_willing h, heard_responder]; rfl
  addressed := by rw [addressed_willing h, heard_responder]; rfl
  tookHigh := by rw [tookHigh_willing h, heard_responder]; rfl
  tookLow := by rw [tookLow_willing h, heard_responder]; rfl

/-- A word write stores the two bytes of the word, and nothing else (R90). -/
theorem wrote_willing :
    (Device.tookLow i w (.responder r)).closed =
      .responder (Responder.willing (Operand.addrByte i + 1#8 + 1#8) (Memory.writeWord r.mem i w) .idle false) := by
  rw [tookLow_willing h, closed_responder]
  rfl

theorem readAcks_willing (rdack : BitVec 3) : Device.readAcks i (.responder r) rdack = rdack := by
  rw [Device.readAcks, turned_willing h, addressed_willing h, coded_willing h, heard_responder, heard_responder, heard_responder]
  rfl

/-- A word read hears the two bytes of the word (R90). -/
theorem wordHeard_willing :
    Device.wordHeard i (.responder r) =
      Frame.msbFirst (Memory.read r.mem (Operand.addrByte i).toNat) ++
        Frame.msbFirst (Memory.read r.mem (Operand.addrByte i + 1#8).toNat) := by
  rw [Device.wordHeard, turned_willing h, listened_willing _ _ rfl, hears_responder, hears_responder,
    (willing_sends _ _ rfl true).1, (willing_sends _ _ rfl true).1]

theorem readWord_willing :
    Device.readWord i (.responder r) =
      .responder (Responder.willing (Operand.addrByte i + 1#8 + 1#8) r.mem .idle false) := by
  rw [Device.readWord, turned_willing h, listened_willing _ _ rfl, listened_willing _ _ rfl, closed_responder]
  rfl

end Word

end Sys2Proof.Machine

namespace Sys2Proof.Machine

/-! ### Words in the responder's memory (R90) -/

theorem addrByte_toNat (i : Index) : (Operand.addrByte i).toNat = 2 * i.toNat := by
  revert i
  decide

theorem addrByte_succ_toNat (i : Index) : (Operand.addrByte i + 1#8).toNat = 2 * i.toNat + 1 := by
  revert i
  decide

/-- A word stored in the responder's memory, byte by byte. -/
theorem read_writeWord {m : List Host.Cell} (h : Memory.wf m = true) (i : Index) (w : Half) (k : Nat) :
    Memory.read (Memory.writeWord m i w) k =
      if k = 2 * i.toNat then Frame.high8 w else if k = 2 * i.toNat + 1 then Frame.low8 w else Memory.read m k := by
  have hi := i.isLt
  have hwf := Memory.write_wf (a := 2 * i.toNat) (by omega) (Frame.high8 w) h
  rw [Memory.writeWord, addrByte_toNat, addrByte_succ_toNat, hiByte_eq, loByte_eq]
  split
  · next hk => rw [hk, Memory.read_write_other (by omega), Memory.read_write_self _ _ _ h]
  · next hhigh =>
    split
    · next hk => rw [hk, Memory.read_write_self _ _ _ hwf]
    · next hlow => rw [Memory.read_write_other hlow, Memory.read_write_other hhigh]

theorem writeWord_wf {m : List Host.Cell} (h : Memory.wf m = true) (i : Index) (w : Half) :
    Memory.wf (Memory.writeWord m i w) = true :=
  Memory.write_wf (BitVec.isLt _) _ (Memory.write_wf (BitVec.isLt _) _ h)

/-- A responder's memory holds a word under an index (R90). -/
def Memory.Holds (m : List Host.Cell) (i : Index) (w : Half) : Prop :=
  Memory.read m (2 * i.toNat) = Frame.high8 w ∧ Memory.read m (2 * i.toNat + 1) = Frame.low8 w

theorem writeWord_holds {m : List Host.Cell} (h : Memory.wf m = true) (i : Index) (w : Half) :
    Memory.Holds (Memory.writeWord m i w) i w := by
  simp [Memory.Holds, read_writeWord h]

theorem writeWord_holds_other {m : List Host.Cell} (h : Memory.wf m = true) {i k : Index} (hk : k ≠ i) (w : Half) {v : Half}
    (hv : Memory.Holds m k v) : Memory.Holds (Memory.writeWord m i w) k v := by
  have hne : k.toNat ≠ i.toNat := fun he => hk (BitVec.eq_of_toNat_eq he)
  obtain ⟨hhigh, hlow⟩ := hv
  constructor
  · rw [read_writeWord h, if_neg (by omega), if_neg (by omega), hhigh]
  · rw [read_writeWord h, if_neg (by omega), if_neg (by omega), hlow]

/-- A word read from a responder that holds it (R186). -/
theorem shiftIn_wordHeard {r : Responder} (h : r.acksLeft = none) {i : Index} {w : Half} (hw : Memory.Holds r.mem i w) :
    Frame.shiftIn 0#16 (Device.wordHeard i (.responder r)) = w := by
  rw [wordHeard_willing h, addrByte_toNat, addrByte_succ_toNat, hw.1, hw.2, shiftIn_word]

/-- `WRWORD` in a ready state, against a modelled target that gives every acknowledge (R180). -/
theorem exec_wrword {i : Index} {w : Half} {s : State} {d : Device} (hs : s.ready) (hd : (s.moduleAt s.base).device = d)
    (hmod : d.Modelled) (acks : d.Acks i w) :
    ∃ t last acc rdack, exec (.wrword i w) s = .next t ∧ t.Faces (d.tookLow i w).closed last acc rdack ∧ t.rsp = 0x00000000#32 := by
  subst hd
  obtain ⟨hcode, hword⟩ := (launch_faces hs hmod (.word .select)).writeWord .word acks
  obtain ⟨faces, hrsp⟩ := complete_faces hword 0#4 0#16
  refine ⟨_, _, _, _, ?_, faces, hrsp⟩
  simp only [exec, execWrword]
  rw [if_pos hcode]

/-- Settles O45: the acknowledges are all given, the two bytes of the word are stored, and the read hears them. -/
theorem wordRoundTrip : Obligations.WordRoundTrip := by
  intro i w s r hs hd hacks hwf
  obtain ⟨t, _, _, _, hwrite, hfaces, hrsp⟩ := exec_wrword hs hd nofun (willing_acks hacks i w)
  rw [wrote_willing hacks] at hfaces
  obtain ⟨u, _, _, _, hread, gfaces, grsp⟩ := exec_rdword (i := i) hfaces.ready hfaces.device nofun
  have hbase : t.base = s.base := (exec_runs hwrite).base
  have gbase : u.base = s.base := (exec_runs hread).base.trans hbase
  rw [readAcks_willing rfl, shiftIn_wordHeard rfl (writeWord_holds hwf i w), response_eq] at grsp
  rw [readWord_willing rfl] at gfaces
  exact ⟨t, u, _, _, hwrite, hrsp, hbase ▸ hfaces.device, read_writeWord hwf i w, hread, by simpa [Frame.rsp] using grsp,
    gbase ▸ gfaces.device, rfl⟩

/-! ### The words of a bulk command, against a modelled target -/

/-- The word counter and the buffer, which a word operation leaves alone (R204). -/
def State.slotsKept (s t : State) : Prop := t.widx = s.widx ∧ t.buf = s.buf

theorem slotsKept_sim (s : State) : State.Sim 1 fun t u => u = t ∧ s.slotsKept t :=
  State.Sim.ofProperty fun {o t} hrank _ h => by
    have same : t.slotsKept (o.run t) := by
      cases o
      case setWidx | setWword | bufTouch | bufWrite | launch | complete => simp [Act.rank] at hrank
      all_goals simp [State.slotsKept, Act.run, State.writeDelay]
    exact ⟨same.1.trans h.1, same.2.trans h.2⟩

theorem readWord_slotsKept (at_ : RStage → Stage) (i : Index) (s : State) : s.slotsKept (s.readWord at_ i) :=
  ((slotsKept_sim s).readWord le_rfl ⟨rfl, rfl, rfl⟩).2

theorem writeWord_slotsKept (at_ : WStage → Stage) (i : Index) (w : Half) (s : State) : s.slotsKept (s.writeWord at_ i w).2 := by
  obtain ⟨_, _, kept⟩ := (slotsKept_sim s).writeWord (at_ := at_) (i := i) (w := w) ⟨rfl, rfl, rfl⟩
  exact kept

section Bulk

variable {s : State} {d : Device} {last : Bool} {acc : Half} {rdack : BitVec 3}

/-- A word of `RDALL`: the word heard goes to its entry (R200). -/
theorem State.Faces.rdallWord (h : s.Faces d last acc rdack) {i : Index} (hi : Operand.slot s.widx = i) :
    s.rdallWord.Faces (d.readWord i) false (Frame.shiftIn 0#16 (d.wordHeard i)) (d.readAcks i rdack) ∧
      s.rdallWord.widx = s.widx + 1#8 ∧
      s.rdallWord.buf = Table.put i.toNat (Frame.shiftIn 0#16 (d.wordHeard i)) s.buf := by
  subst hi
  have read := (h.beginRead (.aWord (Operand.slot s.widx))).readWord (.aWord (Operand.slot s.widx)) (Operand.slot s.widx)
  obtain ⟨hwidx, hbuf⟩ := readWord_slotsKept (.aWord (Operand.slot s.widx)) (Operand.slot s.widx)
    (s.beginRead (.aWord (Operand.slot s.widx)))
  have stored := read.bufWrite (i := Operand.slot s.widx) (v := Frame.shiftIn 0#16 (d.wordHeard (Operand.slot s.widx)))
  simp only [State.rdallWord, read.acc]
  refine ⟨stored.setWidx, ?_, ?_⟩
  · rw [countWord_widx stored.ready.running, bufWrite_widx, hwidx, beginRead_widx]
  · rw [State.countWord, setWidx_buf, bufWrite_of_running read.ready.running, hbuf]
    simp [State.beginRead]

/-- A word of `WRALL` that is acknowledged, of a written entry (R201). -/
theorem State.Faces.wrallWord (h : s.Faces d last acc rdack) {i : Index} {w : Half} (hi : Operand.slot s.widx = i)
    (hw : Table.get i.toNat s.buf = some w) (acks : d.Acks i w) :
    s.wrallWord.1 = 0#4 ∧ (State.countWord s.wrallWord.2).Faces (d.tookLow i w).closed false acc rdack ∧
      s.slotsKept s.wrallWord.2 ∧ (State.countWord s.wrallWord.2).widx = s.widx + 1#8 := by
  subst hi
  have held : s.beginWrite.wword = w := by
    simp [State.beginWrite, State.setWword, State.live_of_running h.ready.running, bufValue_of_written hw]
  obtain ⟨hcode, hword⟩ := h.beginWrite.writeWord (.bWord (Operand.slot s.widx)) acks
  obtain ⟨hwidx, hbuf⟩ := writeWord_slotsKept (.bWord (Operand.slot s.widx)) (Operand.slot s.widx) w s.beginWrite
  simp only [State.wrallWord, held]
  refine ⟨hcode, hword.setWidx, ⟨hwidx.trans (beginWrite_widx s), hbuf.trans (by simp [State.beginWrite])⟩, ?_⟩
  rw [countWord_widx hword.ready.running, hwidx, beginWrite_widx]

end Bulk

/-! ### Bulk commands against the reference responder (R205) -/

theorem succ_toNat {x : BitVec 8} {n : Nat} (h : x.toNat = 127 - n) (hn : n ≤ 127) : (x + 1#8).toNat = 128 - n := by
  rw [BitVec.toNat_add, h]
  simp
  omega

/-- The words that are left of `WRALL`, when the first ones are stored: all are stored in the end. -/
theorem wrallWords_stores {W : Index → Half} {n : Nat} {s : State} {r : Responder} {last : Bool} {acc : Half} (hn : n ≤ 128)
    (h : s.Faces (.responder r) last acc 0#3) (hacks : r.acksLeft = none) (hwf : Memory.wf r.mem = true)
    (hwidx : s.widx.toNat = 128 - n) (hbuf : ∀ k : Index, Table.get k.toNat s.buf = some (W k))
    (hstored : ∀ k : Index, k.toNat < 128 - n → Memory.Holds r.mem k (W k)) :
    ∃ r' last' acc', (s.wrallWords n).Faces (.responder r') last' acc' 0#3 ∧ (s.wrallWords n).rsp = 0x00000000#32 ∧
      r'.acksLeft = none ∧ ∀ k, Memory.Holds r'.mem k (W k) := by
  induction n generalizing s r last acc with
  | zero =>
    obtain ⟨faces, hrsp⟩ := complete_faces h 0#4 0#16
    exact ⟨r, _, _, faces, hrsp, hacks, fun k => hstored k (by omega)⟩
  | succ n ih =>
    have hslot : (Operand.slot s.widx).toNat = 127 - n := by rw [slot_toNat (by omega)]; omega
    obtain ⟨hcode, hword, ⟨_, kept⟩, hcount⟩ := h.wrallWord rfl (hbuf _) (willing_acks hacks _ _)
    rw [wrote_willing hacks] at hword
    rw [wrallWords_succ, if_pos hcode]
    refine ih (by omega) hword rfl (writeWord_wf hwf _ _) ?_ (fun k => ?_) fun k hk => ?_
    · rw [hcount, succ_toNat (n := n) (by omega) (by omega)]
    · rw [State.countWord, setWidx_buf, kept, hbuf]
    · by_cases hkey : k = Operand.slot s.widx
      · exact hkey ▸ writeWord_holds hwf _ _
      · refine writeWord_holds_other hwf hkey _ (hstored k ?_)
        have hne : k.toNat ≠ (Operand.slot s.widx).toNat := fun he => hkey (BitVec.eq_of_toNat_eq he)
        omega

/-- The words that are left of `RDALL`, from a responder that holds them: they go to their entries. -/
theorem rdallWords_loads {W : Index → Half} {n : Nat} {s : State} {r : Responder} {last : Bool} {acc : Half} (hn : n ≤ 128)
    (h : s.Faces (.responder r) last acc 0#3) (hacks : r.acksLeft = none) (hholds : ∀ k, Memory.Holds r.mem k (W k))
    (hwidx : s.widx.toNat = 128 - n) (hloaded : ∀ k : Index, k.toNat < 128 - n → Table.get k.toNat s.buf = some (W k)) :
    ∃ r' last' acc', (s.rdallWords n).Faces (.responder r') last' acc' 0#3 ∧
      ∀ k : Index, Table.get k.toNat (s.rdallWords n).buf = some (W k) := by
  induction n generalizing s r last acc with
  | zero => exact ⟨r, _, _, h, fun k => hloaded k (by omega)⟩
  | succ n ih =>
    have hslot : (Operand.slot s.widx).toNat = 127 - n := by rw [slot_toNat (by omega)]; omega
    obtain ⟨hword, hcount, hbuf⟩ := h.rdallWord rfl
    rw [readWord_willing hacks, readAcks_willing hacks] at hword
    rw [shiftIn_wordHeard hacks (hholds _)] at hbuf
    refine ih (by omega) hword rfl hholds ?_ fun k hk => ?_
    · rw [hcount, succ_toNat (n := n) (by omega) (by omega)]
    · rw [hbuf, Table.get_put]
      split
      · next hkey => rw [BitVec.eq_of_toNat_eq hkey]
      · next hkey => exact hloaded k (by omega)

/-- A bulk command begins with word 0 (R204). -/
theorem setWidx_zero {s : State} (h : s.blocked = false) : (State.setWidx 0#8 s).widx.toNat = 128 - 128 := by
  rw [State.setWidx, State.live_of_running h]
  rfl

/-- `WRALL` of a full buffer, against the reference responder. -/
theorem exec_wrall_stores {W : Index → Half} {s : State} {r : Responder} (hs : s.ready)
    (hd : (s.moduleAt s.base).device = .responder r) (hacks : r.acksLeft = none) (hwf : Memory.wf r.mem = true)
    (hbuf : ∀ k : Index, Table.get k.toNat s.buf = some (W k)) :
    ∃ t r' last acc, exec .wrall s = .next t ∧ t.Faces (.responder r') last acc 0#3 ∧ t.rsp = 0x00000000#32 ∧
      r'.acksLeft = none ∧ ∀ k, Memory.Holds r'.mem k (W k) := by
  have launched := launch_faces hs (hd ▸ nofun) (.bWord 0#7 .select)
  rw [hd] at launched
  obtain ⟨r', last, acc, stored⟩ := wrallWords_stores (W := W) le_rfl launched.setWidx hacks hwf
    (setWidx_zero launched.ready.running) (by simpa using hbuf) (fun k hk => by omega)
  exact ⟨_, r', last, acc, rfl, stored⟩

/-- `RDALL`, against a reference responder that holds a word under every index. -/
theorem exec_rdall_loads {W : Index → Half} {s : State} {r : Responder} (hs : s.ready)
    (hd : (s.moduleAt s.base).device = .responder r) (hacks : r.acksLeft = none) (hholds : ∀ k, Memory.Holds r.mem k (W k)) :
    ∃ u, exec .rdall s = .next u ∧ u.rsp = 0x00000000#32 ∧ ∀ k : Index, Table.get k.toNat u.buf = some (W k) := by
  have launched := launch_faces hs (hd ▸ nofun) (.aWord 0#7 .select)
  rw [hd] at launched
  obtain ⟨r', _, _, hfaces, hloaded⟩ := rdallWords_loads (W := W) le_rfl launched.setWidx hacks hholds
    (setWidx_zero launched.ready.running) (fun k hk => by omega)
  exact ⟨_, rfl, (complete_faces hfaces 0#4 0#16).2, fun k => (congrArg (Table.get k.toNat) (complete_buf _ _ _)).trans (hloaded k)⟩

/-- Settles O47: `WRALL` stores every entry in the responder, and `RDALL` loads every entry from there. -/
theorem bulkRoundTrip : Obligations.BulkRoundTrip := by
  intro s t r between hs hd hacks hwf hfull hexec
  have hW (k : Index) : Table.get k.toNat s.buf = some ((Table.get k.toNat s.buf).get (hfull k)) := (Option.some_get _).symm
  obtain ⟨t', r', _, _, hwrall, hfaces, hrsp, hacks', hholds⟩ := exec_wrall_stores hs hd hacks hwf hW
  obtain rfl := Host.Outcome.next.inj (hexec.symm.trans hwrall)
  obtain ⟨u, hrdall, hzero, hloaded⟩ :=
    exec_rdall_loads (s := { t with buf := between }) hfaces.ready hfaces.device hacks' hholds
  exact ⟨hrsp, u, hrdall, hzero, fun k => (hloaded k).trans (hW k).symm⟩

end Sys2Proof.Machine

namespace Sys2Proof.Machine

/-! ### Reading stores nothing (R190)

A responder stores a byte only after eight bits in the receipt of data, and a word read starts anew before it gets there. A mute
responder goes idle at a point of acknowledge and waits there for the next start. -/

/-- The responder is at a mode, or idle for want of an acknowledge (R89), its memory as given. -/
def Responder.Attends (m : List Host.Cell) (mode : Mode) (r : Responder) : Prop := r.mem = m ∧ (r.mode = mode ∨ r.mode = .idle)

theorem acknowledge_attends {next : AckNext} {store : Responder → Responder} {m : List Host.Cell} {r : Responder}
    (hr : r.mem = m) (hs : (store r).mem = m) : ((r.acknowledge next store).rise true).Attends m (.ack next) := by
  unfold Responder.acknowledge
  split
  · exact ⟨hr, .inr rfl⟩
  · exact ⟨hs, .inl rfl⟩

/-- A bit clock passes an idle responder by. -/
theorem bit_idle {r : Responder} (h : r.mode = .idle) (d : Bool) : r.bit d = r := by
  have hfall : r.fall = r := by simp [Responder.fall, h]
  simp [Responder.bit, hfall, Responder.rise, h]

theorem bits_idle {r : Responder} (h : r.mode = .idle) (bs : List Bool) : r.bits bs = r := by
  induction bs with
  | nil => rfl
  | cons b bs ih =>
    rw [Responder.bits, List.foldl_cons, bit_idle h]
    exact ih

theorem acked_idle {r : Responder} (h : r.mode = .idle) (b : Byte) : r.acked b = r := by
  rw [Responder.acked, bits_idle h, bit_idle h]

theorem begun_coded (r : Responder) : (r.begun.acked Config.opWrite).Attends r.mem (.ack .rxAddr) := by
  have hrx := acked_rx { r with pull := false } .ctrl Config.opWrite
  exact hrx ▸ acknowledge_attends rfl rfl

theorem begun_turned (r : Responder) : (r.begun.acked Config.opRead).Attends r.mem (.ack .tx) := by
  have hrx := acked_rx { r with pull := false } .ctrl Config.opRead
  exact hrx ▸ acknowledge_attends rfl rfl

theorem coded_addressed {m : List Host.Cell} {r : Responder} (h : r.Attends m (.ack .rxAddr)) (b : Byte) :
    (r.acked b).Attends m (.ack .rxData) := by
  obtain ⟨hmem, hmode | hidle⟩ := h
  · have hfall : r.fall = { r with pull := false, mode := .rx .addr 0 0#8 } := by simp [Responder.fall, hmode]
    rw [acked_of_fall hfall rfl]
    have hrx := acked_rx { r with pull := false } .addr b
    exact hrx ▸ acknowledge_attends hmem hmem
  · rw [acked_idle hidle]
    exact ⟨hmem, .inr hidle⟩

theorem addressed_restarted {m : List Host.Cell} {r : Responder} (h : r.Attends m (.ack .rxData)) : (r.bit true).begun.mem = m := by
  obtain ⟨hmem, hmode | hidle⟩ := h
  · have hbit : r.bit true = { r with pull := false, mode := .rx .data 1 1#8 } := by
      simp [Responder.bit, Responder.fall, Responder.rise, hmode]
    rw [hbit]
    exact hmem
  · rw [bit_idle hidle]
    exact hmem

/-- The modes of a responder that sends, or waits for a start. -/
def Mode.sending : Mode → Bool
  | .rx _ _ _ => false
  | .ack next => next == .tx
  | .idle | .tx _ _ | .mack | .mackd _ => true

theorem fall_sending {r : Responder} (h : r.mode.sending = true) : r.fall.mem = r.mem ∧ r.fall.mode.sending = true := by
  obtain ⟨pcs, pclk, pd, pull, ptr, mem, mode, acksLeft⟩ := r
  cases mode with
  | rx => cases h
  | ack next =>
    cases next
    case tx => exact ⟨rfl, rfl⟩
    all_goals cases h
  | tx n sh =>
    simp only [Responder.fall]
    split
    · exact ⟨rfl, rfl⟩
    · split <;> exact ⟨rfl, rfl⟩
  | mackd a => cases a <;> exact ⟨rfl, rfl⟩
  | idle | mack => exact ⟨rfl, rfl⟩

theorem rise_sending {r : Responder} (h : r.mode.sending = true) (d : Bool) :
    (r.rise d).mem = r.mem ∧ (r.rise d).mode.sending = true := by
  obtain ⟨pcs, pclk, pd, pull, ptr, mem, mode, acksLeft⟩ := r
  cases mode with
  | rx => cases h
  | ack next => exact ⟨rfl, h⟩
  | tx | mack | mackd | idle => exact ⟨rfl, rfl⟩

theorem bit_sending {r : Responder} (h : r.mode.sending = true) (d : Bool) :
    (r.bit d).mem = r.mem ∧ (r.bit d).mode.sending = true := by
  obtain ⟨hmem, hmode⟩ := fall_sending h
  obtain ⟨gmem, gmode⟩ := rise_sending hmode d
  exact ⟨gmem.trans hmem, gmode⟩

theorem bits_sending {r : Responder} (h : r.mode.sending = true) (bs : List Bool) :
    (r.bits bs).mem = r.mem ∧ (r.bits bs).mode.sending = true := by
  induction bs generalizing r with
  | nil => exact ⟨rfl, h⟩
  | cons b bs ih =>
    obtain ⟨hmem, hmode⟩ := bit_sending h b
    obtain ⟨gmem, gmode⟩ := ih hmode
    exact ⟨gmem.trans hmem, gmode⟩

/-- A byte that the responder sends, or leaves to the released line, with the acknowledge of the host. -/
theorem listened_sending {r : Responder} (h : r.mode.sending = true) (last nack d : Bool) :
    ∃ q : Responder, Device.listened last nack (.responder (r.lines true true d)) = .responder (q.lines true true nack) ∧
      q.mem = r.mem ∧ q.mode.sending = true := by
  obtain ⟨hmem, hmode⟩ := bits_sending h (List.replicate 8 true)
  obtain ⟨gmem, gmode⟩ := bit_sending hmode nack
  exact ⟨_, by rw [Device.listened, send_responder, clock_responder], gmem.trans hmem, gmode⟩

theorem closed_sending {r : Responder} (h : r.mode.sending = true) (d : Bool) :
    ∃ q : Responder, Device.closed (.responder (r.lines true true d)) = .responder q ∧ q.mem = r.mem :=
  ⟨_, closed_responder r d, (bit_sending h false).1⟩

/-- Where the responder stands after the address and the second start, whatever it was at before. -/
theorem turned_sending (i : Index) (r : Responder) :
    ∃ q : Responder, Device.turned i (.responder r) = .responder (q.lines true true true) ∧ q.mem = r.mem ∧ q.mode.sending = true := by
  have coded := begun_coded (r.toIdle.bit true)
  have restarted := addressed_restarted (coded_addressed coded (Operand.addrByte i))
  obtain ⟨hmem, hmode⟩ := begun_turned ((((r.toIdle.bit true).begun.acked Config.opWrite).acked (Operand.addrByte i)).bit true)
  refine ⟨_, ?_, hmem.trans restarted, ?_⟩
  · rw [Device.turned, Device.addressed, Device.coded, opened_responder, sendAcked_responder, sendAcked_responder,
      start_responder, sendAcked_responder]
  · rcases hmode with hmode | hmode <;> rw [hmode] <;> rfl

/-- A word read leaves the responder's memory as it was, whatever its mode and however many acknowledges it has left. -/
theorem readWord_mem (i : Index) (r : Responder) : ∃ q : Responder, Device.readWord i (.responder r) = .responder q ∧ q.mem = r.mem := by
  obtain ⟨q1, hturned, hmem1, hmode1⟩ := turned_sending i r
  obtain ⟨q2, hhigh, hmem2, hmode2⟩ := listened_sending hmode1 true false true
  obtain ⟨q3, hlow, hmem3, hmode3⟩ := listened_sending hmode2 false true false
  obtain ⟨q, hclosed, hmem⟩ := closed_sending hmode3 true
  exact ⟨q, by rw [Device.readWord, hturned, hhigh, hlow, hclosed], ((hmem.trans hmem3).trans hmem2).trans hmem1⟩

theorem rdallWords_mem {n : Nat} {s : State} {r : Responder} {last : Bool} {acc : Half} {rdack : BitVec 3}
    (h : s.Faces (.responder r) last acc rdack) :
    ∃ q : Responder, ∃ last' acc' rdack', (s.rdallWords n).Faces (.responder q) last' acc' rdack' ∧ q.mem = r.mem := by
  induction n generalizing s r last acc rdack with
  | zero => exact ⟨r, _, _, _, h, rfl⟩
  | succ n ih =>
    obtain ⟨hword, _⟩ := h.rdallWord rfl
    obtain ⟨q, hread, hmem⟩ := readWord_mem (Operand.slot s.widx) r
    rw [hread] at hword
    obtain ⟨q', _, _, _, hwords, hmem'⟩ := ih hword
    exact ⟨q', _, _, _, hwords, hmem'.trans hmem⟩

/-- Settles O46: a select or deselect sends the responder to its idle mode, a word read keeps its memory, and the rest reach no
target. -/
theorem readsStoreNothing : Obligations.ReadsStoreNothing := by
  intro i s t r hs hd hi hexec
  have launched (st : Stage) : (State.launch st s).Faces (.responder r) s.lastd s.acc 0#3 := hd ▸ launch_faces hs (hd ▸ nofun) st
  have stored {q : Responder} {a : State} {last : Bool} {acc : Half} {rdack : BitVec 3} {status : BitVec 4} {rdata : Half}
      (h : a.Faces (.responder q) last acc rdack) (ht : t = State.complete status rdata a) (hmem : q.mem = r.mem) :
      ∃ r', (t.moduleAt s.base).device = .responder r' ∧ r'.mem = r.mem := by
    have hbase : t.base = s.base := (exec_runs hexec).base
    subst ht
    exact ⟨q, hbase ▸ (complete_faces h status rdata).1.device, hmem⟩
  rcases hi with rfl | rfl | ⟨k, rfl⟩ | rfl | hi
  · exact stored (launched _).selectSeq (Host.Outcome.next.inj hexec).symm rfl
  · exact stored (launched _).deselectSeq (Host.Outcome.next.inj hexec).symm rfl
  · obtain ⟨q, hread, hmem⟩ := readWord_mem k r
    exact stored (hread ▸ ((launched _).beginRead .read).readWord .read k) (Host.Outcome.next.inj hexec).symm hmem
  · obtain ⟨q, _, _, _, hwords, hmem⟩ := rdallWords_mem (n := Config.nwords) (launched _).setWidx
    exact stored hwords (Host.Outcome.next.inj hexec).symm hmem
  · obtain ⟨hmodules, _⟩ := noAccessFrame i s t hi hexec
    exact ⟨r, by rw [moduleAt_congr hmodules]; exact hd, rfl⟩

end Sys2Proof.Machine

namespace Sys2Proof.Machine

/-! ### Start and stop conditions (R120)

A condition is two writes with the clock high. Every micro-sequence begins with the clock low or chip-select off, so no condition
lies across the boundary of two, and the counts of joined writes add up. -/

/-- Writes with so many start and stop conditions, the first of them with the clock low. -/
structure Trace.Conditions (ws : List Half) (starts stops : Nat) : Prop where
  starts : Trace.starts ws = starts
  stops : Trace.stops ws = stops
  low : ws.head?.any Line.clk = false

theorem starts_append {b : List Half} (hb : b.head?.any Line.clk = false) (a : List Half) :
    Trace.starts (a ++ b) = Trace.starts a + Trace.starts b := by
  induction a with
  | nil => simp [Trace.starts]
  | cons v a ih =>
    cases a with
    | nil =>
      cases b with
      | nil => rfl
      | cons w b =>
        have hw : w ≠ 0x0030#16 := by
          rintro rfl
          exact absurd hb (by simp [Line.clk])
        simp [Trace.starts, hw]
    | cons w a =>
      simp only [List.cons_append, Trace.starts] at ih ⊢
      rw [ih, Nat.add_assoc]

theorem stops_append {b : List Half} (hb : b.head?.any Line.clk = false) (a : List Half) :
    Trace.stops (a ++ b) = Trace.stops a + Trace.stops b := by
  induction a with
  | nil => simp [Trace.stops]
  | cons v a ih =>
    cases a with
    | nil =>
      cases b with
      | nil => rfl
      | cons w b =>
        have hw : w ≠ 0x0038#16 := by
          rintro rfl
          exact absurd hb (by simp [Line.clk])
        simp [Trace.stops, hw]
    | cons w a =>
      simp only [List.cons_append, Trace.stops] at ih ⊢
      rw [ih, Nat.add_assoc]

theorem Trace.Conditions.append {a b : List Half} {m n m' n' : Nat} (ha : Trace.Conditions a m n) (hb : Trace.Conditions b m' n') :
    Trace.Conditions (a ++ b) (m + m') (n + n') where
  starts := by rw [starts_append hb.low, ha.starts, hb.starts]
  stops := by rw [stops_append hb.low, ha.stops, hb.stops]
  low := by
    cases a with
    | nil => exact hb.low
    | cons w a => exact ha.low

theorem conditions_nil : Trace.Conditions [] 0 0 := ⟨rfl, rfl, rfl⟩

/-- From `s` to the ready state `t` so many start and stop conditions were made. -/
structure State.Makes (s t : State) (starts stops : Nat) : Prop where
  ready : t.ready
  base : t.base = s.base
  made : ∃ evs, s.ran t evs ∧ Trace.Conditions (Trace.writes evs) starts stops

theorem State.Makes.refl {s : State} (h : s.ready) : s.Makes s 0 0 := ⟨h, rfl, [], ⟨rfl, by simp⟩, conditions_nil⟩

theorem State.Makes.trans {s t u : State} {m n m' n' : Nat} (h : s.Makes t m n) (g : t.Makes u m' n') :
    s.Makes u (m + m') (n + n') := by
  obtain ⟨_, hbase, e, hran, he⟩ := h
  obtain ⟨gready, gbase, f, gran, hf⟩ := g
  exact ⟨gready, gbase.trans hbase, e ++ f, hran.trans gran hbase, by rw [writes_append]; exact he.append hf⟩

theorem State.Performs.makes {s t : State} {evs : List Event} {m n : Nat} (h : s.Performs t evs)
    (hc : Trace.Conditions (Trace.writes evs) m n) : s.Makes t m n := ⟨h.ready, h.base, evs, h.ran, hc⟩

/-- An act that writes nothing to the line makes no condition. -/
theorem Act.run_makes (o : Act) {s : State} (h : s.ready) (ho : Trace.writes (o.events s) = []) : s.Makes (o.run s) 0 0 := by
  obtain ⟨hready, hran⟩ := o.run_performed h
  obtain ⟨-, hbase, -⟩ := o.run_latchesKept s
  exact ⟨hready, hbase, _, hran, ho ▸ conditions_nil⟩

theorem bitClk_makes (dbs last : Bool) {s : State} (h : s.ready) : s.Makes (s.bitClk dbs last) 0 0 := by
  obtain ⟨evs, hclocks⟩ := bitClk_clocks dbs last h
  refine hclocks.performs.makes ?_
  rw [Trace.writes, hclocks.items]
  refine ⟨?_, ?_, ?_⟩ <;> cases dbs <;> cases last <;> decide

@[simp] theorem writes_written (b : Nat) (v : Half) : Trace.writes (Trace.written b v) = [v] := rfl

/-- Four writes with their delays. -/
theorem State.Performs.makes_four {s t : State} {u v w x : Half} {m n : Nat}
    (h : s.Performs t (Trace.written s.base u ++ Trace.written s.base v ++ (Trace.written s.base w ++ Trace.written s.base x)))
    (hc : Trace.Conditions [u, v, w, x] m n) : s.Makes t m n := h.makes (by simpa using hc)

theorem startSeq_makes {s : State} (h : s.ready) : s.Makes s.startSeq 1 0 := by
  refine (startSeq_performs h).makes_four ⟨?_, ?_, ?_⟩ <;> cases s.lastd <;> decide

theorem stopSeq_makes {s : State} (h : s.ready) : s.Makes s.stopSeq 0 1 := by
  refine (stopSeq_performs h).makes_four ⟨?_, ?_, ?_⟩ <;> cases s.lastd <;> decide

theorem selectSeq_makes {s : State} (h : s.ready) : s.Makes s.selectSeq 0 0 :=
  (selectSeq_performs h).makes ⟨by simp; decide, by simp; decide, by simp; decide⟩

theorem deselectSeq_makes {s : State} (h : s.ready) : s.Makes s.deselectSeq 0 0 :=
  (deselectSeq_performs h).makes ⟨rfl, rfl, rfl⟩

/-- A word write that ended at `r` with `m` starts and `n` stops before it: it makes one start, and a stop if it misses no
acknowledge (R112, R180). -/
def State.MakesWord (s : State) (m n : Nat) (r : BitVec 4 × State) : Prop :=
  r.1.toNat ≤ 4 ∧ s.Makes r.2 (m + 1) (if r.1 = 0#4 then n + 1 else n)

namespace State.Makes

section Chain

variable {s t : State} {m n : Nat} (h : s.Makes t m n)
include h

theorem silent (o : Act) (ho : ∀ u, Trace.writes (o.events u) = []) : s.Makes (o.run t) m n := h.trans (o.run_makes h.ready (ho t))

theorem enter {st : Stage} : s.Makes (t.enter st) m n := h.silent (.enter st) fun _ => rfl

theorem noteAck {k : Nat} : s.Makes (t.noteAck k) m n := h.silent (.noteAck k) fun _ => rfl

theorem setAcc {v : Half} : s.Makes (t.setAcc v) m n := h.silent (.setAcc v) fun _ => rfl

theorem shiftAcc : s.Makes t.shiftAcc m n := h.silent .shiftAcc fun _ => rfl

theorem setBitcnt {v : BitVec 4} : s.Makes (t.setBitcnt v) m n := h.silent (.setBitcnt v) fun _ => rfl

theorem setWidx {v : BitVec 8} : s.Makes (t.setWidx v) m n := h.silent (.setWidx v) fun _ => rfl

theorem setWword {v : Half} : s.Makes (t.setWword v) m n := h.silent (.setWword v) fun _ => rfl

theorem bufTouch {i : Index} : s.Makes (t.bufTouch i) m n := h.silent (.bufTouch i) fun _ => rfl

theorem bufWrite {i : Index} {v : Half} : s.Makes (t.bufWrite i v) m n := h.silent (.bufWrite i v) fun _ => rfl

theorem complete {status : BitVec 4} {rdata : Half} : s.Makes (t.complete status rdata) m n :=
  h.silent (.complete status rdata) fun _ => rfl

theorem delay : s.Makes t.delay m n := h.silent .delay fun _ => rfl

theorem bitClk {dbs last : Bool} : s.Makes (t.bitClk dbs last) m n := h.trans (bitClk_makes dbs last h.ready)

theorem selectSeq : s.Makes t.selectSeq m n := h.trans (selectSeq_makes h.ready)

theorem deselectSeq : s.Makes t.deselectSeq m n := h.trans (deselectSeq_makes h.ready)

theorem startSeq : s.Makes t.startSeq (m + 1) n := h.trans (startSeq_makes h.ready)

theorem stopSeq : s.Makes t.stopSeq m (n + 1) := h.trans (stopSeq_makes h.ready)

theorem sendBits {b : Byte} {k : Nat} : s.Makes (t.sendBits b k) m n := by
  induction k generalizing t with
  | zero => exact h
  | succ k ih => exact ih h.bitClk.setBitcnt

theorem sendByte {b : Byte} : s.Makes (t.sendByte b) m n := h.setBitcnt.sendBits

theorem recvBits {k : Nat} : s.Makes (t.recvBits k) m n := by
  induction k generalizing t with
  | zero => exact h
  | succ k ih => exact ih h.bitClk.shiftAcc.setBitcnt

theorem recvByte : s.Makes t.recvByte m n := h.setBitcnt.recvBits

theorem ackChk : s.Makes t.ackChk m n := h.bitClk

theorem sendAck : s.Makes t.sendAck m n := h.bitClk

theorem sendNack : s.Makes t.sendNack m n := h.bitClk

/-- A read frame has two starts and one stop (R113). -/
theorem readWord {at_ : RStage → Stage} {i : Index} : s.Makes (t.readWord at_ i) (m + 2) (n + 1) :=
  have addressed := h.selectSeq.enter.startSeq.enter.sendByte.enter.ackChk.noteAck.enter.sendByte.enter.ackChk.noteAck
  have turned := addressed.enter.startSeq.enter.sendByte.enter.ackChk.noteAck
  have received := turned.enter.recvByte.enter.sendAck.enter.recvByte.enter.sendNack
  received.enter.stopSeq.enter.deselectSeq

theorem writeWord {at_ : WStage → Stage} {i : Index} {w : Half} : s.MakesWord m n (t.writeWord at_ i w) := by
  unfold State.writeWord
  extract_lets s1 s2 s3 s4
  have h1 : s.Makes s1 (m + 1) n := h.selectSeq.enter.startSeq.enter.sendByte.enter.ackChk
  have h2 : s.Makes s2 (m + 1) n := h1.enter.sendByte.enter.ackChk
  have h3 : s.Makes s3 (m + 1) n := h2.enter.sendByte.enter.ackChk
  have h4 : s.Makes s4 (m + 1) n := h3.enter.sendByte.enter.ackChk
  clear_value s1 s2 s3 s4
  split
  · exact ⟨show (1#4).toNat ≤ 4 by decide, h1⟩
  split
  · exact ⟨show (2#4).toNat ≤ 4 by decide, h2⟩
  split
  · exact ⟨show (3#4).toNat ≤ 4 by decide, h3⟩
  split
  · exact ⟨show (4#4).toNat ≤ 4 by decide, h4⟩
  · exact ⟨Nat.zero_le 4, h4.enter.stopSeq.enter.deselectSeq⟩

theorem wrallWord : s.MakesWord m n t.wrallWord :=
  have begun : s.Makes t.beginWrite m n := h.setWword.bufTouch.enter
  begun.writeWord

/-- The abort path makes a stop, but at checkpoint 1 of a build that keeps the defect (R182, R228). -/
theorem abortPath {at_ : WStage → Stage} {k : BitVec 4} :
    s.Makes (t.abortPath at_ k) m (n + if k = 1#4 ∧ t.par.ack1Cleanup = false then 0 else 1) := by
  unfold State.abortPath
  split
  · exact h
  · exact h.enter.stopSeq.enter.deselectSeq

theorem rdallWord : s.Makes t.rdallWord (m + 2) (n + 1) := by
  unfold State.rdallWord
  extract_lets i u
  have read : s.Makes u (m + 2) (n + 1) := h.setAcc.enter.readWord
  exact read.bufWrite.setWidx

theorem rdallWords {k : Nat} : s.Makes (t.rdallWords k) (m + 2 * k) (n + k) := by
  induction k generalizing t m n with
  | zero => exact h
  | succ k ih =>
    have rest := ih h.rdallWord
    rwa [show m + 2 + 2 * k = m + 2 * (k + 1) by omega, show n + 1 + k = n + (k + 1) by omega] at rest

end Chain

end State.Makes

/-! ### The response of a word write -/

theorem rdack_sim (rdack : BitVec 3) : State.Sim 0 fun s u => u = s ∧ s.rdack = rdack :=
  State.Sim.ofProperty fun {o s} hrank _ h => by
    cases o
    case writeDelay | delay | readSample | setBitcnt | enter => simpa [Act.run] using h
    all_goals simp [Act.rank] at hrank

theorem writeWord_rdack (at_ : WStage → Stage) (i : Index) (w : Half) (s : State) : (s.writeWord at_ i w).2.rdack = s.rdack := by
  obtain ⟨_, _, kept⟩ := (rdack_sim s.rdack).writeWord (at_ := at_) (i := i) (w := w) ⟨rfl, rfl⟩
  exact kept

theorem writeWord_par (at_ : WStage → Stage) (i : Index) (w : Half) (s : State) : (s.writeWord at_ i w).2.par = s.par :=
  have run : s.Runs True (0 + 36) (s.writeWord at_ i w).2 := (State.Runs.refl 0).writeWord
  run.par

/-- A word of `WRALL` touches neither the acknowledge bits nor the parameters nor the word counter. -/
theorem wrallWord_kept (s : State) :
    s.wrallWord.2.rdack = s.rdack ∧ s.wrallWord.2.par = s.par ∧ s.wrallWord.2.widx = s.widx := by
  obtain ⟨hwidx, _⟩ := writeWord_slotsKept (.bWord (Operand.slot s.widx)) (Operand.slot s.widx) s.beginWrite.wword s.beginWrite
  rw [State.wrallWord, writeWord_rdack, writeWord_par, hwidx]
  simp [State.beginWrite]

theorem complete_rsp {s : State} (h : s.ready) (hr : s.rdack = 0#3) (status : BitVec 4) (rdata : Half) :
    (State.complete status rdata s).rsp = Frame.rsp 0 status.toNat rdata.toNat := by
  rw [complete_of_running h.running, hr, response_eq]
  rfl

/-- A missing acknowledge is reported with the status and the data that the command gives it (R220, R227). -/
theorem State.Makes.raiseNoAck {s t : State} {m n : Nat} (h : s.Makes t m n) (hr : t.rdack = 0#3) (at_ : WStage → Stage)
    (k status : BitVec 4) (rdata : Half) :
    (t.raiseNoAck at_ k status rdata).rsp = Frame.rsp 0 status.toNat rdata.toNat ∧
      s.Makes (t.raiseNoAck at_ k status rdata) m (n + if k = 1#4 ∧ t.par.ack1Cleanup = false then 0 else 1) := by
  have path := h.abortPath (at_ := at_) (k := k)
  obtain ⟨_, kept⟩ := (rdack_sim 0#3).abortPath (at_ := at_) (c := k) ⟨rfl, hr⟩
  exact ⟨complete_rsp path.ready kept _ _, path.complete⟩

theorem failure_toNat (i : Index) (k : BitVec 4) : (Operand.failure i k).toNat = 256 * i.toNat + k.toNat := by
  rw [Operand.failure, BitVec.toNat_append, ← Nat.shiftLeft_add_eq_or_of_lt k.isLt, BitVec.toNat_append,
    ← Nat.shiftLeft_add_eq_or_of_lt (BitVec.isLt _), BitVec.toNat_append, ← Nat.shiftLeft_add_eq_or_of_lt i.isLt]
  simp [Nat.shiftLeft_eq]
  omega

theorem code_eq_one {k : BitVec 4} : k = 1#4 ↔ k.toNat = 1 := by
  rw [← BitVec.toNat_inj]
  rfl

theorem code_pos {k : BitVec 4} (h : k ≠ 0#4) : 1 ≤ k.toNat :=
  Nat.one_le_iff_ne_zero.2 fun h0 => h (BitVec.eq_of_toNat_eq h0)

/-- How `WRALL`, started at `s`, ends at `t`: all words, or the failing one and those before it (R201). -/
def State.MakesWords (s t : State) : Prop :=
  (t.rsp = 0#32 ∧ s.Makes t 128 128) ∨
    ∃ (j : Index) (k : Nat), 1 ≤ k ∧ k ≤ 4 ∧ t.rsp = Frame.rsp 0 1 (256 * j.toNat + k) ∧
      s.Makes t (j.toNat + 1) (j.toNat + if k = 1 ∧ s.par.ack1Cleanup = false then 0 else 1)

theorem State.Makes.wrallWords {s t : State} {n : Nat} (hn : n ≤ 128) (h : s.Makes t (128 - n) (128 - n))
    (hwidx : t.widx.toNat = 128 - n) (hr : t.rdack = 0#3) (hpar : t.par = s.par) : s.MakesWords (t.wrallWords n) := by
  induction n generalizing t with
  | zero => exact .inl ⟨complete_rsp h.ready hr _ _, h.complete⟩
  | succ n ih =>
    obtain ⟨hcode, word⟩ := h.wrallWord
    obtain ⟨krdack, kpar, kwidx⟩ := wrallWord_kept t
    have hrdack : t.wrallWord.2.rdack = 0#3 := krdack.trans hr
    have hpar' : t.wrallWord.2.par = s.par := kpar.trans hpar
    have hslot : (Operand.slot t.widx).toNat = 128 - (n + 1) := by rw [slot_toNat (by omega)]; omega
    rw [wrallWords_succ]
    split
    · next hgood =>
      rw [if_pos hgood, show 128 - (n + 1) + 1 = 128 - n by omega] at word
      have counted : s.Makes (State.countWord t.wrallWord.2) _ _ := word.setWidx
      refine ih (by omega) counted ?_ (by simpa [State.countWord] using hrdack) (by simpa [State.countWord] using hpar')
      rw [countWord_widx word.ready.running, kwidx]
      exact succ_toNat (by omega) (by omega)
    · next hbad =>
      rw [if_neg hbad] at word
      obtain ⟨hrsp, made⟩ := word.raiseNoAck hrdack (.bWord (Operand.slot t.widx)) t.wrallWord.1 1#4
        (Operand.failure (Operand.slot t.widx) t.wrallWord.1)
      rw [failure_toNat] at hrsp
      rw [hpar', ← hslot] at made
      refine .inr ⟨Operand.slot t.widx, t.wrallWord.1.toNat, code_pos hbad, hcode, hrsp, ?_⟩
      simpa only [code_eq_one] using made

/-- The response of `WRWORD` tells whether the defect has left the bus (R182, R228). -/
theorem rsp_eq_one {k : Nat} (hk : k ≤ 4) : Frame.rsp 0 k 0 = 0x00010000#32 ↔ k = 1 := by
  interval_cases k <;> decide

theorem launch_makes {s : State} (h : s.ready) (st : Stage) : s.Makes (s.launch st) 0 0 :=
  (State.Makes.refl h).silent (.launch st) fun _ => rfl

theorem launch_rdack {s : State} (h : s.ready) (st : Stage) : (s.launch st).rdack = 0#3 := by
  rw [launch_of_running h.running]

theorem State.Makes.counted {s t : State} {m n : Nat} (h : s.Makes t m n) :
    ∃ evs, s.ran t evs ∧ Trace.starts (Trace.writes evs) = m ∧ Trace.stops (Trace.writes evs) = n := by
  obtain ⟨_, _, evs, hran, hstarts, hstops, _⟩ := h
  exact ⟨evs, hran, hstarts, hstops⟩

/-- `WRWORD` makes the conditions of its word, and its response tells whether the defect has left the bus (R182, R228). -/
theorem wrword_makes {s t : State} (h : s.ready) {i : Index} {w : Half} (hexec : exec (.wrword i w) s = .next t) :
    s.Makes t 1 (if t.rsp = 0x00010000#32 ∧ s.par.ack1Cleanup = false then 0 else 1) := by
  obtain rfl := Host.Outcome.next.inj hexec
  have word : s.MakesWord 0 0 ((s.launch (.word .select)).writeWord .word i w) := (launch_makes h _).writeWord
  have hrdack := (writeWord_rdack .word i w (s.launch (.word .select))).trans (launch_rdack h _)
  have hpar : ((s.launch (.word .select)).writeWord .word i w).2.par = s.par :=
    (writeWord_par _ _ _ _).trans (launch_par _ s)
  generalize (s.launch (.word .select)).writeWord .word i w = r at word hrdack hpar
  obtain ⟨hcode, made⟩ := word
  split
  · next hgood =>
    rw [if_pos hgood] at made
    rw [complete_rsp made.ready hrdack]
    exact made.complete
  · next hbad =>
    rw [if_neg hbad] at made
    obtain ⟨hrsp, raised⟩ := made.raiseNoAck hrdack .word r.1 r.1 0#16
    rw [hrsp, show (0#16).toNat = 0 from rfl]
    simpa only [rsp_eq_one hcode, code_eq_one, hpar, Nat.zero_add] using raised

/-- Settles O38: the conditions of a command are those of its micro-sequences and word operations. -/
theorem startsAndStops : Obligations.StartsAndStops := by
  intro i s t hs hexec
  have start := launch_makes hs
  cases i <;> obtain rfl := Host.Outcome.next.inj hexec
  case delay => exact (start _).delay.complete.counted
  case bitclk => exact (start _).bitClk.complete.counted
  case select => exact (start _).selectSeq.complete.counted
  case deselect => exact (start _).deselectSeq.complete.counted
  case sendop | eeWrite | eeRead => exact (start _).sendByte.complete.counted
  case bufrd => exact (start _).bufTouch.complete.counted
  case bufwr => exact (start _).bufWrite.complete.counted
  case reserved0 | reservedE | reservedF => exact (start _).complete.counted
  case start => exact (start _).startSeq.complete.counted
  case stop => exact (start _).stopSeq.complete.counted
  case rdword i => exact (start _).setAcc.enter.readWord.complete.counted
  case rdall => exact ((start _).setWidx.rdallWords (k := 128)).complete.counted
  case wrword i w => exact (wrword_makes hs rfl).counted
  case wrall =>
    have words : s.MakesWords _ := State.Makes.wrallWords le_rfl (start (.bWord 0#7 .select)).setWidx
      (setWidx_zero (start _).ready.running) (by simpa using launch_rdack hs _) (by simp)
    obtain ⟨hrsp, made⟩ | ⟨j, k, h1, h4, hrsp, made⟩ := words
    · obtain ⟨evs, hran, hstarts, hstops⟩ := made.counted
      exact ⟨evs, hran, .inl ⟨hrsp, hstarts, hstops⟩⟩
    · obtain ⟨evs, hran, hstarts, hstops⟩ := made.counted
      exact ⟨evs, hran, .inr ⟨j, k, h1, h4, hrsp, hstarts, hstops⟩⟩

end Sys2Proof.Machine

namespace Sys2Proof.Machine

/-! ### Words and their fields (R103, R104, R105, R115) -/

/-- Fields of a word built from its fields are read back (R103). -/
theorem decode_cmd (op : BitVec 4) (a : Byte) (d : Half) : decode (Encode.cmd op a d) = .ok (Decode.fields op a d) := by
  have hop : Decode.op (op ++ 0#4 ++ a ++ d) = op := Laws.op_cmd op a d
  rw [Encode.cmd, decode, hop, a_cmd, data_cmd]

theorem index_index (i : Index) : Decode.index (Encode.index i) = i := by
  revert i
  decide

/-- Settles O1: each instruction's operands are read back from the fields they were put in. -/
theorem decodeOfEncode : Obligations.DecodeOfEncode := by
  intro i
  cases i
  case bitclk dbs lastdbs => cases dbs <;> cases lastdbs <;> rfl
  case sendop code => exact decode_cmd 0x7#4 code 0#16
  case rdword i => rw [encode, decode_cmd]; exact congrArg (fun j => Except.ok (Instr.rdword j)) (index_index i)
  case wrword i w => rw [encode, decode_cmd]; exact congrArg (fun j => Except.ok (Instr.wrword j w)) (index_index i)
  case bufrd i => rw [encode, decode_cmd]; exact congrArg (fun j => Except.ok (Instr.bufrd j)) (index_index i)
  case bufwr i w => rw [encode, decode_cmd]; exact congrArg (fun j => Except.ok (Instr.bufwr j w)) (index_index i)
  all_goals rfl

/-- A word under a mask that takes `OP` whole and no reserved bit, field by field (R103, R115). -/
theorem and_mask (w : Word) (ma : Byte) (md : Half) :
    w &&& (0xF#4 ++ 0#4 ++ ma ++ md) = Decode.op w ++ 0#4 ++ (Decode.a w &&& ma) ++ (Decode.data w &&& md) := by
  apply BitVec.eq_of_getLsbD_eq
  intro j hj
  simp only [BitVec.getLsbD_and, BitVec.getLsbD_append, Decode.op, Decode.a, Decode.data, BitVec.getLsbD_extractLsb']
  split
  · next h => simp [h]
  split
  · next h1 h2 => simp [h2, show 16 + (j - 16) = j by omega]
  split
  · simp
  · next h1 h2 h3 =>
    have hop : j - 16 - 8 - 4 < 4 := by omega
    rw [show 28 + (j - 16 - 8 - 4) = j by omega]
    generalize j - 16 - 8 - 4 = k at hop
    interval_cases k <;> simp

theorem usedBits_eq (op : BitVec 4) :
    WellFormed.usedBits op =
      0xF#4 ++ 0#4 ++ Decode.a (WellFormed.usedBits op) ++ Decode.data (WellFormed.usedBits op) := by
  revert op
  decide

/-- The used bits of a word are its fields, the operand fields as far as the command uses them. -/
theorem and_usedBits (w : Word) (op : BitVec 4) :
    w &&& WellFormed.usedBits op =
      Decode.op w ++ 0#4 ++ (Decode.a w &&& Decode.a (WellFormed.usedBits op))
        ++ (Decode.data w &&& Decode.data (WellFormed.usedBits op)) := by
  conv_lhs => rw [usedBits_eq op, and_mask]

theorem encode_index (a : Byte) : Encode.index (Decode.index a) = a &&& 0x7F#8 := by
  revert a
  decide

theorem encode_bits (a : Byte) : Encode.bits (Decode.dbs a) (Decode.lastarg a) = a &&& 0x03#8 := by
  revert a
  decide

/-- The encoder keeps of the fields what the command uses (R115). -/
theorem encode_fields (op : BitVec 4) (a : Byte) (d : Half) :
    encode (Decode.fields op a d) =
      Encode.cmd op (a &&& Decode.a (WellFormed.usedBits op)) (d &&& Decode.data (WellFormed.usedBits op)) := by
  have index := encode_index a
  have bits := encode_bits a
  have aUnused : 0#8 = a &&& 0x00#8 := BitVec.and_zero.symm
  have aWhole : a = a &&& 0xFF#8 := BitVec.and_allOnes.symm
  have dUnused : 0#16 = d &&& 0x0000#16 := BitVec.and_zero.symm
  have dWhole : d = d &&& 0xFFFF#16 := BitVec.and_allOnes.symm
  have cmd {op : BitVec 4} {a' a'' : Byte} {d' d'' : Half} (ha : a' = a'') (hd : d' = d'') :
      Encode.cmd op a' d' = Encode.cmd op a'' d'' := by rw [ha, hd]
  have rows : op = 0x2#4 ∨ op = 0x7#4 ∨ (op = 0x8#4 ∨ op = 0xC#4) ∨ (op = 0x9#4 ∨ op = 0xD#4) ∨
      op ∈ [0x0#4, 0x1#4, 0x3#4, 0x4#4, 0x5#4, 0x6#4, 0xA#4, 0xB#4, 0xE#4, 0xF#4] := by
    revert op
    decide
  rcases rows with rfl | rfl | (rfl | rfl) | (rfl | rfl) | without
  · exact cmd bits dUnused
  · exact cmd aWhole dUnused
  · exact cmd index dUnused
  · exact cmd index dUnused
  · exact cmd index dWhole
  · exact cmd index dWhole
  · fin_cases without <;> exact cmd aUnused dUnused

/-- A command word decodes to the instruction that its used bits encode. -/
theorem encode_of_decode_cmd {w : Word} {i : Instr} (h : decode (.cmd w) = .ok i) :
    encode i = .cmd (w &&& WellFormed.usedBits (Decode.op w)) := by
  obtain rfl := Except.ok.inj h
  rw [encode_fields, and_usedBits, Encode.cmd]

theorem and_of_unused_zero {w m : Word} (h : w &&& ~~~m = 0#32) : w &&& m = w := by
  have parts : w &&& m ||| w &&& ~~~m = w := by rw [← BitVec.and_or_distrib_left, BitVec.or_not_self, BitVec.and_allOnes]
  rwa [h, BitVec.or_zero] at parts

/-- Settles O2: of a command word the used bits are encoded, and in a well-formed one these are all. -/
theorem encodeOfDecode : Obligations.EncodeOfDecode := by
  intro c i hwf h
  cases c with
  | cmd w =>
    rw [encode_of_decode_cmd h]
    exact congrArg Code.cmd (and_of_unused_zero (by simpa [Code.wellFormed, Decode.op] using hwf))
  | eeop b =>
    simp only [Code.wellFormed, Bool.or_eq_true, beq_iff_eq] at hwf
    rcases hwf with rfl | rfl <;> obtain rfl := Except.ok.inj h <;> rfl

/-- Settles O5. -/
theorem sampleWordsDecode : Obligations.SampleWordsDecode := ⟨rfl, rfl, rfl, rfl, rfl, rfl, rfl, rfl⟩

/-! ### The command codes (R104) -/

/-- Only `OP` tells which command a word is; the operands come from its fields. -/
theorem decode_of_op {w : Word} {op : BitVec 4} (h : w.extractLsb' 28 4 = op) :
    decode (.cmd w) = .ok (Decode.fields op (Decode.a w) (Decode.data w)) := by
  rw [decode, Decode.op, h]

/-- Under the mask of every row of the table stands `OP` alone. -/
theorem op_of_mask {w : Word} {op : BitVec 4} (h : w &&& 0xF0000000#32 = op ++ 0#4 ++ 0#8 ++ 0#16) :
    w.extractLsb' 28 4 = op := by
  have hmask := and_mask w 0#8 0#16
  have hop := Laws.op_cmd (Decode.op w) (Decode.a w &&& 0#8) (Decode.data w &&& 0#16)
  rw [← hmask, show (0xF#4 ++ 0#4 ++ 0#8 ++ 0#16 : Word) = 0xF0000000#32 from rfl, h, Laws.op_cmd] at hop
  exact hop.symm

/-- A bit of `A` is a bit of the word. -/
theorem a_getLsbD (w : Word) {j : Nat} (hj : j < 8) : (Decode.a w).getLsbD j = w.getLsbD (16 + j) := by
  simp [Decode.a, hj]

theorem dbs_a (w : Word) : Decode.dbs (Decode.a w) = w.getLsbD 16 := a_getLsbD w (by decide)

theorem lastarg_a (w : Word) : Decode.lastarg (Decode.a w) = w.getLsbD 17 := a_getLsbD w (by decide)

theorem index_a (w : Word) : Decode.index (Decode.a w) = w.extractLsb' 16 7 := by
  apply BitVec.eq_of_getLsbD_eq
  intro j hj
  rw [Decode.index, BitVec.getLsbD_extractLsb', Nat.zero_add, a_getLsbD w (by omega), BitVec.getLsbD_extractLsb']

/-- Settles O4: the mask leaves `OP`, and each operand of the table is a field of the word or part of one. -/
theorem commandCodesAsTabled : Obligations.CommandCodesAsTabled := by
  intro w
  have row (op : BitVec 4) (h : w &&& 0xF0000000#32 = op ++ 0#4 ++ 0#8 ++ 0#16) := decode_of_op (op_of_mask h)
  rw [← dbs_a, ← lastarg_a, ← index_a]
  exact ⟨row 0x1#4, row 0x2#4, row 0x3#4, row 0x4#4, row 0x5#4, row 0x6#4, row 0x7#4, row 0x8#4, row 0x9#4, row 0xA#4,
    row 0xB#4, row 0xC#4, row 0xD#4, row 0x0#4, row 0xE#4, row 0xF#4⟩

end Sys2Proof.Machine

namespace Sys2Proof.Machine

/-! ### The step that takes a request (R103, R140) -/

/-- The latches of an accepted request decode to what the request itself does. -/
theorem decode_latched (r : Request) (s : State) : decode (Operand.latched r.code (State.accept r s)) = decode r.code := by
  obtain ⟨code, base⟩ := r
  cases code with
  | cmd w => exact decode_cmd (Decode.op w) (Decode.a w) (Decode.data w)
  | eeop b => rfl

theorem step_of_request {s : State} {r : Request} {rest : List Request} (hbusy : s.busy = false) (hreset : s.resetDue = false)
    (hscript : s.script = r :: rest) : step s = runRequest r { s with script := rest } := by
  simp [step, hbusy, hreset, hscript]

/-- Settles O6: the step takes the first request, and the latches decode as the request does. -/
theorem stepRunsPresentedCommand : Obligations.StepRunsPresentedCommand := by
  intro s r rest i hbusy hreset hscript hdec
  rw [step_of_request hbusy hreset hscript, runRequest, decode_latched, hdec]

/-- Settles O8: such a byte decodes to the reason that the step refuses it for. -/
theorem unknownEepromCodeRefused : Obligations.UnknownEepromCodeRefused := by
  intro s b c rest hbusy hreset hscript hwrite hread
  have hdec : decode (.eeop b) = .error (.unknownEepromCode b) := (if_neg hwrite).trans (if_neg hread)
  rw [step_of_request hbusy hreset hscript, runRequest, decode_latched, hdec]
  rfl

/-! ### Fields that a command does not use (R115) -/

/-- The state with other values in the latches `A` and `DATA`. -/
def State.relatched (a : Byte) (d : Half) (s : State) : State := { s with a := a, data := d }

/-- `u` is `s` but for the latches `A` and `DATA`. -/
def State.Relatched (a : Byte) (d : Half) (s u : State) : Prop := u = s.relatched a d

section Relatched

variable {a : Byte} {d : Half} {s u : State} (h : s.Relatched a d u)
include h

theorem State.Relatched.live {f : State → State} (hf : ∀ t, f (t.relatched a d) = (f t).relatched a d) :
    (State.live f s).Relatched a d (State.live f u) := by
  obtain rfl := h
  have hblocked : (s.relatched a d).blocked = s.blocked := rfl
  simp only [State.live, hblocked]
  split
  · rfl
  · exact hf s

theorem lineWrite_relatched (v : Half) : (State.lineWrite v s).Relatched a d (State.lineWrite v u) := by
  refine h.live fun t => ?_
  have hmodule : (t.relatched a d).moduleAt (t.relatched a d).base = t.moduleAt t.base := rfl
  simp only [hmodule]
  split <;> rfl

theorem readSample_relatched : (State.readSample s).Relatched a d (State.readSample u) := by
  refine h.live fun t => ?_
  have hmodule : (t.relatched a d).moduleAt (t.relatched a d).base = t.moduleAt t.base := rfl
  simp only [hmodule]
  split <;> rfl

/-- No act looks at the latches `A` and `DATA`: `exec` has its operands from the instruction. -/
theorem Act.run_relatched (o : Act) : (o.run s).Relatched a d (o.run u) := by
  have delay {s u : State} (h : s.Relatched a d u) : (State.delay s).Relatched a d (State.delay u) := h.live fun _ => rfl
  cases o
  case writeDelay v => exact delay (lineWrite_relatched h v)
  case readSample => exact readSample_relatched h
  case delay => exact delay h
  case noteAck k =>
    dsimp only [Act.run]
    refine h.live fun t => ?_
    cases hs : t.sample <;> simp [State.relatched, hs]
  case bufTouch i =>
    dsimp only [Act.run]
    refine h.live fun t => ?_
    cases hb : (Table.get i.toNat t.buf).isSome <;> simp [State.relatched, hb]
  all_goals
    dsimp only [Act.run]
    exact h.live fun _ => rfl

end Relatched

theorem relatched_sim (n : Nat) (a : Byte) (d : Half) : State.Sim n (State.Relatched a d) where
  act {o s u} _ _ h := o.run_relatched h
  agree := by
    rintro s _ rfl
    exact ⟨rfl, rfl, rfl, rfl, rfl, rfl, rfl, fun _ => rfl⟩

theorem exec_relatched {i : Instr} {s t : State} (a : Byte) (d : Half) (h : exec i s = .next t) :
    exec i (s.relatched a d) = .next (t.relatched a d) := by
  have start : s.Relatched a d (s.relatched a d) := rfl
  obtain ⟨t', u, ht', hu, b, c, status, rdata, rfl, rfl, hbc⟩ :=
    (relatched_sim 2 a d).exec i fun st => (Act.launch st).run_relatched start
  obtain rfl := Host.Outcome.next.inj (h.symm.trans ht')
  exact hu.trans (congrArg Host.Outcome.next ((Act.complete status rdata).run_relatched hbc))

/-- Clearing what a command does not use leaves the command (R115). -/
theorem decode_and_usedBits (w : Word) : decode (.cmd (w &&& WellFormed.usedBits (Decode.op w))) = decode (.cmd w) := by
  have hdec : decode (.cmd w) = .ok (Decode.fields (Decode.op w) (Decode.a w) (Decode.data w)) := rfl
  rw [← encode_of_decode_cmd hdec, hdec]
  exact decodeOfEncode _

theorem op_and_usedBits (w : Word) (op : BitVec 4) : Decode.op (w &&& WellFormed.usedBits op) = Decode.op w := by
  rw [and_usedBits]
  exact Laws.op_cmd _ _ _

/-- Settles O3: words with the same used bits are one command, and a command does not look at the latches that hold the others. -/
theorem unusedFieldsIgnored : Obligations.UnusedFieldsIgnored := by
  refine ⟨fun w => ⟨⟨_, rfl⟩, decode_and_usedBits w⟩, fun s w v b rest hbusy hreset hscript hused => ?_⟩
  have hop : Decode.op v = Decode.op w := by
    have h := congrArg Decode.op hused
    exact (op_and_usedBits v _).symm.trans (h.symm.trans (op_and_usedBits w _))
  have hdec : decode (.cmd v) = decode (.cmd w) := by
    rw [← decode_and_usedBits v, ← decode_and_usedBits w, hop]
    exact congrArg (fun x => decode (.cmd x)) hused.symm
  obtain ⟨i, hi⟩ : ∃ i, decode (.cmd w) = .ok i := ⟨_, rfl⟩
  obtain ⟨t, ht⟩ := exec_next i (State.accept ⟨.cmd w, b⟩ { s with script := rest })
  have hreset' : State.resetDue { s with script := ⟨.cmd v, b⟩ :: rest } = false := by
    simpa [State.resetDue, hscript] using hreset
  refine ⟨t, (stepRunsPresentedCommand s _ rest i hbusy hreset hscript hi).trans ht, ?_⟩
  rw [stepRunsPresentedCommand { s with script := ⟨.cmd v, b⟩ :: rest } ⟨.cmd v, b⟩ rest i hbusy hreset' rfl (hdec.trans hi)]
  have haccept : State.accept ⟨.cmd v, b⟩ { s with script := rest } =
      (State.accept ⟨.cmd w, b⟩ { s with script := rest }).relatched (Decode.a v) (Decode.data v) := by
    simp only [State.accept, State.relatched, hop]
  exact haccept ▸ exec_relatched (Decode.a v) (Decode.data v) ht

end Sys2Proof.Machine

namespace Sys2Proof.Machine

/-! ### What the events of a run leave behind

`LASTD`, the line, `SAMPLE` and the delay counter are told by the events alone, whatever the run. So of a command it is enough to
know its events, its response and its counters. -/

/-- From `s` to the ready state `t` the events `evs` took place, and these registers are what `evs` leave (R22, R28, R30, R34). -/
structure State.Leaves (s t : State) (evs : List Event) : Prop where
  ready : t.ready
  base : t.base = s.base
  ran : s.ran t evs
  lastd : t.lastd = Trace.lastData s.lastd evs
  line : (t.moduleAt s.base).line = Trace.lastLine (s.moduleAt s.base).line evs
  sample : t.sample = (Trace.samples evs).getLastD s.sample
  dlycnt : t.dlycnt = if Trace.delays evs = 0 then s.dlycnt else 0

theorem State.Leaves.trans {s t u : State} {e f : List Event} (h : s.Leaves t e) (g : t.Leaves u f) : s.Leaves u (e ++ f) where
  ready := g.ready
  base := g.base.trans h.base
  ran := h.ran.trans g.ran h.base
  lastd := by rw [g.lastd, h.lastd, Trace.lastData_append]
  line := by rw [Trace.lastLine_append, ← h.line, ← h.base]; exact g.line
  sample := by
    rw [g.sample, h.sample, samples_append]
    simp [List.getLastD_eq_getLast?, List.getLast?_append]
  dlycnt := by
    rw [g.dlycnt, h.dlycnt, delays_append]
    by_cases hf : Trace.delays f = 0
    · simp [hf]
    · simp [hf]

theorem delay_dlycnt_of_running {s : State} (h : s.blocked = false) : (State.delay s).dlycnt = 0 := by
  rw [State.delay, State.live_of_running h]
  exact countDown_eq_zero _

theorem writeDelay_dlycnt {s : State} (h : s.ready) (v : Half) : (State.writeDelay v s).dlycnt = 0 :=
  delay_dlycnt_of_running (lineWrite_performs v h).ready.running

theorem Act.run_leaves (o : Act) {s : State} (h : s.ready) : s.Leaves (o.run s) (o.events s) := by
  obtain ⟨ready, ran⟩ := o.run_performed h
  obtain ⟨-, base, -⟩ := o.run_latchesKept s
  cases o
  case writeDelay v =>
    have hp := writeDelay_performs v h
    exact ⟨ready, base, ran, hp.lastd, hp.line, writeDelay_sample v s, writeDelay_dlycnt h v⟩
  case readSample =>
    obtain ⟨hp, hsample⟩ := readSample_performs h
    exact ⟨ready, base, ran, hp.lastd, hp.line, hsample, readSample_dlycnt s⟩
  case delay =>
    have hp := delay_performs h
    exact ⟨ready, base, ran, hp.lastd, hp.line, delay_sample s, delay_dlycnt_of_running h.running⟩
  all_goals
    refine ⟨ready, base, ran, by simp [Act.run, Act.events, Trace.lastData], ?_, by simp [Act.run, Act.events],
      by simp [Act.run, Act.events, Trace.delays]⟩
    exact congrArg Module.line (moduleAt_congr (by simp [Act.run]) s.base)

theorem State.Runs.leaves {buf : Prop} {s t : State} {n : Nat} (h : s.Runs buf n t) (hs : s.ready) :
    ∃ evs, s.Leaves t evs := by
  induction h with
  | refl n => exact ⟨[], hs, rfl, ⟨rfl, by simp⟩, rfl, rfl, rfl, rfl⟩
  | @act o n t ho _ ih =>
    obtain ⟨evs, leaves⟩ := ih
    exact ⟨evs ++ o.events t, leaves.trans (o.run_leaves leaves.ready)⟩

/-- The events between two states are told by their traces. -/
theorem State.ran.unique {s t : State} {e f : List Event} (h : s.ran t e) (g : s.ran t f) : e = f :=
  List.reverse_injective (List.append_cancel_right (h.1.symm.trans g.1))

theorem exec_leaves {i : Instr} {s t : State} {evs : List Event} (hs : s.ready) (h : exec i s = .next t) (hran : s.ran t evs) :
    s.Leaves t evs := by
  obtain ⟨e, leaves⟩ := (exec_runs h).leaves hs
  rwa [hran.unique leaves.ran]

theorem Trace.lastLine_eq (l : Half) (evs : List Event) : Trace.lastLine l evs = (Trace.writes evs).getLast?.getD l := by
  induction evs generalizing l with
  | nil => rfl
  | cons e evs ih =>
    cases e with
    | w b v =>
      have hw : Trace.writes (.w b v :: evs) = v :: Trace.writes evs := rfl
      rw [hw, List.getLast?_cons, Trace.lastLine, ih]
      rfl
    | d b => exact ih l
    | r b v => exact ih l

/-- The last write of the events is what is left on the line, and a delay among them is over (R22, R28, R34). -/
theorem State.Leaves.lineLeft {s t : State} {evs : List Event} {v : Half} (h : s.Leaves t evs)
    (hlast : (Trace.writes evs).getLast? = some v) (hdelay : Trace.delays evs ≠ 0) : s.lineLeft t v := by
  obtain ⟨⟨⟨hreq, _⟩, _⟩, _, _, hlastd, hline, _, hdly⟩ := h
  rw [Trace.lastData_eq, hlast] at hlastd
  rw [Trace.lastLine_eq, hlast] at hline
  rw [if_neg hdelay] at hdly
  exact ⟨hline, hlastd, hreq, hdly⟩

/-! ### Results of the commands that work on the line -/

theorem exec_untouched {i : Instr} {s t : State} (hs : s.ready) (h : exec i s = .next t) : s.untouched t := by
  obtain ⟨hop, hbase, ha, hdata, hpar, hscript⟩ := latchesNeverWritten i s t h
  obtain ⟨⟨_, hrst⟩, _⟩ := (exec_runs h).ready hs
  obtain ⟨⟨_, hrst'⟩, _⟩ := hs
  exact ⟨hop, hbase, ha, hdata, hpar, hscript, hrst.trans hrst'.symm⟩

theorem exec_bufKept {i : Instr} {s t : State} (h : exec i s = .next t) (hi : ¬ writesBuffer i) : s.bufKept t :=
  fun k => congrArg (Table.get k) ((exec_runs h).buf_kept hi)

theorem launch_ready {s : State} (h : s.ready) (st : Stage) : (State.launch st s).ready := (launch_makes h st).ready

theorem ran_of_launched {s a : State} {st : Stage} {evs : List Event} (h : (State.launch st s).ran a evs)
    (status : BitVec 4) (rdata : Half) : s.ran (State.complete status rdata a) evs := by simpa [State.ran] using h

theorem complete_completed {a : State} (h : a.ready) (hr : a.rdack = 0#3) (status : BitVec 4) (rdata : Half) :
    (State.complete status rdata a).completed 0 status.toNat rdata.toNat := by
  have hrsp := complete_rsp h hr status rdata
  rw [complete_of_running h.running] at hrsp ⊢
  exact ⟨rfl, rfl, hrsp, hr⟩

/-- Settles O21: the four writes of the start sequence, after which the command completes with nothing acknowledged or counted. -/
theorem startResult : Obligations.StartResult := by
  refine ⟨fun w h => decode_of_op h, fun s hs => ?_⟩
  have performs := startSeq_performs (launch_ready hs (.prim .start))
  have hexec : exec .start s = .next (State.complete 0#4 0#16 (State.startSeq (State.launch (.prim .start) s))) := rfl
  have ran := ran_of_launched performs.ran 0#4 0#16
  have hrdack : (State.startSeq (State.launch (.prim .start) s)).rdack = 0#3 := by
    simpa [State.startSeq] using launch_rdack hs (.prim .start)
  refine ⟨_, _, hexec, ran, by simp, complete_completed performs.ready hrdack 0#4 0#16,
    (exec_leaves hs hexec ran).lineLeft (by simp) (by simp [Trace.delays]), exec_untouched hs hexec, ?_, ?_, ?_, ?_,
    exec_bufKept hexec nofun, oneTargetOnly _ s _ hexec⟩
  all_goals simp [State.countersKept, State.startSeq, State.writeDelay]

/-- A byte as its eight bit clocks (R111, R150). -/
theorem byte_eq (last : Bool) (b : Byte) :
    Frame.byte last b =
      Frame.bit (b.getLsbD 7) last ++ Frame.bit (b.getLsbD 6) (b.getLsbD 7)
        ++ Frame.bit (b.getLsbD 5) (b.getLsbD 6) ++ Frame.bit (b.getLsbD 4) (b.getLsbD 5)
        ++ Frame.bit (b.getLsbD 3) (b.getLsbD 4) ++ Frame.bit (b.getLsbD 2) (b.getLsbD 3)
        ++ Frame.bit (b.getLsbD 1) (b.getLsbD 2) ++ Frame.bit (b.getLsbD 0) (b.getLsbD 1) := by
  simp [Frame.byte, Frame.msbFirst, Frame.bits]

/-- The last element of a list is the one at its length less one; what stands for a missing one does not matter. -/
theorem getLastD_of_length {l : List Bool} {n : Nat} (h : l.length = n + 1) (d e : Bool) : l.getLastD d = l.getD n e := by
  have hlast : l[n]? = some l[n] := List.getElem?_eq_getElem _
  rw [List.getLastD_eq_getLast?, List.getLast?_eq_getElem?, h, List.getD_eq_getElem?_getD, Nat.add_sub_cancel, hlast]
  rfl

/-- The opcode primitive as a command, by whatever instruction (R149). -/
theorem opcodeCommand_result {i : Instr} {code : Byte} {s : State} (hs : s.ready)
    (hexec : exec i s = .next (State.opcodeCommand code s)) :
    ∃ evs, s.ran (State.opcodeCommand code s) evs ∧ Trace.items evs = Frame.byte s.lastd code ∧
      (State.opcodeCommand code s).completed 0 0 0 ∧ s.lineLeft (State.opcodeCommand code s) (Frame.high (code.getLsbD 0)) ∧
      (State.opcodeCommand code s).bitcnt = 8#4 ∧ (State.opcodeCommand code s).sample = Trace.sample evs 7 ∧
      s.countersKept (State.opcodeCommand code s) := by
  obtain ⟨evs, ⟨performs, items, samples, _, hacc, hrdack⟩, hbitcnt⟩ := sendByte_sends code (launch_ready hs (.prim .sendop))
  have ran : s.ran (State.opcodeCommand code s) evs := ran_of_launched performs.ran 0#4 0#16
  have leaves := exec_leaves hs hexec ran
  rw [launch_lastd] at items
  refine ⟨evs, ran, items, complete_completed performs.ready (hrdack.trans (launch_rdack hs _)) 0#4 0#16,
    leaves.lineLeft (by rw [Trace.writes, items]; rfl) (by rw [Trace.delays, items]; exact nofun),
    (complete_bitcnt _ _ _).trans hbitcnt, ?_, ?_⟩
  · exact leaves.sample.trans (getLastD_of_length samples _ _)
  · exact ⟨by simpa [State.opcodeCommand] using hacc, by simpa [State.opcodeCommand] using performs.widx,
      by simpa [State.opcodeCommand] using performs.wword⟩

/-- Settles O23: the three forms are the opcode primitive, whose bit clocks are those of the byte. -/
theorem sendByteResult : Obligations.SendByteResult := by
  refine ⟨fun w h => decode_of_op h, fun i code s hi hs => ?_⟩
  have hexec : exec i s = .next (State.opcodeCommand code s) := by
    rcases hi with rfl | ⟨rfl, rfl⟩ | ⟨rfl, rfl⟩ <;> rfl
  have hbuf : ¬ writesBuffer i := by rcases hi with rfl | ⟨rfl, rfl⟩ | ⟨rfl, rfl⟩ <;> exact nofun
  obtain ⟨evs, ran, items, completed, line, bitcnt, sample, counters⟩ := opcodeCommand_result hs hexec
  exact ⟨_, evs, hexec, ran, items.trans (byte_eq _ _), completed, line, bitcnt, sample, exec_untouched hs hexec, counters,
    exec_bufKept hexec hbuf, oneTargetOnly i s _ hexec⟩

end Sys2Proof.Machine

namespace Sys2Proof.Machine

/-! ### What a response reports (R106, R107, R223) -/

/-- The fields of a response word (R106). -/
theorem rsp_fields {rdack status rdata : Nat} (hrdack : rdack < 8) (hstatus : status < 16) (hrdata : rdata < 65536) :
    ((Frame.rsp rdack status rdata).extractLsb' 16 4).toNat = status ∧
      ((Frame.rsp rdack status rdata).extractLsb' 20 3).toNat = rdack ∧
      (Frame.rsp rdack status rdata).extractLsb' 23 9 = 0#9 := by
  have hword : (Frame.rsp rdack status rdata).toNat = rdata + 65536 * status + 1048576 * rdack := by
    rw [Frame.rsp, BitVec.toNat_ofNat, Nat.mod_eq_of_lt (by omega)]
  have hzero : ((Frame.rsp rdack status rdata).extractLsb' 23 9).toNat = 0 := by
    rw [BitVec.extractLsb'_toNat, hword, Nat.shiftRight_eq_div_pow]
    omega
  refine ⟨?_, ?_, BitVec.eq_of_toNat_eq hzero⟩
  all_goals
    rw [BitVec.extractLsb'_toNat, hword, Nat.shiftRight_eq_div_pow]
    omega

/-- The response at `t` has this status, and the given acknowledge record beside some data (R106). -/
def State.Reports (t : State) (rdack status : Nat) : Prop :=
  rdack < 8 ∧ status < 16 ∧ ∃ rdata, rdata < 65536 ∧ t.rsp = Frame.rsp rdack status rdata

theorem State.Reports.fields {t : State} {rdack status : Nat} (h : t.Reports rdack status) :
    (t.rsp.extractLsb' 16 4).toNat = status ∧ (t.rsp.extractLsb' 20 3).toNat = rdack ∧ t.rsp.extractLsb' 23 9 = 0#9 := by
  obtain ⟨hrdack, hstatus, rdata, hrdata, hrsp⟩ := h
  rw [hrsp]
  exact rsp_fields hrdack hstatus hrdata

theorem complete_reports {a : State} (h : a.ready) (status : BitVec 4) (rdata : Half) :
    (State.complete status rdata a).Reports a.rdack.toNat status.toNat := by
  refine ⟨a.rdack.isLt, status.isLt, rdata.toNat, rdata.isLt, ?_⟩
  rw [complete_of_running h.running, response_eq]

/-- A ready block whose running command has recorded no missing acknowledge (R32). -/
def State.Unrecorded (s : State) : Prop := s.ready ∧ s.rdack = 0#3

theorem State.Unrecorded.reports {a : State} (h : a.Unrecorded) (status : BitVec 4) (rdata : Half) :
    (State.complete status rdata a).Reports 0 status.toNat := by
  obtain ⟨hready, hrdack⟩ := h
  simpa [hrdack] using complete_reports hready status rdata

theorem Act.run_unrecorded {o : Act} {s : State} (hrank : o.rank = 0 ∨ o.rank = 2) (h : s.Unrecorded) : (o.run s).Unrecorded := by
  refine ⟨(o.run_performed h.1).1, ?_⟩
  rw [← h.2]
  cases o
  case noteAck | setAcc | shiftAcc | launch | complete => simp [Act.rank] at hrank
  all_goals simp [Act.run, State.writeDelay]

/-- Only the acts that a word read adds record anything (R32). -/
theorem unrecorded_sim : State.Sim 0 fun s u => u = s ∧ s.Unrecorded :=
  State.Sim.ofProperty fun hrank _ h => Act.run_unrecorded (.inl (Nat.le_zero.1 hrank)) h

theorem launch_unrecorded {s : State} (h : s.ready) (st : Stage) : (State.launch st s).Unrecorded :=
  ⟨launch_ready h st, launch_rdack h st⟩

/-- `WRWORD` reports the number of the failing checkpoint, or 0 (R107, R180, R227). -/
theorem wrword_rsp {i : Index} {w : Half} {s t : State} (hs : s.ready) (h : exec (.wrword i w) s = .next t) :
    ∃ code ≤ 4, ((s.launch (.word .select)).writeWord .word i w).1.toNat = code ∧ t.rsp = Frame.rsp 0 code 0 := by
  obtain rfl := Host.Outcome.next.inj h
  obtain ⟨_, _, word⟩ := unrecorded_sim.writeWord (at_ := .word) (i := i) (w := w) ⟨rfl, launch_unrecorded hs (.word .select)⟩
  have made : s.MakesWord 0 0 ((s.launch (.word .select)).writeWord .word i w) := (launch_makes hs _).writeWord
  obtain ⟨hcode, _⟩ := made
  refine ⟨_, hcode, rfl, ?_⟩
  split
  · next hgood => rw [hgood]; exact complete_rsp word.1 word.2 _ _
  · obtain ⟨_, path⟩ := unrecorded_sim.abortPath (at_ := .word)
      (c := ((s.launch (.word .select)).writeWord .word i w).1) ⟨rfl, word⟩
    exact complete_rsp path.1 path.2 _ _

theorem wrword_reports {i : Index} {w : Half} {s t : State} (hs : s.ready) (h : exec (.wrword i w) s = .next t) :
    ∃ status ≤ 4, t.Reports 0 status := by
  obtain ⟨code, hcode, _, hrsp⟩ := wrword_rsp hs h
  exact ⟨code, hcode, by decide, by omega, 0, by decide, hrsp⟩

theorem wrall_reports {s t : State} (hs : s.ready) (h : exec .wrall s = .next t) : ∃ status ≤ 1, t.Reports 0 status := by
  obtain ⟨_, _, ⟨hrsp, _⟩ | ⟨j, k, _, hk, hrsp, _⟩⟩ := startsAndStops .wrall s t hs h
  · exact ⟨0, by decide, by decide, by decide, 0, by decide, hrsp⟩
  · have := j.isLt
    exact ⟨1, le_rfl, by decide, by decide, _, by omega, hrsp⟩

/-- The commands that read words and their acknowledges (R183, R200). -/
def readsWords (i : Instr) : Prop := (∃ k, i = .rdword k) ∨ i = .rdall

/-- The statuses an instruction can report (R107, R223). -/
def mayReport (status : Nat) : Instr → Prop
  | .wrword _ _ => status ≤ 4
  | .wrall => status ≤ 1
  | .reserved0 | .reservedE | .reservedF => status = 15
  | _ => status = 0

/-- Only the word writes and the reserved codes report a status, and only the word reads an acknowledge record: no other command has
an act that records one. -/
theorem exec_reports {i : Instr} {s t : State} (hs : s.ready) (h : exec i s = .next t) :
    ∃ rdack status, t.Reports rdack status ∧ mayReport status i ∧ (rdack ≠ 0 → readsWords i) := by
  have start (st : Stage) : State.launch st s = State.launch st s ∧ (State.launch st s).Unrecorded :=
    ⟨rfl, launch_unrecorded hs st⟩
  have quiet {a : State} {status : BitVec 4} {rdata : Half} (ha : a = a ∧ a.Unrecorded) (hi : mayReport status.toNat i) :
      ∃ rdack code, (State.complete status rdata a).Reports rdack code ∧ mayReport code i ∧ (rdack ≠ 0 → readsWords i) :=
    ⟨0, _, ha.2.reports status rdata, hi, fun h0 => absurd rfl h0⟩
  cases i
  case wrword =>
    obtain ⟨status, hstatus, hreports⟩ := wrword_reports hs h
    exact ⟨0, status, hreports, hstatus, fun h0 => absurd rfl h0⟩
  case wrall =>
    obtain ⟨status, hstatus, hreports⟩ := wrall_reports hs h
    exact ⟨0, status, hreports, hstatus, fun h0 => absurd rfl h0⟩
  all_goals obtain rfl := Host.Outcome.next.inj h
  case rdword k =>
    exact ⟨_, 0, complete_reports (launch_makes hs _).setAcc.enter.readWord.ready _ _, rfl, fun _ => .inl ⟨k, rfl⟩⟩
  case rdall =>
    exact ⟨_, 0, complete_reports (launch_makes hs _).setWidx.rdallWords.ready _ _, rfl, fun _ => .inr rfl⟩
  case delay => exact quiet (unrecorded_sim.act (o := .delay) le_rfl trivial (start _)) rfl
  case bitclk => exact quiet (unrecorded_sim.bitClk (start _)) rfl
  case select => exact quiet (unrecorded_sim.selectSeq (start _)) rfl
  case deselect => exact quiet (unrecorded_sim.deselectSeq (start _)) rfl
  case start => exact quiet (unrecorded_sim.startSeq (start _)) rfl
  case stop => exact quiet (unrecorded_sim.stopSeq (start _)) rfl
  case sendop | eeWrite | eeRead => exact quiet (unrecorded_sim.sendByte (start _)) rfl
  case bufrd k => exact quiet ⟨rfl, Act.run_unrecorded (o := .bufTouch k) (.inr rfl) (start _).2⟩ rfl
  case bufwr k v => exact quiet ⟨rfl, Act.run_unrecorded (o := .bufWrite k v) (.inr rfl) (start _).2⟩ rfl
  case reserved0 | reservedE | reservedF => exact quiet (start _) rfl

/-- Settles O33: the fields of what a command reports are the fields of its response. -/
theorem statusByInstruction : Obligations.StatusByInstruction := by
  intro i s t hs h
  obtain ⟨rdack, status, reports, may, reads⟩ := exec_reports hs h
  obtain ⟨hstatus, hrdack, hzero⟩ := reports.fields
  refine ⟨?_, fun hne => reads ?_, hzero⟩
  · rw [← hstatus] at may
    cases i
    case wrword | wrall => exact may
    all_goals exact BitVec.eq_of_toNat_eq may
  · rintro rfl
    exact hne (BitVec.eq_of_toNat_eq hrdack)

end Sys2Proof.Machine

namespace Sys2Proof.Machine

/-! ### What a script and a command share (R118, R119)

A script's commands each start and complete, and a word operation enters its stages; neither shows on the line. Two states with one
line side do the same to it. -/

/-- The state without what only the running command knows: its progress, its samples, its counts and its response. -/
def State.lineSide (s : State) : State :=
  { s with busy := false, seq := .idle, sample := false, acc := 0#16, rdack := 0#3, bitcnt := 0#4, rsp := 0#32 }

/-- Two ready states with the same line side. -/
structure State.SameLine (s u : State) : Prop where
  ready : s.ready
  side : s.lineSide = u.lineSide

/-- The acts that work beside the line. -/
def Act.beside : Act → Prop
  | .noteAck _ | .setAcc _ | .shiftAcc | .setBitcnt _ | .launch _ | .enter _ | .complete _ _ => True
  | _ => False

theorem Act.run_lineSide {o : Act} (ho : o.beside) (s : State) : (o.run s).lineSide = s.lineSide := by
  cases o
  case writeDelay | delay | readSample | setWidx | setWword | bufTouch | bufWrite => exact ho.elim
  case noteAck k =>
    dsimp only [Act.run, State.noteAck]
    refine State.live_keeps State.lineSide (fun t => ?_) s
    split <;> rfl
  all_goals
    dsimp only [Act.run]
    refine State.live_keeps State.lineSide ?_ s
    exact fun _ => rfl

theorem lineWrite_lineSide (v : Half) (s : State) :
    (State.lineWrite v s).lineSide = (State.lineWrite v s.lineSide).lineSide := by
  have hblocked : s.lineSide.blocked = s.blocked := rfl
  have hmodule : s.lineSide.moduleAt s.lineSide.base = s.moduleAt s.base := rfl
  simp only [State.lineWrite, State.live, hblocked, hmodule]
  split
  · rfl
  · split <;> rfl

theorem delay_lineSide (s : State) : (State.delay s).lineSide = (State.delay s.lineSide).lineSide := by
  have hblocked : s.lineSide.blocked = s.blocked := rfl
  simp only [State.delay, State.live, hblocked]
  split <;> rfl

theorem readSample_lineSide (s : State) : (State.readSample s).lineSide = (State.readSample s.lineSide).lineSide := by
  have hblocked : s.lineSide.blocked = s.blocked := rfl
  have hmodule : s.lineSide.moduleAt s.lineSide.base = s.moduleAt s.base := rfl
  simp only [State.readSample, State.live, hblocked, hmodule]
  split
  · rfl
  · split <;> rfl

section SameLine

variable {s u : State} (h : s.SameLine u)
include h

/-- What the line side determines is the same in both. -/
theorem State.SameLine.same {α : Type} (g : State → α) (hg : ∀ t, g t.lineSide = g t) : g u = g s := by
  rw [← hg u, ← hg s, h.side]

theorem State.SameLine.lastd : u.lastd = s.lastd := h.same State.lastd fun _ => rfl

theorem State.SameLine.other_ready : u.ready := by
  obtain ⟨⟨hreq, hrst⟩, hgrants⟩ := h.ready
  have hmodule : u.moduleAt u.base = s.moduleAt s.base := h.same (fun t => t.moduleAt t.base) fun _ => rfl
  have hmport : u.mport = s.mport := h.same State.mport fun _ => rfl
  have hrst' : u.rst = s.rst := h.same State.rst fun _ => rfl
  exact ⟨⟨hmport ▸ hreq, hrst' ▸ hrst⟩, hmodule ▸ hgrants⟩

theorem State.SameLine.left {o : Act} (ho : o.beside) : (o.run s).SameLine u :=
  ⟨(o.run_performed h.ready).1, (Act.run_lineSide ho s).trans h.side⟩

theorem State.SameLine.right {o : Act} (ho : o.beside) : s.SameLine (o.run u) :=
  ⟨h.ready, h.side.trans (Act.run_lineSide ho u).symm⟩

theorem State.SameLine.writeDelay (v : Half) : (s.writeDelay v).SameLine (u.writeDelay v) := by
  refine ⟨(writeDelay_performs v h.ready).ready, ?_⟩
  simp only [State.writeDelay]
  rw [delay_lineSide, lineWrite_lineSide, h.side, ← lineWrite_lineSide, ← delay_lineSide]

theorem State.SameLine.readSample : s.readSample.SameLine u.readSample := by
  obtain ⟨performs, _⟩ := readSample_performs h.ready
  exact ⟨performs.ready, by rw [readSample_lineSide, h.side, ← readSample_lineSide]⟩

theorem State.SameLine.bitClk (dbs last : Bool) : (s.bitClk dbs last).SameLine (u.bitClk dbs last) :=
  (((h.writeDelay _).writeDelay _).writeDelay _).readSample

theorem State.SameLine.selectSeq : s.selectSeq.SameLine u.selectSeq := (h.writeDelay _).writeDelay _

theorem State.SameLine.deselectSeq : s.deselectSeq.SameLine u.deselectSeq := h.writeDelay _

theorem State.SameLine.startSeq : s.startSeq.SameLine u.startSeq := by
  unfold State.startSeq
  rw [h.lastd]
  exact (((h.writeDelay _).writeDelay _).writeDelay _).writeDelay _

theorem State.SameLine.stopSeq : s.stopSeq.SameLine u.stopSeq := by
  unfold State.stopSeq
  rw [h.lastd]
  exact (((h.writeDelay _).writeDelay _).writeDelay _).writeDelay _

theorem State.SameLine.setBitcnt (v : BitVec 4) :
    (s.setBitcnt v).SameLine (u.setBitcnt v) ∧ (u.setBitcnt v).bitcnt = (s.setBitcnt v).bitcnt :=
  ⟨(h.left (o := .setBitcnt v) trivial).right (o := .setBitcnt v) trivial,
    by rw [setBitcnt_of_running h.ready.running, setBitcnt_of_running h.other_ready.running]⟩

theorem State.SameLine.sendBits {b : Byte} {n : Nat} (hc : u.bitcnt = s.bitcnt) : (s.sendBits b n).SameLine (u.sendBits b n) := by
  induction n generalizing s u with
  | zero => exact h
  | succ n ih =>
    have clock := h.bitClk (Operand.msbFirst b s.bitcnt.toNat) s.lastd
    have bits {t : State} (dbs last : Bool) : (t.bitClk dbs last).bitcnt = t.bitcnt := by simp [State.bitClk]
    simp only [State.sendBits, countBit_eq, bits, hc, h.lastd]
    obtain ⟨counted, hcount⟩ := clock.setBitcnt (s.bitcnt + 1#4)
    exact ih counted hcount

theorem State.SameLine.sendByte {b : Byte} : (s.sendByte b).SameLine (u.sendByte b) := by
  obtain ⟨counted, hcount⟩ := h.setBitcnt 0#4
  exact counted.sendBits hcount

/-- A command that is one micro-sequence does to the line what the micro-sequence does. -/
theorem State.SameLine.executed {i : Instr} {f : State → State} (st : Stage) (rdata : State → Half)
    (hf : ∀ {s u : State}, s.SameLine u → (f s).SameLine (f u))
    (hi : exec i u = .next (State.complete 0#4 (rdata (f (State.launch st u))) (f (State.launch st u)))) :
    ∃ v, exec i u = .next v ∧ (f s).SameLine v :=
  ⟨_, hi, (hf (h.right (o := .launch st) trivial)).right (o := .complete _ _) trivial⟩

/-- `BITCLK`, told the data bit on the line (R119, R144). -/
theorem State.SameLine.clocked (dbs : Bool) :
    ∃ v, exec (.bitclk dbs s.lastd) u = .next v ∧ (s.bitClk dbs s.lastd).SameLine v :=
  h.executed (f := State.bitClk dbs s.lastd) (.prim .bitclk) (fun t => Operand.bitData t.sample)
    (fun same => same.bitClk dbs s.lastd) rfl

end SameLine

/-! ### Scripts (R119) -/

theorem lines_append (ls ms : List Line) (s : State) : Script.lines (ls ++ ms) s = (Script.lines ls s).bind (Script.lines ms) := by
  induction ls generalizing s with
  | nil => rfl
  | cons l ls ih =>
    rw [List.cons_append, Script.lines, Script.lines, Option.bind_assoc]
    exact congrArg _ (funext ih)

/-- The script `ls`, from `s`, does to the line what leads from `s` to `t`. -/
def State.Scripted (s : State) (ls : List Line) (t : State) : Prop := ∃ u, Script.lines ls s = some u ∧ t.SameLine u

/-- `RECVBIT` and what receiving a bit is inside a byte: both sample with the line released (R119, R152). -/
theorem State.SameLine.recvBit {t u : State} (h : t.SameLine u) :
    ∃ v, exec (.bitclk true t.lastd) u = .next v ∧
      (State.countBit (State.shiftAcc (State.bitClk true t.lastd t))).SameLine v ∧
      (State.countBit (State.shiftAcc (State.bitClk true t.lastd t))).lastd = true := by
  obtain ⟨v, hexec, clock⟩ := h.clocked true
  obtain ⟨_, clocks⟩ := bitClk_clocks true t.lastd h.ready
  exact ⟨v, hexec, (clock.left (o := .shiftAcc) trivial).left (o := .setBitcnt _) trivial, by simpa using clocks.lastd⟩

/-- The bits of a byte when the line is already released (R119). -/
theorem State.SameLine.recvBits {t u : State} (h : t.SameLine u) (hd : t.lastd = true) (n : Nat) :
    ∃ v, Script.commands (List.replicate n (.bitclk true true)) u = some v ∧ (t.recvBits n).SameLine v := by
  induction n generalizing t u with
  | zero => exact ⟨u, rfl, h⟩
  | succ n ih =>
    obtain ⟨w, hexec, bit, hlast⟩ := h.recvBit
    obtain ⟨v, hrest, bits⟩ := ih bit hlast
    rw [hd] at hexec
    exact ⟨v, by rw [List.replicate_succ, Script.commands, hexec]; exact hrest, bits⟩

namespace State.Scripted

theorem refl {s : State} (h : s.ready) : s.Scripted [] s := ⟨s, rfl, h, rfl⟩

section Chain

variable {s t : State} {ls : List Line} (h : s.Scripted ls t)
include h

/-- One line more. -/
theorem line {l : Line} {t' : State}
    (hl : ∀ u, t.SameLine u → ∃ v, Script.commands (l.expand u.lastd) u = some v ∧ t'.SameLine v) :
    s.Scripted (ls ++ [l]) t' := by
  obtain ⟨u, hu, same⟩ := h
  obtain ⟨v, hv, same'⟩ := hl u same
  exact ⟨v, by rw [lines_append, hu, Option.bind_some, Script.lines, hv]; rfl, same'⟩

theorem beside {o : Act} (ho : o.beside) : s.Scripted ls (o.run t) := by
  obtain ⟨u, hu, same⟩ := h
  exact ⟨u, hu, same.left ho⟩

theorem launch {st : Stage} : s.Scripted ls (t.launch st) := h.beside (o := .launch st) trivial

theorem enter {st : Stage} : s.Scripted ls (t.enter st) := h.beside (o := .enter st) trivial

theorem setAcc {v : Half} : s.Scripted ls (t.setAcc v) := h.beside (o := .setAcc v) trivial

theorem noteAck {k : Nat} : s.Scripted ls (t.noteAck k) := h.beside (o := .noteAck k) trivial

theorem complete {status : BitVec 4} {rdata : Half} : s.Scripted ls (t.complete status rdata) :=
  h.beside (o := .complete status rdata) trivial

/-- A line that is one command. -/
theorem command {l : Line} {i : Instr} {t' : State} (hl : l.expand t.lastd = [i])
    (hi : ∀ u, t.SameLine u → ∃ v, exec i u = .next v ∧ t'.SameLine v) : s.Scripted (ls ++ [l]) t' := by
  refine h.line fun u same => ?_
  obtain ⟨v, hexec, same'⟩ := hi u same
  exact ⟨v, by rw [same.lastd, hl, Script.commands, hexec]; rfl, same'⟩

theorem selectSeq : s.Scripted (ls ++ [.command .select]) t.selectSeq :=
  h.command rfl fun _ same => same.executed (.prim .select) (fun _ => 0#16) State.SameLine.selectSeq rfl

theorem deselectSeq : s.Scripted (ls ++ [.command .deselect]) t.deselectSeq :=
  h.command rfl fun _ same => same.executed (.prim .deselect) (fun _ => 0#16) State.SameLine.deselectSeq rfl

theorem startSeq : s.Scripted (ls ++ [.command .start]) t.startSeq :=
  h.command rfl fun _ same => same.executed (.prim .start) (fun _ => 0#16) State.SameLine.startSeq rfl

theorem stopSeq : s.Scripted (ls ++ [.command .stop]) t.stopSeq :=
  h.command rfl fun _ same => same.executed (.prim .stop) (fun _ => 0#16) State.SameLine.stopSeq rfl

theorem sendByte {b c : Byte} (hb : b = c) : s.Scripted (ls ++ [.sendByte c]) (t.sendByte b) :=
  hb ▸ h.command rfl fun _ same => same.executed (.prim .sendop) (fun _ => 0#16) (fun same => same.sendByte) rfl

theorem ackChk : s.Scripted (ls ++ [.ackChk]) t.ackChk := h.command rfl fun _ same => same.clocked true

theorem sendAck : s.Scripted (ls ++ [.sendAck]) t.sendAck := h.command rfl fun _ same => same.clocked false

theorem sendNack : s.Scripted (ls ++ [.sendNack]) t.sendNack := h.command rfl fun _ same => same.clocked true

theorem recvByte : s.Scripted (ls ++ [.recvByte]) t.recvByte := by
  refine h.line fun u same => ?_
  have counted := same.left (o := .setBitcnt 0#4) trivial
  obtain ⟨w, hexec, bit, hlast⟩ := counted.recvBit
  obtain ⟨v, hrest, bits⟩ := bit.recvBits hlast 7
  refine ⟨v, ?_, bits⟩
  rw [Line.expand, Script.commands, counted.lastd, hexec]
  exact hrest

end Chain

end State.Scripted

/-- The read frame, line by line (R113, R119). -/
theorem State.Scripted.readWord {s t : State} (h : s.Scripted [] t) (at_ : RStage → Stage) (i : Index) :
    s.Scripted (Script.rdword i) (t.readWord at_ i) :=
  have coded := (h.selectSeq.enter.startSeq.enter.sendByte rfl).enter.ackChk.noteAck
  have addressed := (coded.enter.sendByte (addrByte_eq i)).enter.ackChk.noteAck
  have turned := (addressed.enter.startSeq.enter.sendByte rfl).enter.ackChk.noteAck
  have received := turned.enter.recvByte.enter.sendAck.enter.recvByte.enter.sendNack
  received.enter.stopSeq.enter.deselectSeq

/-- The write frame, line by line, when every acknowledge is given (R112, R119). -/
theorem State.Scripted.writeWord {s t : State} (h : s.Scripted [] t) {at_ : WStage → Stage} {i : Index} {w : Half} :
    (t.writeWord at_ i w).1 = 0#4 → s.Scripted (Script.wrword i w) (t.writeWord at_ i w).2 := by
  unfold State.writeWord
  extract_lets s1 s2 s3 s4
  have h1 : s.Scripted _ s1 := (h.selectSeq.enter.startSeq.enter.sendByte rfl).enter.ackChk
  have h2 : s.Scripted _ s2 := (h1.enter.sendByte (addrByte_eq i)).enter.ackChk
  have h3 : s.Scripted _ s3 := (h2.enter.sendByte (hiByte_eq w)).enter.ackChk
  have h4 : s.Scripted _ s4 := (h3.enter.sendByte (loByte_eq w)).enter.ackChk
  have closed := ((h4.enter (st := at_ .stop)).stopSeq.enter (st := at_ .deselect)).deselectSeq
  clear_value s1 s2 s3 s4
  split_ifs
  case neg => exact fun _ => closed
  all_goals exact fun hcode => absurd hcode (by simp)

/-- A script that does to the line what a command does has its trace and leaves the same targets (R119). -/
theorem State.Scripted.leaves {s t : State} {ls : List Line} (h : s.Scripted ls t) :
    ∃ u, Script.lines ls s = some u ∧
      u.trace = t.trace ∧ u.modules = t.modules ∧ u.lastd = t.lastd ∧ u.draws = t.draws ∧ u.buf = t.buf := by
  obtain ⟨u, hu, same⟩ := h
  exact ⟨u, hu, same.same State.trace fun _ => rfl, same.same State.modules fun _ => rfl, same.lastd,
    same.same State.draws fun _ => rfl, same.same State.buf fun _ => rfl⟩

/-- Settles O50: the read frame takes no account of what is sampled, and each of its lines is one of its micro-sequences. -/
theorem rdwordScript : Obligations.RdwordScript := by
  intro i s t hs hexec
  obtain rfl := Host.Outcome.next.inj hexec
  have begun : s.Scripted [] (State.beginRead .read (State.launch (.read .select) s)) :=
    (State.Scripted.refl hs).launch.setAcc.enter
  exact (begun.readWord .read i).complete.leaves

/-- Settles O49: the response tells that no acknowledge is missing, and then the write frame is gone through line by line. -/
theorem wrwordScript : Obligations.WrwordScript := by
  intro i w s t hs hexec hrsp
  obtain ⟨code, hcode, hword, hreported⟩ := wrword_rsp hs hexec
  have hgood : ((s.launch (.word .select)).writeWord .word i w).1 = 0#4 := by
    refine BitVec.eq_of_toNat_eq (hword.trans ?_)
    rw [hreported] at hrsp
    interval_cases code
    · rfl
    all_goals exact absurd hrsp (by decide)
  obtain rfl := Host.Outcome.next.inj hexec
  rw [if_pos hgood]
  exact ((State.Scripted.refl hs).launch.writeWord hgood).complete.leaves

end Sys2Proof.Machine

namespace Sys2Proof.Machine

/-! ### Commands that only write to the line (R145, R146, R148) -/

/-- Writes one after another, each with its delay (R155). -/
def State.writeAll (vs : List Half) (s : State) : State := vs.foldl (fun t v => State.writeDelay v t) s

theorem writeAll_performs (vs : List Half) {s : State} (h : s.ready) :
    s.Performs (s.writeAll vs) (vs.flatMap (Trace.written s.base)) := by
  induction vs generalizing s with
  | nil => exact .refl h
  | cons v vs ih =>
    have first := writeDelay_performs v h
    have rest := ih first.ready
    rw [first.base] at rest
    exact first.trans rest

/-- What a write with its delay keeps, any number of them keeps. -/
theorem writeAll_keeps {α : Type} (g : State → α) (hg : ∀ v s, g (State.writeDelay v s) = g s) (vs : List Half) (s : State) :
    g (s.writeAll vs) = g s := by
  induction vs generalizing s with
  | nil => rfl
  | cons v vs ih => exact (ih _).trans (hg v s)

theorem items_flatMap_written (b : Nat) (vs : List Half) :
    Trace.items (vs.flatMap (Trace.written b)) = Frame.writes vs := by
  simp only [Trace.items, Frame.writes, List.map_flatMap]
  rfl

theorem writes_flatMap_written (b : Nat) (vs : List Half) : Trace.writes (vs.flatMap (Trace.written b)) = vs := by
  induction vs with
  | nil => rfl
  | cons v vs ih => rw [List.flatMap_cons, writes_append, ih]; rfl

theorem delays_flatMap_written (b : Nat) (vs : List Half) : Trace.delays (vs.flatMap (Trace.written b)) = vs.length := by
  induction vs with
  | nil => rfl
  | cons v vs ih =>
    rw [List.flatMap_cons, delays_append, ih, List.length_cons, Nat.add_comm]
    rfl

/-- A command that writes `vs` to the line and completes: its events, its response, and all that it leaves alone. -/
theorem writeCommand_result {i : Instr} {s : State} {st : Stage} {vs : List Half} {v : Half} (hs : s.ready)
    (hi : ¬ writesBuffer i) (hlast : vs.getLast? = some v)
    (hexec : exec i s = .next (State.complete 0#4 0#16 ((State.launch st s).writeAll vs))) :
    ∃ t evs, exec i s = .next t ∧ s.ran t evs ∧
      Trace.items evs = Frame.writes vs ∧ t.completed 0 0 0 ∧ s.lineLeft t v ∧
      s.untouched t ∧ s.countersKept t ∧ t.sample = s.sample ∧ t.bitcnt = s.bitcnt ∧ t.draws = s.draws ∧
      s.bufKept t ∧ s.othersKept t := by
  have performs := writeAll_performs vs (launch_ready hs st)
  have ran := ran_of_launched performs.ran 0#4 0#16
  have hrdack := (writeAll_keeps State.rdack writeDelay_rdack vs _).trans (launch_rdack hs st)
  have left : s.lineLeft _ v := (exec_leaves hs hexec ran).lineLeft ((congrArg _ (writes_flatMap_written _ vs)).trans hlast) <| by
    rw [delays_flatMap_written]
    intro hlen
    simp [List.length_eq_zero_iff.1 hlen] at hlast
  refine ⟨_, _, hexec, ran, items_flatMap_written _ vs, complete_completed performs.ready hrdack 0#4 0#16, left,
    exec_untouched hs hexec, ⟨?_, ?_, ?_⟩, ?_, ?_, ?_, exec_bufKept hexec hi, oneTargetOnly i s _ hexec⟩
  · simpa using writeAll_keeps State.acc writeDelay_acc vs (State.launch st s)
  · simpa using performs.widx
  · simpa using performs.wword
  · simpa using writeAll_keeps State.sample writeDelay_sample vs (State.launch st s)
  · simpa using writeAll_keeps State.bitcnt writeDelay_bitcnt vs (State.launch st s)
  · simpa using writeAll_keeps State.draws (fun v s => by simp [State.writeDelay]) vs (State.launch st s)

/-- Settles O19: the command is the two writes of the select sequence. -/
theorem selectResult : Obligations.SelectResult :=
  ⟨fun _ h => decode_of_op h, fun _ hs => writeCommand_result (st := .prim .select) (vs := [0x0000#16, 0x0038#16]) hs nofun rfl rfl⟩

/-- Settles O20: the command is the one write of the deselect sequence. -/
theorem deselectResult : Obligations.DeselectResult :=
  ⟨fun _ h => decode_of_op h, fun _ hs => writeCommand_result (st := .prim .deselect) (vs := [0x0000#16]) hs nofun rfl rfl⟩

/-- Settles O22: the command is the four writes of the stop sequence, the first of which holds the data bit on the line. -/
theorem stopResult : Obligations.StopResult := by
  refine ⟨fun _ h => decode_of_op h, fun s hs => ?_⟩
  have hexec : exec .stop s = .next (State.complete 0#4 0#16
      ((State.launch (.prim .stop) s).writeAll [Frame.low s.lastd, 0x0020#16, 0x0030#16, 0x0038#16])) := by
    rw [← clockLow_eq, ← launch_lastd (.prim .stop) s]
    rfl
  exact writeCommand_result (i := .stop) (vs := [Frame.low s.lastd, 0x0020#16, 0x0030#16, 0x0038#16]) hs nofun rfl hexec

/-! ### `BITCLK` (R144, R156) -/

/-- Settles O18: the bit clock of the frame, whose one sample is the answer. -/
theorem bitclkResult : Obligations.BitclkResult := by
  refine ⟨fun w h => ?_, fun dbs lastdbs s hs => ?_⟩
  · rw [← dbs_a, ← lastarg_a]
    exact decode_of_op h
  obtain ⟨v, performs, hsample⟩ := bitClk_performs dbs lastdbs (launch_ready hs (.prim .bitclk))
  have hexec : exec (.bitclk dbs lastdbs) s = .next (State.complete 0#4
      (Operand.bitData (State.bitClk dbs lastdbs (State.launch (.prim .bitclk) s)).sample)
      (State.bitClk dbs lastdbs (State.launch (.prim .bitclk) s))) := rfl
  rw [hsample] at hexec
  have ran := ran_of_launched performs.ran 0#4 (Operand.bitData (v.getLsbD 3))
  have hrdack : (State.bitClk dbs lastdbs (State.launch (.prim .bitclk) s)).rdack = 0#3 := by
    simpa [State.bitClk] using launch_rdack hs (.prim .bitclk)
  have hdata : (Operand.bitData (v.getLsbD 3)).toNat = (v.getLsbD 3).toNat := by cases v.getLsbD 3 <;> rfl
  refine ⟨_, _, v, hexec, ran, rfl, rfl, (complete_sample _ _ _).trans hsample,
    hdata ▸ complete_completed performs.ready hrdack 0#4 _, (exec_leaves hs hexec ran).lineLeft rfl nofun,
    exec_untouched hs hexec, ?_, ?_, exec_bufKept hexec nofun, oneTargetOnly _ s _ hexec⟩
  all_goals simp [State.countersKept, State.bitClk, State.writeDelay]

/-- From `s` to `t`, both with the same base address in force, every value written asserts chip-select, whatever disturbs the
writes (R156). -/
def State.KeepsSelected (s t : State) : Prop :=
  t.base = s.base ∧ ∃ evs, s.ran t evs ∧ ∀ v ∈ Trace.writes evs, v.getLsbD 5 = true

theorem State.KeepsSelected.trans {s t u : State} (h : s.KeepsSelected t) (g : t.KeepsSelected u) : s.KeepsSelected u := by
  obtain ⟨hbase, e, hran, he⟩ := h
  obtain ⟨gbase, f, gran, hf⟩ := g
  refine ⟨gbase.trans hbase, e ++ f, hran.trans gran hbase, fun v hv => ?_⟩
  rw [writes_append] at hv
  exact (List.mem_append.1 hv).elim (he v) (hf v)

/-- An operation that adds at most one event, which is no write with chip-select clear. -/
theorem State.KeepsSelected.of_trace {s t : State} {e : Event} (hbase : t.base = s.base)
    (htrace : t.trace = s.trace ∨ t.trace = e :: s.trace) (he : e.base = s.base)
    (hsel : ∀ v ∈ Trace.writes [e], v.getLsbD 5 = true) : s.KeepsSelected t := by
  rcases htrace with htrace | htrace
  · exact ⟨hbase, [], ⟨htrace, List.forall_mem_nil _⟩, List.forall_mem_nil _⟩
  · exact ⟨hbase, [e], ⟨htrace, List.forall_mem_singleton.2 he⟩, hsel⟩

/-- A write that is not acknowledged, or comes after the sequence has stopped, is no event (R67, R253). -/
theorem lineWrite_trace (v : Half) (s : State) :
    (State.lineWrite v s).trace = s.trace ∨ (State.lineWrite v s).trace = .w s.base v :: s.trace := by
  unfold State.lineWrite State.live
  split
  · exact .inl rfl
  · dsimp only
    split
    · exact .inl rfl
    · exact .inr rfl

theorem readSample_trace (s : State) :
    (State.readSample s).trace = s.trace ∨ (State.readSample s).trace = .r s.base s.answerValue :: s.trace := by
  unfold State.readSample State.live
  split
  · exact .inl rfl
  · dsimp only
    split
    · exact .inl rfl
    · exact .inr rfl

theorem writeDelay_keepsSelected {v : Half} (hv : v.getLsbD 5 = true) (s : State) : s.KeepsSelected (State.writeDelay v s) := by
  have write : s.KeepsSelected (State.lineWrite v s) :=
    .of_trace (lineWrite_base v s) (lineWrite_trace v s) rfl (List.forall_mem_singleton.2 hv)
  refine write.trans (.of_trace (e := .d _) (delay_base _) ?_ rfl (List.forall_mem_nil _))
  rw [State.writeDelay, delay_trace, or_comm]
  exact ite_eq_or_eq _ _ _

theorem low_selected (d : Bool) : (Operand.clockLow d).getLsbD 5 = true := by cases d <;> decide

theorem high_selected (d : Bool) : (Operand.clockHigh d).getLsbD 5 = true := by cases d <;> decide

theorem bitClk_keepsSelected (dbs last : Bool) (s : State) : s.KeepsSelected (State.bitClk dbs last s) :=
  have low := (writeDelay_keepsSelected (low_selected last) s).trans (writeDelay_keepsSelected (low_selected dbs) _)
  have high := low.trans (writeDelay_keepsSelected (high_selected dbs) _)
  high.trans (.of_trace (readSample_base _) (readSample_trace _) rfl (List.forall_mem_nil _))

/-- Settles O35: each of the three writes of a bit clock asserts chip-select, and its other acts write nothing. -/
theorem bitclkKeepsChipSelect : Obligations.BitclkKeepsChipSelect := by
  refine ⟨fun dbs last s => (bitClk_keepsSelected dbs last s).2, fun dbs lastdbs s t hexec => ?_⟩
  obtain rfl := Host.Outcome.next.inj hexec
  obtain ⟨_, evs, ran, selected⟩ := bitClk_keepsSelected dbs lastdbs (State.launch (.prim .bitclk) s)
  exact ⟨evs, ran_of_launched ran _ _, selected⟩

end Sys2Proof.Machine

namespace Sys2Proof.Machine

/-! ### A command as strokes on the line

Every command that reaches a target is a list of the five micro-sequences of R144 to R148, each taking up the line where the one
before left it. What a command writes, delays and reads is told by that list and by the data bit on the line before it. -/

/-- A micro-sequence on the line; a bit clock holds the data bit on the line first (R111). -/
inductive Stroke
  | select
  | deselect
  | start
  | stop
  | bit (dbs : Bool)

/-- What a stroke does. -/
def Stroke.run : Stroke → State → State
  | .select, s => State.selectSeq s
  | .deselect, s => State.deselectSeq s
  | .start, s => State.startSeq s
  | .stop, s => State.stopSeq s
  | .bit dbs, s => State.bitClk dbs s.lastd s

/-- The values a stroke writes, the data bit `d` on the line before it (R144 to R148). -/
def Stroke.values (d : Bool) : Stroke → List Half
  | .select => [0x0000#16, 0x0038#16]
  | .deselect => [0x0000#16]
  | .start => [Frame.low d, 0x0028#16, 0x0038#16, 0x0030#16]
  | .stop => [Frame.low d, 0x0020#16, 0x0030#16, 0x0038#16]
  | .bit dbs => [Frame.low d, Frame.low dbs, Frame.high dbs]

/-- How many values a stroke writes (R158). -/
def Stroke.writes : Stroke → Nat
  | .select => 2
  | .deselect => 1
  | .start | .stop => 4
  | .bit _ => 3

/-- How many samples a stroke takes (R158). -/
def Stroke.samples : Stroke → Nat
  | .bit _ => 1
  | _ => 0

/-- The data bit a stroke leaves on the line (R28). -/
def Stroke.data : Stroke → Bool
  | .select | .stop => true
  | .deselect | .start => false
  | .bit dbs => dbs

/-- The items of a stroke: each write with its delay, then the sample. -/
def Stroke.items (d : Bool) (x : Stroke) : List Item := Frame.writes (x.values d) ++ List.replicate x.samples .r

/-- The items of strokes one after another, the data bit `d` on the line before them. -/
def Strokes.items : Bool → List Stroke → List Item
  | _, [] => []
  | d, x :: l => x.items d ++ Strokes.items x.data l

/-- The values that strokes write. -/
def Strokes.values : Bool → List Stroke → List Half
  | _, [] => []
  | d, x :: l => x.values d ++ Strokes.values x.data l

/-- The data bit that strokes leave on the line. -/
def Strokes.data (d : Bool) (l : List Stroke) : Bool := l.foldl (fun _ x => x.data) d

/-- How many values strokes write. -/
def Strokes.writes (l : List Stroke) : Nat := (l.map Stroke.writes).sum

/-- How many samples strokes take. -/
def Strokes.samples (l : List Stroke) : Nat := (l.map Stroke.samples).sum

@[simp] theorem Strokes.data_append (d : Bool) (l m : List Stroke) :
    Strokes.data d (l ++ m) = Strokes.data (Strokes.data d l) m := List.foldl_append

@[simp] theorem Strokes.items_append (d : Bool) (l m : List Stroke) :
    Strokes.items d (l ++ m) = Strokes.items d l ++ Strokes.items (Strokes.data d l) m := by
  induction l generalizing d with
  | nil => rfl
  | cons x l ih => simp only [List.cons_append, Strokes.items, ih, List.append_assoc]; rfl

@[simp] theorem Strokes.writes_append (l m : List Stroke) : Strokes.writes (l ++ m) = Strokes.writes l + Strokes.writes m := by
  simp [Strokes.writes]

@[simp] theorem Strokes.samples_append (l m : List Stroke) :
    Strokes.samples (l ++ m) = Strokes.samples l + Strokes.samples m := by
  simp [Strokes.samples]

/-! ### What strokes write and count -/

theorem Stroke.items_written (d : Bool) (x : Stroke) : (x.items d).filterMap Item.written = x.values d := by
  cases x <;> rfl

theorem Stroke.values_length (d : Bool) (x : Stroke) : (x.values d).length = x.writes := by cases x <;> rfl

theorem Stroke.count_delay (d : Bool) (x : Stroke) : (x.items d).count .d = x.writes := by cases x <;> rfl

theorem Stroke.count_read (d : Bool) (x : Stroke) : (x.items d).count .r = x.samples := by cases x <;> rfl

theorem Strokes.items_written (d : Bool) (l : List Stroke) :
    (Strokes.items d l).filterMap Item.written = Strokes.values d l := by
  induction l generalizing d with
  | nil => rfl
  | cons x l ih => rw [Strokes.items, List.filterMap_append, x.items_written, ih, Strokes.values]

theorem Strokes.values_length (d : Bool) (l : List Stroke) : (Strokes.values d l).length = Strokes.writes l := by
  induction l generalizing d with
  | nil => rfl
  | cons x l ih => rw [Strokes.values, List.length_append, x.values_length, ih]; rfl

theorem Strokes.count_delay (d : Bool) (l : List Stroke) : (Strokes.items d l).count .d = Strokes.writes l := by
  induction l generalizing d with
  | nil => rfl
  | cons x l ih => rw [Strokes.items, List.count_append, x.count_delay, ih]; rfl

theorem Strokes.count_read (d : Bool) (l : List Stroke) : (Strokes.items d l).count .r = Strokes.samples l := by
  induction l generalizing d with
  | nil => rfl
  | cons x l ih => rw [Strokes.items, List.count_append, x.count_read, ih]; rfl

theorem reads_length (evs : List Event) : (Trace.reads evs).length = (Trace.items evs).count .r := by
  induction evs with
  | nil => rfl
  | cons e evs ih =>
    cases e with
    | w b v => exact ih
    | d b => exact ih
    | r b v => exact (congrArg (· + 1) ih).trans List.count_cons_self.symm

section Counts

variable {evs : List Event} {d : Bool} {l : List Stroke} (h : Trace.items evs = Strokes.items d l)
include h

theorem writes_of_items : Trace.writes evs = Strokes.values d l := by rw [Trace.writes, h, Strokes.items_written]

theorem writes_length_of_items : (Trace.writes evs).length = Strokes.writes l := by
  rw [writes_of_items h, Strokes.values_length]

theorem reads_length_of_items : (Trace.reads evs).length = Strokes.samples l := by rw [reads_length, h, Strokes.count_read]

theorem delays_of_items : Trace.delays evs = Strokes.writes l := by rw [Trace.delays, h, Strokes.count_delay]

end Counts

/-! ### Runs of strokes -/

/-- From `s` to the ready state `t` exactly the strokes `l` took place. -/
structure State.Draws (s t : State) (l : List Stroke) : Prop where
  ready : t.ready
  base : t.base = s.base
  lastd : t.lastd = Strokes.data s.lastd l
  drawn : ∃ evs, s.ran t evs ∧ Trace.items evs = Strokes.items s.lastd l

theorem State.Draws.refl {s : State} (h : s.ready) : s.Draws s [] := ⟨h, rfl, rfl, [], ⟨rfl, List.forall_mem_nil _⟩, rfl⟩

theorem State.Draws.trans {s t u : State} {l m : List Stroke} (h : s.Draws t l) (g : t.Draws u m) : s.Draws u (l ++ m) := by
  obtain ⟨_, hbase, hlastd, e, hran, he⟩ := h
  obtain ⟨gready, gbase, glastd, f, gran, hf⟩ := g
  refine ⟨gready, gbase.trans hbase, ?_, e ++ f, hran.trans gran hbase, ?_⟩
  · rw [glastd, hlastd, Strokes.data_append]
  · rw [items_append, he, hf, hlastd, Strokes.items_append]

theorem State.Performs.draws {s t : State} {evs : List Event} {l : List Stroke} (h : s.Performs t evs)
    (hitems : Trace.items evs = Strokes.items s.lastd l) (hdata : t.lastd = Strokes.data s.lastd l) : s.Draws t l :=
  ⟨h.ready, h.base, hdata, evs, h.ran, hitems⟩

theorem Stroke.run_draws (x : Stroke) {s : State} (h : s.ready) : s.Draws (x.run s) [x] := by
  cases x with
  | select => exact (selectSeq_performs h).draws rfl (selectSeq_performs h).lastd
  | deselect => exact (deselectSeq_performs h).draws rfl (deselectSeq_performs h).lastd
  | start => exact (startSeq_performs h).draws rfl (startSeq_performs h).lastd
  | stop => exact (stopSeq_performs h).draws rfl (stopSeq_performs h).lastd
  | bit dbs =>
    obtain ⟨_, clocks⟩ := bitClk_clocks dbs s.lastd h
    exact clocks.performs.draws (clocks.items.trans (List.append_nil _).symm) clocks.lastd

/-- An act beside the line draws nothing. -/
theorem Act.run_draws (o : Act) {s : State} (h : s.ready) (ho : o.events s = []) : s.Draws (o.run s) [] := by
  have leaves := o.run_leaves h
  rw [ho] at leaves
  exact ⟨leaves.ready, leaves.base, leaves.lastd, [], leaves.ran, rfl⟩

theorem Strokes.items_bits (d : Bool) (bs : List Bool) : Strokes.items d (bs.map .bit) = Frame.bits d bs := by
  induction bs generalizing d with
  | nil => rfl
  | cons b bs ih => exact congrArg (Frame.bit b d ++ ·) (ih b)

theorem Strokes.data_bits (d : Bool) (bs : List Bool) : Strokes.data d (bs.map .bit) = bs.getLastD d := by
  induction bs generalizing d with
  | nil => rfl
  | cons b bs ih => rw [List.getLastD_cons]; exact ih b

/-- A byte sent (R111, R150). -/
def Strokes.byte (b : Byte) : List Stroke := (Frame.msbFirst b).map .bit

/-- A byte received, the line released (R152). -/
def Strokes.released : List Stroke := (List.replicate 8 true).map .bit

/-- A byte sent and its acknowledge (R151). -/
def Strokes.acked (b : Byte) : List Stroke := Strokes.byte b ++ [.bit true]

/-- Stop and deselect (R112). -/
def Strokes.close : List Stroke := [.stop, .deselect]

/-- The write frame up to and with acknowledge 1 (R112). -/
def Strokes.write1 : List Stroke := [.select, .start] ++ Strokes.acked Config.opWrite

/-- The write frame up to and with acknowledge 2 (R112). -/
def Strokes.write2 (i : Index) : List Stroke := Strokes.write1 ++ Strokes.acked (Operand.addrByte i)

/-- The write frame up to and with acknowledge 3 (R112). -/
def Strokes.write3 (i : Index) (w : Half) : List Stroke := Strokes.write2 i ++ Strokes.acked (Operand.hiByte w)

/-- The write frame up to and with acknowledge 4 (R112). -/
def Strokes.write4 (i : Index) (w : Half) : List Stroke := Strokes.write3 i w ++ Strokes.acked (Operand.loByte w)

/-- The read frame (R113). -/
def Strokes.readWord (i : Index) : List Stroke :=
  Strokes.write2 i ++ [.start] ++ Strokes.acked Config.opRead ++ Strokes.released ++ [.bit false]
    ++ Strokes.released ++ [.bit true] ++ Strokes.close

/-- `n` read frames from index `x` on (R200). -/
def Strokes.readWords : Nat → BitVec 8 → List Stroke
  | 0, _ => []
  | n + 1, x => Strokes.readWord (Operand.slot x) ++ Strokes.readWords n (x + 1#8)

/-- A word write up to the checkpoint that fails, or through to the end for 0 (R180). -/
def Strokes.written (i : Index) (w : Half) : Nat → List Stroke
  | 0 => Strokes.write4 i w ++ Strokes.close
  | 1 => Strokes.write1
  | 2 => Strokes.write2 i
  | 3 => Strokes.write3 i w
  | _ => Strokes.write4 i w

/-- The abort path of a checkpoint (R182, R228). -/
def Strokes.abort (p : Params) (k : Nat) : List Stroke := if k = 1 ∧ p.ack1Cleanup = false then [] else Strokes.close

namespace State.Draws

section Chain

variable {s t : State} {l : List Stroke} (h : s.Draws t l)
include h

theorem stroke (x : Stroke) : s.Draws (x.run t) (l ++ [x]) := h.trans (x.run_draws h.ready)

theorem silent (o : Act) (ho : ∀ u, o.events u = []) : s.Draws (o.run t) l := by
  simpa using h.trans (o.run_draws h.ready (ho t))

theorem enter {st : Stage} : s.Draws (t.enter st) l := h.silent (.enter st) fun _ => rfl

theorem noteAck {k : Nat} : s.Draws (t.noteAck k) l := h.silent (.noteAck k) fun _ => rfl

theorem setAcc {v : Half} : s.Draws (t.setAcc v) l := h.silent (.setAcc v) fun _ => rfl

theorem setWidx {v : BitVec 8} : s.Draws (t.setWidx v) l := h.silent (.setWidx v) fun _ => rfl

theorem setWword {v : Half} : s.Draws (t.setWword v) l := h.silent (.setWword v) fun _ => rfl

theorem bufTouch {i : Index} : s.Draws (t.bufTouch i) l := h.silent (.bufTouch i) fun _ => rfl

theorem bufWrite {i : Index} {v : Half} : s.Draws (t.bufWrite i v) l := h.silent (.bufWrite i v) fun _ => rfl

theorem complete {status : BitVec 4} {rdata : Half} : s.Draws (t.complete status rdata) l :=
  h.silent (.complete status rdata) fun _ => rfl

theorem sendByte {b : Byte} : s.Draws (t.sendByte b) (l ++ Strokes.byte b) := by
  obtain ⟨_, ⟨performs, items, _, lastd, _, _⟩, _⟩ := sendByte_sends b h.ready
  exact h.trans (performs.draws (items.trans (Strokes.items_bits _ _).symm) (lastd.trans (Strokes.data_bits _ _).symm))

theorem recvByte : s.Draws t.recvByte (l ++ Strokes.released) := by
  obtain ⟨_, ⟨performs, items, _, lastd, _, _⟩, _⟩ := recvByte_receives h.ready
  exact h.trans (performs.draws (items.trans (Strokes.items_bits _ _).symm) (lastd.trans (Strokes.data_bits _ _).symm))

end Chain

end State.Draws

/-! ### The word operations as strokes -/

section Words

variable {s : State} (h : s.ready)
include h

/-- A byte and its acknowledge. -/
theorem checkpoint_draws {st st' : Stage} {b : Byte} :
    s.Draws (State.ackChk (State.enter st' (State.sendByte b (State.enter st s)))) (Strokes.acked b) :=
  (State.Draws.refl h).enter.sendByte.enter.stroke (.bit true)

theorem close_draws {st st' : Stage} :
    s.Draws (State.deselectSeq (State.enter st' (State.stopSeq (State.enter st s)))) Strokes.close :=
  ((State.Draws.refl h).enter.stroke .stop).enter.stroke .deselect

theorem writeCode_draws {at_ : WStage → Stage} : s.Draws (s.writeCode at_) Strokes.write1 :=
  have started := (((State.Draws.refl h).stroke .select).enter (st := at_ .start)).stroke .start
  started.trans (checkpoint_draws started.ready)

theorem readWord_draws {at_ : RStage → Stage} {i : Index} : s.Draws (s.readWord at_ i) (Strokes.readWord i) :=
  have started := (((State.Draws.refl h).stroke .select).enter (st := at_ .start)).stroke .start
  have coded := (started.trans (checkpoint_draws started.ready)).noteAck
  have addressed := (coded.trans (checkpoint_draws coded.ready)).noteAck
  have restarted := (addressed.enter (st := at_ .restart)).stroke .start
  have turned := (restarted.trans (checkpoint_draws restarted.ready)).noteAck
  have high := (turned.enter (st := at_ .rxhi)).recvByte.enter.stroke (.bit false)
  have low := (high.enter (st := at_ .rxlo)).recvByte.enter.stroke (.bit true)
  low.trans (close_draws low.ready)

/-- A word write draws its frame up to the checkpoint it reports, or to its end (R180). -/
theorem writeWord_draws {at_ : WStage → Stage} {i : Index} {w : Half} :
    (s.writeWord at_ i w).1.toNat ≤ 4 ∧ s.Draws (s.writeWord at_ i w).2 (Strokes.written i w (s.writeWord at_ i w).1.toNat) := by
  unfold State.writeWord
  extract_lets s1 s2 s3 s4
  have h1 : s.Draws s1 Strokes.write1 := writeCode_draws h
  have h2 : s.Draws s2 (Strokes.write2 i) := h1.trans (checkpoint_draws h1.ready)
  have h3 : s.Draws s3 (Strokes.write3 i w) := h2.trans (checkpoint_draws h2.ready)
  have h4 : s.Draws s4 (Strokes.write4 i w) := h3.trans (checkpoint_draws h3.ready)
  clear_value s1 s2 s3 s4
  split
  · exact ⟨show (1#4).toNat ≤ 4 by decide, h1⟩
  split
  · exact ⟨show (2#4).toNat ≤ 4 by decide, h2⟩
  split
  · exact ⟨show (3#4).toNat ≤ 4 by decide, h3⟩
  split
  · exact ⟨show (4#4).toNat ≤ 4 by decide, h4⟩
  · exact ⟨Nat.zero_le 4, h4.trans (close_draws h4.ready)⟩

theorem abortPath_draws {at_ : WStage → Stage} {k : BitVec 4} : s.Draws (s.abortPath at_ k) (Strokes.abort s.par k.toNat) := by
  simp only [State.abortPath, Strokes.abort, code_eq_one]
  split
  · exact .refl h
  · exact close_draws h

end Words

end Sys2Proof.Machine

namespace Sys2Proof.Machine

/-! ### The words of a bulk command as strokes (R200, R201) -/

/-- After acts beside the line come the strokes. -/
theorem State.Draws.nil_trans {s t u : State} {l : List Stroke} (h : s.Draws t []) (g : t.Draws u l) : s.Draws u l :=
  h.trans g

theorem rdallWord_draws {s : State} (h : s.ready) :
    s.Draws s.rdallWord (Strokes.readWord (Operand.slot s.widx)) ∧ s.rdallWord.widx = s.widx + 1#8 := by
  have begun {at_ : RStage → Stage} : s.Draws (s.beginRead at_) [] := (State.Draws.refl h).setAcc.enter
  unfold State.rdallWord
  extract_lets i t
  have read : s.Draws t (Strokes.readWord i) := begun.nil_trans (readWord_draws begun.ready)
  have hwidx : t.widx = s.widx := (readWord_slotsKept _ _ _).1.trans (beginRead_widx _ s)
  clear_value t
  refine ⟨read.bufWrite.setWidx, ?_⟩
  rw [countWord_widx read.bufWrite.ready.running, bufWrite_widx, hwidx]

theorem rdallWords_draws {n : Nat} {s : State} (h : s.ready) : s.Draws (s.rdallWords n) (Strokes.readWords n s.widx) := by
  induction n generalizing s with
  | zero => exact .refl h
  | succ n ih =>
    obtain ⟨word, hwidx⟩ := rdallWord_draws h
    have rest := ih word.ready
    rw [hwidx] at rest
    exact word.trans rest

theorem wrallWord_draws {s : State} (h : s.ready) :
    ∃ w, s.wrallWord.1.toNat ≤ 4 ∧
      s.Draws s.wrallWord.2 (Strokes.written (Operand.slot s.widx) w s.wrallWord.1.toNat) := by
  have begun : s.Draws s.beginWrite [] := (State.Draws.refl h).setWword.bufTouch.enter
  unfold State.wrallWord
  obtain ⟨hcode, word⟩ := writeWord_draws begun.ready (at_ := .bWord (Operand.slot s.widx)) (i := Operand.slot s.widx)
    (w := s.beginWrite.wword)
  exact ⟨_, hcode, begun.nil_trans word⟩

/-! ### How many writes and samples (R158, R266) -/

/-- Strokes that write `w` values and take `r` samples. -/
def Strokes.Counted (l : List Stroke) (w r : Nat) : Prop := Strokes.writes l = w ∧ Strokes.samples l = r

theorem Strokes.Counted.append {l m : List Stroke} {w r w' r' : Nat} (h : Strokes.Counted l w r) (g : Strokes.Counted m w' r') :
    Strokes.Counted (l ++ m) (w + w') (r + r') :=
  ⟨by rw [Strokes.writes_append, h.1, g.1], by rw [Strokes.samples_append, h.2, g.2]⟩

theorem byte_counted (b : Byte) : Strokes.Counted (Strokes.byte b) 24 8 := ⟨rfl, rfl⟩

theorem acked_counted (b : Byte) : Strokes.Counted (Strokes.acked b) 27 9 := (byte_counted b).append ⟨rfl, rfl⟩

theorem released_counted : Strokes.Counted Strokes.released 24 8 := ⟨rfl, rfl⟩

theorem close_counted : Strokes.Counted Strokes.close 5 0 := ⟨rfl, rfl⟩

theorem write1_counted : Strokes.Counted Strokes.write1 33 9 :=
  Strokes.Counted.append (l := [.select, .start]) ⟨rfl, rfl⟩ (acked_counted _)

theorem write2_counted (i : Index) : Strokes.Counted (Strokes.write2 i) 60 18 := write1_counted.append (acked_counted _)

theorem write3_counted (i : Index) (w : Half) : Strokes.Counted (Strokes.write3 i w) 87 27 :=
  (write2_counted i).append (acked_counted _)

theorem write4_counted (i : Index) (w : Half) : Strokes.Counted (Strokes.write4 i w) 114 36 :=
  (write3_counted i w).append (acked_counted _)

theorem readWord_counted (i : Index) : Strokes.Counted (Strokes.readWord i) 150 45 := by
  have started : Strokes.Counted [.start] 4 0 := ⟨rfl, rfl⟩
  have answered (dbs : Bool) : Strokes.Counted [.bit dbs] 3 1 := ⟨rfl, rfl⟩
  have turned := ((write2_counted i).append started).append (acked_counted Config.opRead)
  have high := (turned.append released_counted).append (answered false)
  have low := (high.append released_counted).append (answered true)
  exact low.append close_counted

theorem readWords_counted (n : Nat) (x : BitVec 8) : Strokes.Counted (Strokes.readWords n x) (150 * n) (45 * n) := by
  induction n generalizing x with
  | zero => exact ⟨rfl, rfl⟩
  | succ n ih =>
    rw [Nat.mul_add_one, Nat.mul_add_one, Nat.add_comm (150 * n), Nat.add_comm (45 * n)]
    exact (readWord_counted _).append (ih _)

/-- A whole word write. -/
theorem written_counted (i : Index) (w : Half) : Strokes.Counted (Strokes.written i w 0) 119 36 :=
  (write4_counted i w).append close_counted

/-- A word write that fails at checkpoint `k`, its abort path counted. -/
theorem failed_counted (p : Params) (i : Index) (w : Half) {k : Nat} (h1 : 1 ≤ k) (h4 : k ≤ 4) :
    Strokes.Counted (Strokes.written i w k ++ Strokes.abort p k) (Frame.failedWrites p k) (9 * k) := by
  interval_cases k
  · unfold Strokes.abort Frame.failedWrites
    cases p.ack1Cleanup
    · exact write1_counted.append (m := []) ⟨rfl, rfl⟩
    · exact write1_counted.append close_counted
  · exact (write2_counted i).append close_counted
  · exact (write3_counted i w).append close_counted
  · exact (write4_counted i w).append close_counted

/-! ### The strokes of each command -/

/-- The strokes of a command that takes no account of what it samples (R159, R185). The word writes do: no strokes are theirs
whatever they sample. -/
def fixedStrokes : Instr → List Stroke
  | .bitclk dbs _ => [.bit dbs]
  | .select => [.select]
  | .deselect => [.deselect]
  | .start => [.start]
  | .stop => [.stop]
  | .sendop code => Strokes.byte code
  | .eeWrite => Strokes.byte Config.opWrite
  | .eeRead => Strokes.byte Config.opRead
  | .rdword i => Strokes.readWord i
  | .rdall => Strokes.readWords 128 0#8
  | .wrword _ _ | .wrall => []
  | .delay | .bufrd _ | .bufwr _ _ | .reserved0 | .reservedE | .reservedF => []

/-- The data bit that the first stroke of a command takes for the one on the line: a `BITCLK` is told it (R144, R157). -/
def heldData (d : Bool) : Instr → Bool
  | .bitclk _ lastdbs => lastdbs
  | _ => d

/-- Strokes counted as a command's response tells (R106, R266). -/
def countedBy (p : Params) (rsp : Word) (l : List Stroke) : Instr → Prop
  | .wrword _ _ => ∃ k ≤ 4, rsp = Frame.rsp 0 k 0 ∧
      Strokes.Counted l (if k = 0 then 119 else Frame.failedWrites p k) (if k = 0 then 36 else 9 * k)
  | .wrall =>
    (rsp = 0#32 ∧ Strokes.Counted l 15232 4608) ∨
      ∃ (j : Index) (k : Nat), 1 ≤ k ∧ k ≤ 4 ∧ rsp = Frame.rsp 0 1 (256 * j.toNat + k) ∧
        Strokes.Counted l (119 * j.toNat + Frame.failedWrites p k) (36 * j.toNat + 9 * k)
  | i => l = fixedStrokes i

theorem State.Draws.wrallWords {s t : State} {l : List Stroke} {n : Nat} (hn : n ≤ 128) (h : s.Draws t l)
    (hl : Strokes.Counted l (119 * (128 - n)) (36 * (128 - n)))
    (hwidx : t.widx.toNat = 128 - n) (hr : t.rdack = 0#3) (hpar : t.par = s.par) :
    ∃ m, s.Draws (t.wrallWords n) m ∧ countedBy s.par (t.wrallWords n).rsp m .wrall := by
  induction n generalizing t l with
  | zero => exact ⟨l, h.complete, .inl ⟨complete_rsp h.ready hr _ _, hl⟩⟩
  | succ n ih =>
    obtain ⟨w, hcode, word⟩ := wrallWord_draws h.ready
    obtain ⟨krdack, kpar, kwidx⟩ := wrallWord_kept t
    have hrdack : t.wrallWord.2.rdack = 0#3 := krdack.trans hr
    have hpar' : t.wrallWord.2.par = s.par := kpar.trans hpar
    have hslot : (Operand.slot t.widx).toNat = 128 - (n + 1) := by rw [slot_toNat (by omega)]; omega
    rw [wrallWords_succ]
    split
    · next hgood =>
      rw [hgood] at word
      have counts := hl.append (written_counted (Operand.slot t.widx) w)
      rw [← Nat.mul_add_one, ← Nat.mul_add_one, show 128 - (n + 1) + 1 = 128 - n by omega] at counts
      have counted : s.Draws (State.countWord t.wrallWord.2) _ := (h.trans word).setWidx
      refine ih (by omega) counted counts ?_ (by simpa [State.countWord] using hrdack) (by simpa [State.countWord] using hpar')
      rw [countWord_widx word.ready.running, kwidx]
      exact succ_toNat (by omega) (by omega)
    · next hbad =>
      have hpos := code_pos hbad
      have path := abortPath_draws word.ready (at_ := .bWord (Operand.slot t.widx)) (k := t.wrallWord.1)
      obtain ⟨hrsp, _⟩ := (State.Makes.refl word.ready).raiseNoAck hrdack (.bWord (Operand.slot t.widx)) t.wrallWord.1 1#4
        (Operand.failure (Operand.slot t.widx) t.wrallWord.1)
      rw [failure_toNat] at hrsp
      rw [hpar'] at path
      rw [← hslot] at hl
      exact ⟨_, (h.trans (word.trans path)).complete, .inr ⟨Operand.slot t.widx, t.wrallWord.1.toNat, hpos, hcode, hrsp,
        hl.append (failed_counted s.par _ w hpos hcode)⟩⟩

theorem wrword_draws {i : Index} {w : Half} {s t : State} (hs : s.ready) (h : exec (.wrword i w) s = .next t) :
    ∃ l, s.Draws t l ∧ countedBy s.par t.rsp l (.wrword i w) := by
  obtain ⟨k, hk, hcode, hrsp⟩ := wrword_rsp hs h
  have started : s.Draws (s.launch (.word .select)) [] := (State.Draws.refl hs).silent (.launch _) fun _ => rfl
  obtain ⟨_, drawn⟩ := writeWord_draws started.ready (at_ := .word) (i := i) (w := w)
  have word := started.nil_trans drawn
  have hpar : ((s.launch (.word .select)).writeWord .word i w).2.par = s.par :=
    (writeWord_par _ _ _ _).trans (launch_par _ s)
  rw [hcode] at word
  obtain rfl := Host.Outcome.next.inj h
  by_cases hgood : ((s.launch (.word .select)).writeWord .word i w).1 = 0#4
  · rw [hgood] at hcode
    subst hcode
    rw [if_pos hgood] at hrsp ⊢
    exact ⟨_, word.complete, 0, hk, hrsp, written_counted i w⟩
  · have hpos := hcode ▸ code_pos hgood
    have path := abortPath_draws word.ready (at_ := .word) (k := ((s.launch (.word .select)).writeWord .word i w).1)
    rw [hpar, hcode] at path
    rw [if_neg hgood] at hrsp ⊢
    refine ⟨_, (word.trans path).complete, k, hk, hrsp, ?_⟩
    rw [if_neg (by omega), if_neg (by omega)]
    exact failed_counted s.par i w hpos hk

/-- What is known of a command once its strokes are. -/
theorem State.Draws.known {s t : State} {l : List Stroke} {i : Instr} (h : s.Draws t l) (hi : heldData s.lastd i = s.lastd)
    (hl : countedBy s.par t.rsp l i) :
    ∃ l evs, s.ran t evs ∧ Trace.items evs = Strokes.items (heldData s.lastd i) l ∧ countedBy s.par t.rsp l i := by
  obtain ⟨evs, hran, hitems⟩ := h.drawn
  exact ⟨l, evs, hran, hitems.trans (by rw [hi]), hl⟩

/-- Every command but `DELAY` is strokes on the line, of which a `BITCLK` is told the data bit before them. -/
theorem exec_draws {i : Instr} {s t : State} (hs : s.ready) (h : exec i s = .next t) (hi : i ≠ .delay) :
    ∃ l evs, s.ran t evs ∧ Trace.items evs = Strokes.items (heldData s.lastd i) l ∧ countedBy s.par t.rsp l i := by
  have start (st : Stage) : s.Draws (State.launch st s) [] := (State.Draws.refl hs).silent (.launch st) fun _ => rfl
  cases i
  case delay => exact absurd rfl hi
  case wrword =>
    obtain ⟨l, draws, counted⟩ := wrword_draws hs h
    exact draws.known rfl counted
  all_goals obtain rfl := Host.Outcome.next.inj h
  case bitclk dbs lastdbs =>
    obtain ⟨evs, clocks⟩ := bitClk_clocks dbs lastdbs (launch_ready hs (.prim .bitclk))
    exact ⟨_, evs, ran_of_launched clocks.performs.ran _ _, clocks.items.trans (List.append_nil _).symm, rfl⟩
  case wrall =>
    obtain ⟨l, draws, counted⟩ := State.Draws.wrallWords le_rfl (start (.bWord 0#7 .select)).setWidx ⟨rfl, rfl⟩
      (setWidx_zero (start _).ready.running) (by simpa using launch_rdack hs _) (by simp)
    exact draws.known rfl counted
  case rdall =>
    have begun := (start (.aWord 0#7 .select)).setWidx (v := 0#8)
    have words := begun.nil_trans (rdallWords_draws (n := 128) begun.ready)
    rw [show (State.setWidx 0#8 (s.launch (.aWord 0#7 .select))).widx = 0#8 from
      BitVec.eq_of_toNat_eq (setWidx_zero (start _).ready.running)] at words
    exact words.complete.known rfl rfl
  case rdword i =>
    have begun := ((start (.read .select)).setAcc (v := 0#16)).enter (st := .read .select)
    exact (begun.nil_trans (readWord_draws begun.ready)).complete.known rfl rfl
  case select => exact ((start _).stroke .select).complete.known rfl rfl
  case deselect => exact ((start _).stroke .deselect).complete.known rfl rfl
  case start => exact ((start _).stroke .start).complete.known rfl rfl
  case stop => exact ((start _).stroke .stop).complete.known rfl rfl
  case sendop | eeWrite | eeRead => exact (start _).sendByte.complete.known rfl rfl
  case bufrd => exact (start _).bufTouch.complete.known rfl rfl
  case bufwr => exact (start _).bufWrite.complete.known rfl rfl
  case reserved0 | reservedE | reservedF => exact (start _).complete.known rfl rfl

theorem exec_delay_ran {s t : State} (hs : s.ready) (h : exec .delay s = .next t) : s.ran t [.d s.base] := by
  obtain rfl := Host.Outcome.next.inj h
  have performs := delay_performs (launch_ready hs (.prim .delay))
  rw [launch_base] at performs
  exact ran_of_launched performs.ran _ _

end Sys2Proof.Machine

namespace Sys2Proof.Machine

/-! ### How many writes and reads (R158, R266) -/

/-- Settles O40: the strokes of the command, counted. -/
theorem eventCounts : Obligations.EventCounts := by
  intro i s t hs hexec
  by_cases hdelay : i = .delay
  · subst hdelay
    exact ⟨_, exec_delay_ran hs hexec, rfl, rfl⟩
  obtain ⟨l, evs, ran, items, counted⟩ := exec_draws hs hexec hdelay
  refine ⟨evs, ran, ?_⟩
  rw [writes_length_of_items items, reads_length_of_items items]
  cases i
  case wrword | wrall => exact counted
  case delay => exact absurd rfl hdelay
  all_goals subst counted
  case rdword j => exact readWord_counted j
  case rdall => exact readWords_counted 128 0#8
  all_goals exact ⟨rfl, rfl⟩

/-! ### What does not depend on the answers (R159, R185) -/

theorem fixedStrokes_of_counted {i : Instr} {p : Params} {rsp : Word} {l : List Stroke} (hword : ∀ k w, i ≠ .wrword k w)
    (hall : i ≠ .wrall) (h : countedBy p rsp l i) : l = fixedStrokes i := by
  cases i
  case wrword k w => exact absurd rfl (hword k w)
  case wrall => exact absurd rfl hall
  all_goals exact h

/-- Settles O42: the strokes of such a command are fixed, and their items depend on `LASTD` alone. -/
theorem itemsIndependentOfAnswers : Obligations.ItemsIndependentOfAnswers := by
  intro i s s' t t' hword hall hs hs' hlastd hexec hexec'
  by_cases hdelay : i = .delay
  · subst hdelay
    exact ⟨_, _, exec_delay_ran hs hexec, exec_delay_ran hs' hexec', rfl⟩
  obtain ⟨l, evs, ran, items, counted⟩ := exec_draws hs hexec hdelay
  obtain ⟨l', evs', ran', items', counted'⟩ := exec_draws hs' hexec' hdelay
  refine ⟨evs, evs', ran, ran', ?_⟩
  rw [items, items', hlastd, fixedStrokes_of_counted hword hall counted, fixedStrokes_of_counted hword hall counted']

/-! ### Writes and their delays (R155) -/

theorem delayLaw_append {a b : List Item} (ha : Trace.delayLaw a = true) (hb : Trace.delayLaw b = true) :
    Trace.delayLaw (a ++ b) = true := by
  induction a using Trace.delayLaw.induct with
  | case1 => exact hb
  | case2 v rest ih => exact ih ha
  | case3 v rest hrest => simp [Trace.delayLaw] at ha
  | case4 rest ih => exact ih ha
  | case5 rest ih => exact ih ha

theorem Strokes.delayLaw (d : Bool) (l : List Stroke) : Trace.delayLaw (Strokes.items d l) = true := by
  induction l generalizing d with
  | nil => rfl
  | cons x l ih => exact delayLaw_append (by cases x <;> rfl) (ih _)

/-- No delay comes right after a read. -/
def Item.noDelayAfterRead (x y : Item) : Prop := x = .r → y ≠ .d

theorem Strokes.head_not_delay (d : Bool) (l : List Stroke) : ∀ y ∈ (Strokes.items d l).head?, y ≠ .d := by
  cases l with
  | nil => exact nofun
  | cons x l => cases x <;> exact fun y hy => by obtain rfl := Option.some.inj hy; exact nofun

theorem Strokes.items_chain (d : Bool) (l : List Stroke) : (Strokes.items d l).IsChain Item.noDelayAfterRead := by
  induction l generalizing d with
  | nil => exact .nil
  | cons x l ih =>
    refine List.isChain_append.2 ⟨?_, ih _, fun _ _ y hy _ => Strokes.head_not_delay _ l y hy⟩
    cases x <;> simp [Stroke.items, Stroke.values, Stroke.samples, Frame.writes, Item.noDelayAfterRead]

/-- Settles O34: in a stroke each write has its delay and the one read, if any, comes last; every stroke begins with a write. -/
theorem delayLaw : Obligations.DelayLaw := by
  intro i s hs
  obtain ⟨t, hexec⟩ := exec_next i s
  by_cases hdelay : i = .delay
  · subst hdelay
    exact ⟨t, _, hexec, exec_delay_ran hs hexec, fun h => absurd rfl h, rfl⟩
  obtain ⟨l, evs, ran, items, _⟩ := exec_draws hs hexec hdelay
  refine ⟨t, evs, hexec, ran, fun _ => ?_, ?_⟩
  · rw [items]
    refine ⟨Strokes.delayLaw _ l, fun a b hab => ?_⟩
    have chain := Strokes.items_chain (heldData s.lastd i) l
    rw [hab, List.append_assoc] at chain
    obtain ⟨_, follows, _⟩ := List.isChain_append_cons_cons.1 chain
    exact follows rfl rfl
  · rw [delays_of_items items, writes_length_of_items items, if_neg hdelay]
    rfl

/-! ### The line from one stroke to the next (R157) -/

/-- A write that takes up a line with data bit `d`: if it asserts chip-select it lowers the clock and holds the bit. -/
def Line.takesUp (d : Bool) (v : Half) : Prop := v.getLsbD 5 = true → v.getLsbD 4 = false ∧ v.getLsbD 3 = d

/-- One write after another does not move clock and data together (R157). -/
def Line.singleMove (v w : Half) : Prop := Line.doubleMove v w = false

theorem noDoubleMove_iff (ws : List Half) : Trace.noDoubleMove ws = true ↔ ws.IsChain Line.singleMove := by
  induction ws using Trace.noDoubleMove.induct with
  | case1 v w rest ih =>
    rw [Trace.noDoubleMove, Bool.and_eq_true, Bool.not_eq_true', ih, List.isChain_cons_cons]
    rfl
  | case2 ws hws =>
    match ws with
    | [] => simp [Trace.noDoubleMove]
    | [_] => simp [Trace.noDoubleMove]
    | v :: w :: rest => exact absurd rfl (hws v w rest)

theorem Line.takesUp.singleMove {v w : Half} (h : Line.takesUp (v.getLsbD 3) w) : Line.singleMove v w := by
  unfold Line.singleMove Line.doubleMove Line.cs Line.data
  cases hcs : w.getLsbD 5 with
  | false => simp
  | true =>
    obtain ⟨_, hdata⟩ := h hcs
    rw [hdata, bne_self_eq_false, Bool.and_false]

theorem Strokes.head_takesUp (d : Bool) (l : List Stroke) : ∀ v ∈ (Strokes.values d l).head?, Line.takesUp d v := by
  cases l with
  | nil => exact nofun
  | cons x l =>
    have low : Line.takesUp d (Frame.low d) := by cases d <;> exact fun _ => ⟨rfl, rfl⟩
    have off : Line.takesUp d 0x0000#16 := nofun
    cases x
    case select | deselect => exact fun v hv => Option.some.inj hv ▸ off
    all_goals exact fun v hv => Option.some.inj hv ▸ low

theorem Stroke.last_data (d : Bool) (x : Stroke) : ∀ v ∈ (x.values d).getLast?, v.getLsbD 3 = x.data := by
  cases x <;> intro v hv <;> simp only [Stroke.values, List.getLast?_cons_cons, List.getLast?_singleton, Option.mem_some] at hv
  case bit dbs => exact hv ▸ high_data dbs
  all_goals exact hv ▸ rfl

theorem Stroke.values_chain (d : Bool) (x : Stroke) : (x.values d).IsChain Line.singleMove := by
  rw [← noDoubleMove_iff]
  cases x
  case bit dbs => cases d <;> cases dbs <;> rfl
  all_goals cases d <;> rfl

theorem Strokes.values_chain (d : Bool) (l : List Stroke) : (Strokes.values d l).IsChain Line.singleMove := by
  induction l generalizing d with
  | nil => exact .nil
  | cons x l ih =>
    refine List.isChain_append.2 ⟨x.values_chain d, ih _, fun v hv w hw => ?_⟩
    have up := Strokes.head_takesUp x.data l w hw
    rw [← x.last_data d v hv] at up
    exact up.singleMove

/-- Settles O37: each stroke takes up the line with the data bit that the one before it left, the first with the bit that the command
holds. -/
theorem boundaryLaw : Obligations.BoundaryLaw := by
  intro i s t hs hexec
  by_cases hdelay : i = .delay
  · subst hdelay
    exact ⟨_, exec_delay_ran hs hexec, rfl, nofun⟩
  obtain ⟨l, evs, ran, items, _⟩ := exec_draws hs hexec hdelay
  refine ⟨evs, ran, ?_⟩
  rw [writes_of_items items]
  refine ⟨(noDoubleMove_iff _).2 (Strokes.values_chain _ l), fun v hv hcs => ?_⟩
  obtain ⟨hclk, hdata⟩ := Strokes.head_takesUp _ l v hv hcs
  exact ⟨hclk, hdata.trans (by cases i <;> rfl)⟩

end Sys2Proof.Machine

namespace Sys2Proof.Machine

/-! ### What a word operation hears, and where the samples go

`State.Leaves` tells of the registers that follow from the events alone, `Strokes` of what is written. The other registers a word
operation changes are told here along with them, so that a command's result is read off one chain. -/

/-- The registers that a command changes beside those its last events leave (R31 to R33, R36, R76). -/
structure Registers where
  acc : Half
  rdack : BitVec 3
  bitcnt : BitVec 4
  widx : BitVec 8
  wword : Half
  buf : List (Nat × Half)

/-- These registers of a state. -/
def State.registers (s : State) : Registers := ⟨s.acc, s.rdack, s.bitcnt, s.widx, s.wword, s.buf⟩

/-- From `s` to `t` the events `evs` took place, which are the strokes `l`, and the registers at `t` are `g`. -/
structure State.Hears (s t : State) (l : List Stroke) (evs : List Event) (g : Registers) : Prop where
  leaves : s.Leaves t evs
  items : Trace.items evs = Strokes.items s.lastd l
  lastd : t.lastd = Strokes.data s.lastd l
  registers : t.registers = g

theorem State.Hears.ready {s t : State} {l : List Stroke} {evs : List Event} {g : Registers} (h : s.Hears t l evs g) : t.ready :=
  h.leaves.ready

section Registers

variable {s t : State} {l : List Stroke} {evs : List Event} {g : Registers} (h : s.Hears t l evs g)
include h

theorem State.Hears.acc : t.acc = g.acc := congrArg Registers.acc h.registers

theorem State.Hears.rdack : t.rdack = g.rdack := congrArg Registers.rdack h.registers

theorem State.Hears.bitcnt : t.bitcnt = g.bitcnt := congrArg Registers.bitcnt h.registers

theorem State.Hears.widx : t.widx = g.widx := congrArg Registers.widx h.registers

theorem State.Hears.wword : t.wword = g.wword := congrArg Registers.wword h.registers

theorem State.Hears.buf : t.buf = g.buf := congrArg Registers.buf h.registers

end Registers

theorem State.Hears.refl {s : State} (h : s.ready) : s.Hears s [] [] s.registers :=
  ⟨⟨h, rfl, ⟨rfl, List.forall_mem_nil _⟩, rfl, rfl, rfl, rfl⟩, rfl, rfl, rfl⟩

theorem State.Hears.trans {s t u : State} {l m : List Stroke} {e f : List Event} {g g' : Registers} (h : s.Hears t l e g)
    (k : t.Hears u m f g') : s.Hears u (l ++ m) (e ++ f) g' where
  leaves := h.leaves.trans k.leaves
  items := by rw [items_append, h.items, k.items, h.lastd, Strokes.items_append]
  lastd := by rw [k.lastd, h.lastd, Strokes.data_append]
  registers := k.registers

/-- Acts that draw strokes have events, which tell the rest. -/
theorem State.Draws.hears {s t : State} {l : List Stroke} {n : Nat} (h : s.Draws t l) (run : s.Runs True n t) (hs : s.ready) :
    ∃ evs, s.Hears t l evs t.registers := by
  obtain ⟨evs, ran, items⟩ := h.drawn
  obtain ⟨e, leaves⟩ := run.leaves hs
  rw [leaves.ran.unique ran] at leaves
  exact ⟨evs, leaves, items, h.lastd, rfl⟩

/-- An act beside the line has no event. -/
theorem Act.run_hears (o : Act) {s : State} (h : s.ready) (ho : o.events s = []) : s.Hears (o.run s) [] [] (o.run s).registers := by
  have leaves := o.run_leaves h
  rw [ho] at leaves
  exact ⟨leaves, rfl, leaves.lastd, rfl⟩

/-! ### The micro-sequences and the registers -/

theorem Stroke.run_registers (x : Stroke) (s : State) : (x.run s).registers = s.registers := by
  cases x <;>
    simp [State.registers, Stroke.run, State.selectSeq, State.deselectSeq, State.startSeq, State.stopSeq, State.bitClk,
      State.writeDelay]

theorem sendByte_registers (b : Byte) {s : State} (h : s.ready) :
    (s.sendByte b).registers = { s.registers with bitcnt := 8#4 } := by
  obtain ⟨_, ⟨performs, _, _, _, hacc, hrdack⟩, hbitcnt⟩ := sendByte_sends b h
  rw [State.registers, hacc, hrdack, hbitcnt, performs.widx, performs.wword, performs.buf]
  rfl

theorem recvByte_hears {s : State} (h : s.ready) :
    ∃ e, s.Hears s.recvByte Strokes.released e
      { s.registers with acc := Frame.shiftIn s.acc (Trace.samples e), bitcnt := 8#4 } := by
  obtain ⟨e, ⟨performs, _, _, _, hacc, hrdack⟩, hbitcnt⟩ := recvByte_receives h
  obtain ⟨e', leaves, items, lastd, _⟩ := (State.Draws.refl h).recvByte.hears (State.Runs.refl 0).recvByte h
  obtain rfl := leaves.ran.unique performs.ran
  refine ⟨e', leaves, items, lastd, ?_⟩
  rw [State.registers, hacc, hrdack, hbitcnt, performs.widx, performs.wword, performs.buf]
  rfl

namespace State.Hears

section Chain

variable {s t : State} {l : List Stroke} {evs : List Event} {g : Registers} (h : s.Hears t l evs g)
include h

theorem act (o : Act) {g' : Registers} (ho : o.events t = []) (hg : (o.run t).registers = g') : s.Hears (o.run t) l evs g' := by
  subst hg
  simpa using h.trans (o.run_hears h.ready ho)

theorem enter {st : Stage} : s.Hears (t.enter st) l evs g :=
  h.act (.enter st) rfl (by rw [← h.registers]; simp [Act.run, State.registers])

theorem complete {status : BitVec 4} {rdata : Half} : s.Hears (t.complete status rdata) l evs g :=
  h.act (.complete status rdata) rfl (by rw [← h.registers]; simp [Act.run, State.registers])

theorem setWidx {v : BitVec 8} : s.Hears (t.setWidx v) l evs { g with widx := v } :=
  h.act (.setWidx v) rfl (by
    rw [← h.registers]
    simp [Act.run, State.registers, State.setWidx, State.live_of_running h.ready.running])

theorem countWord : s.Hears t.countWord l evs { g with widx := g.widx + 1#8 } := by
  rw [State.countWord, h.widx]
  exact h.setWidx

theorem setAcc {v : Half} : s.Hears (t.setAcc v) l evs { g with acc := v } :=
  h.act (.setAcc v) rfl (by
    rw [← h.registers]
    simp [Act.run, State.registers, State.setAcc, State.live_of_running h.ready.running])

theorem setWword {v : Half} : s.Hears (t.setWword v) l evs { g with wword := v } :=
  h.act (.setWword v) rfl (by
    rw [← h.registers]
    simp [Act.run, State.registers, State.setWword, State.live_of_running h.ready.running])

theorem bufTouch {i : Index} : s.Hears (t.bufTouch i) l evs g :=
  h.act (.bufTouch i) rfl (by rw [← h.registers]; simp [Act.run, State.registers])

theorem bufWrite {i : Index} {v : Half} : s.Hears (t.bufWrite i v) l evs { g with buf := Table.put i.toNat v g.buf } :=
  h.act (.bufWrite i v) rfl (by
    rw [← h.registers]
    simp [Act.run, State.registers, State.bufWrite, State.live_of_running h.ready.running])

theorem stroke (x : Stroke) : ∃ e, s.Hears (x.run t) (l ++ [x]) (evs ++ e) g := by
  obtain ⟨e, k⟩ := ((Draws.refl h.ready).stroke x).hears (n := 1) (by
    have run : t.Runs True 0 t := .refl 0
    cases x
    case select => exact run.selectSeq.mono (by omega)
    case deselect => exact run.deselectSeq.mono (by omega)
    case start => exact run.startSeq.mono (by omega)
    case stop => exact run.stopSeq.mono (by omega)
    case bit => exact run.bitClk) h.ready
  rw [x.run_registers, h.registers] at k
  exact ⟨e, h.trans k⟩

theorem sendByte {b : Byte} : ∃ e, s.Hears (t.sendByte b) (l ++ Strokes.byte b) (evs ++ e) { g with bitcnt := 8#4 } := by
  obtain ⟨e, k⟩ := (Draws.refl h.ready).sendByte.hears (State.Runs.refl 0).sendByte h.ready
  rw [sendByte_registers b h.ready, h.registers] at k
  exact ⟨e, h.trans k⟩

theorem recvByte : ∃ e, s.Hears t.recvByte (l ++ Strokes.released) (evs ++ e)
    { g with acc := Frame.shiftIn g.acc (Trace.samples e), bitcnt := 8#4 } := by
  obtain ⟨e, k⟩ := recvByte_hears h.ready
  rw [h.registers, h.acc] at k
  exact ⟨e, h.trans k⟩

/-- A byte and its acknowledge. -/
theorem checkpoint {st st' : Stage} {b : Byte} :
    ∃ e, s.Hears (State.ackChk (State.enter st' (State.sendByte b (State.enter st t)))) (l ++ Strokes.acked b) (evs ++ e)
      { g with bitcnt := 8#4 } := by
  obtain ⟨e, sent⟩ := (h.enter (st := st)).sendByte (b := b)
  obtain ⟨f, heard⟩ := (sent.enter (st := st')).stroke (.bit true)
  rw [List.append_assoc, List.append_assoc] at heard
  exact ⟨e ++ f, heard⟩

theorem close {st st' : Stage} :
    ∃ e, s.Hears (State.deselectSeq (State.enter st' (State.stopSeq (State.enter st t)))) (l ++ Strokes.close) (evs ++ e) g := by
  obtain ⟨e, stopped⟩ := (h.enter (st := st)).stroke .stop
  obtain ⟨f, closed⟩ := (stopped.enter (st := st')).stroke .deselect
  rw [List.append_assoc, List.append_assoc] at closed
  exact ⟨e ++ f, closed⟩

/-- Select, start and the first byte with its acknowledge, with which both word operations begin (R180, R183). -/
theorem opened {st st' st'' : Stage} :
    ∃ e, s.Hears (State.ackChk (State.enter st'' (State.sendByte Config.opWrite (State.enter st'
      (State.startSeq (State.enter st (State.selectSeq t))))))) (l ++ Strokes.write1) (evs ++ e) { g with bitcnt := 8#4 } := by
  obtain ⟨e1, selected⟩ := h.stroke .select
  obtain ⟨e2, started⟩ := (selected.enter (st := st)).stroke .start
  obtain ⟨e3, heard⟩ := started.checkpoint (st := st') (st' := st'') (b := Config.opWrite)
  simp only [List.append_assoc] at heard
  exact ⟨e1 ++ (e2 ++ e3), heard⟩

/-! ### Where a sample stands among the events -/

theorem samples_length : (Trace.samples evs).length = Strokes.samples l := by
  rw [Trace.samples, List.length_map, reads_length_of_items h.items]

/-- `SAMPLE` holds the last sample (R30). -/
theorem sample {n : Nat} (hl : Strokes.samples l = n + 1) : t.sample = Trace.sample evs n :=
  h.leaves.sample.trans (getLastD_of_length (h.samples_length.trans hl) _ _)

/-- What comes later does not change which sample has a given number. -/
theorem sample_of_prefix {m n : Nat} (hl : Strokes.samples l = m) (hn : n < m) {all : List Event} (hp : evs <+: all) :
    Trace.sample evs n = Trace.sample all n := by
  obtain ⟨e, rfl⟩ := hp
  rw [Trace.sample, Trace.sample, samples_append, List.getD_append _ _ _ _ (by rwa [h.samples_length, hl])]

/-- The samples that more strokes add. -/
theorem samples_of_append {u : State} {m : List Stroke} {e : List Event} {g' : Registers} (k : s.Hears u (l ++ m) (evs ++ e) g') :
    (Trace.samples e).length = Strokes.samples m := by
  have hlen := k.samples_length
  rw [samples_append, List.length_append, Strokes.samples_append, h.samples_length] at hlen
  omega

end Chain

end State.Hears

/-! ### A word read (R183, R186) -/

/-- The last sample goes to `RDACK` (R32). -/
theorem State.Hears.noteAck {s t : State} {l : List Stroke} {evs : List Event} {g : Registers} (h : s.Hears t l evs g) (k : Nat)
    {n : Nat} (hl : Strokes.samples l = n + 1) :
    s.Hears (t.noteAck k) l evs { g with rdack := Device.note k (Trace.sample evs n) g.rdack } :=
  h.act (.noteAck k) rfl (by
    rw [← h.sample hl, ← h.registers]
    simp only [Act.run, State.noteAck, State.live_of_running h.ready.running, Device.note]
    split <;> rfl)

theorem shiftIn_zero (bs : List Bool) : Frame.shiftIn 0#16 bs = BitVec.ofNat 16 (Frame.number bs) := by
  apply BitVec.eq_of_toNat_eq
  refine (shiftBits_toNat (n := 15) bs 0#16).trans ?_
  simp

/-- The word of a read frame, taken apart as its frame is (R113). -/
theorem word_of_frame {a b c d e : List Bool} (ha : a.length = 27) (hb : b.length = 8) (hc : c.length = 1) (hd : d.length = 8) :
    Frame.word (a ++ b ++ c ++ d ++ e) = Frame.shiftIn (Frame.shiftIn 0#16 b) d := by
  have high : ((a ++ b ++ c ++ d ++ e).drop 27).take 8 = b := by simp [← ha, ← hb]
  have low : ((a ++ b ++ c ++ d ++ e).drop 36).take 8 = d := by
    rw [List.append_assoc, List.drop_left' (by simp [ha, hb, hc]), List.take_left' hd]
  rw [Frame.word, high, low, ← Frame.shiftIn_append, shiftIn_zero]

theorem note_acks (a b c : Bool) (rdack : BitVec 3) :
    Device.note 3 c (Device.note 2 b (Device.note 1 a rdack)) = rdack ||| BitVec.ofNat 3 (a.toNat + 2 * b.toNat + 4 * c.toNat) := by
  revert a b c rdack
  decide

/-- A read frame up to its third acknowledge (R113). -/
theorem turned_counted (i : Index) : Strokes.Counted (Strokes.write2 i ++ [.start] ++ Strokes.acked Config.opRead) 91 27 :=
  ((write2_counted i).append (m := [.start]) ⟨rfl, rfl⟩).append (acked_counted _)

/-- What a read frame makes of the registers, from its samples (R32, R33, R186). -/
def Registers.read (g : Registers) (bs : List Bool) : Registers :=
  { g with acc := Frame.word bs, rdack := g.rdack ||| Frame.acks bs, bitcnt := 8#4 }

/-- A word read hears its frame: the word goes to `ACC` and the missing acknowledges to `RDACK` (R183, R185, R186). -/
theorem State.Hears.readWord {s t : State} {g : Registers} (h : s.Hears t [] [] g) {at_ : RStage → Stage} {i : Index} :
    ∃ e, s.Hears (State.readWord at_ i (State.beginRead at_ t)) (Strokes.readWord i) e (g.read (Trace.samples e)) := by
  have begun : s.Hears (State.beginRead at_ t) [] [] { g with acc := 0#16 } := h.setAcc.enter
  obtain ⟨e1, h1⟩ := begun.opened (st := at_ .start) (st' := at_ .opcodeW) (st'' := at_ .ack1)
  rw [List.nil_append, List.nil_append] at h1
  have l1 := write1_counted.2
  obtain ⟨e2, h2⟩ := (h1.noteAck 1 l1).checkpoint (st := at_ .addr) (st' := at_ .ack2) (b := Operand.addrByte i)
  have l2 := (write2_counted i).2
  obtain ⟨e3, h3⟩ := ((h2.noteAck 2 l2).enter (st := at_ .restart)).stroke .start
  obtain ⟨e4, h4⟩ := h3.checkpoint (st := at_ .opcodeR) (st' := at_ .ack3) (b := Config.opRead)
  have l4 := (turned_counted i).2
  obtain ⟨e5, h5⟩ := ((h4.noteAck 3 l4).enter (st := at_ .rxhi)).recvByte
  obtain ⟨e6, h6⟩ := (h5.enter (st := at_ .mack)).stroke (.bit false)
  obtain ⟨e7, h7⟩ := (h6.enter (st := at_ .rxlo)).recvByte
  obtain ⟨e8, h8⟩ := (h7.enter (st := at_ .mnack)).stroke (.bit true)
  obtain ⟨e9, h9⟩ := h8.close (st := at_ .stop) (st' := at_ .deselect)
  refine ⟨_, h9.leaves, h9.items, h9.lastd, h9.registers.trans ?_⟩
  generalize hall : e1 ++ e2 ++ e3 ++ e4 ++ e5 ++ e6 ++ e7 ++ e8 ++ e9 = all
  have ack1 := h1.sample_of_prefix l1 (Nat.lt_succ_self _) (all := all) (by simp [← hall])
  have ack2 := h2.sample_of_prefix l2 (Nat.lt_succ_self _) (all := all) (by simp [← hall])
  have ack3 := h4.sample_of_prefix l4 (Nat.lt_succ_self _) (all := all) (by simp [← hall])
  have word : Frame.word (Trace.samples all) = Frame.shiftIn (Frame.shiftIn 0#16 (Trace.samples e5)) (Trace.samples e7) := by
    have frame := word_of_frame (e := Trace.samples e8 ++ Trace.samples e9) (h4.samples_length.trans l4)
      (h4.samples_of_append h5) (h5.samples_of_append h6) (h6.samples_of_append h7)
    simpa only [← hall, samples_append, List.append_assoc] using frame
  simp only [ack1, ack2, ack3, note_acks, Registers.read, word]
  rfl

end Sys2Proof.Machine

namespace Sys2Proof.Machine

/-! ### A word write (R180, R182) -/

/-- The first missing acknowledge gives the code (R107, R221). -/
theorem code_of_first {sample : Nat → Bool} {k : Nat} (hk : k ≤ 3) (acked : ∀ j < k, sample (9 * j + 8) = false)
    (nack : sample (9 * k + 8) = true) : Frame.code sample = k + 1 := by
  have first := acked 0
  have second := acked 1
  have third := acked 2
  interval_cases k <;> simp_all [Frame.code]

/-- The code of a write frame without a missing acknowledge. -/
theorem code_of_all {sample : Nat → Bool} (acked : ∀ j < 4, sample (9 * j + 8) = false) : Frame.code sample = 0 := by
  have first := acked 0
  have second := acked 1
  have third := acked 2
  have fourth := acked 3
  simp_all [Frame.code]

/-- At checkpoint `k + 1` of a word write: the checkpoints before it were acknowledged, and `SAMPLE` is to be looked at (R180). -/
structure State.Checks (s t : State) (k : Nat) (l : List Stroke) (evs : List Event) (g : Registers) : Prop where
  hears : s.Hears t l evs g
  samples : Strokes.samples l = 9 * (k + 1)
  acked : ∀ j < k, Trace.sample evs (9 * j + 8) = false

namespace State.Checks

section Chain

variable {s t : State} {k : Nat} {l : List Stroke} {evs : List Event} {g : Registers} (c : s.Checks t k l evs g)
include c

theorem sample : t.sample = Trace.sample evs (9 * k + 8) := c.hears.sample (c.samples.trans (by omega))

/-- An acknowledge: all the checkpoints up to this one are acknowledged. -/
theorem passed (hs : ¬ t.sample = true) : ∀ j < k + 1, Trace.sample evs (9 * j + 8) = false := by
  intro j hj
  rcases Nat.lt_succ_iff_lt_or_eq.1 hj with hj | rfl
  · exact c.acked j hj
  · exact c.sample.symm.trans (Bool.eq_false_iff.2 hs)

/-- On an acknowledge the next byte is sent, up to its checkpoint. -/
theorem next (hs : ¬ t.sample = true) {st st' : Stage} {b : Byte} :
    ∃ e, s.Checks (State.ackChk (State.enter st' (State.sendByte b (State.enter st t)))) (k + 1) (l ++ Strokes.acked b) e
      { g with bitcnt := 8#4 } := by
  obtain ⟨e, heard⟩ := c.hears.checkpoint (st := st) (st' := st') (b := b)
  refine ⟨evs ++ e, heard, ?_, fun j hj => ?_⟩
  · rw [Strokes.samples_append, c.samples, (acked_counted b).2, ← Nat.mul_add_one]
  · rw [← c.hears.sample_of_prefix c.samples (by omega) (List.prefix_append _ _), c.passed hs j hj]

/-- No acknowledge: the checkpoint's number is the code (R107, R221). -/
theorem code_of_nack (hs : t.sample = true) (hk : k ≤ 3) : Frame.code (Trace.sample evs) = k + 1 :=
  code_of_first hk c.acked (c.sample.symm.trans hs)

end Chain

end State.Checks

/-- Strokes without a bit clock add no sample. -/
theorem State.Hears.sample_of_silent {s t u : State} {l m : List Stroke} {evs e : List Event} {g g' : Registers}
    (h : s.Hears t l evs g) (k : s.Hears u (l ++ m) (evs ++ e) g') (hm : Strokes.samples m = 0) :
    Trace.sample (evs ++ e) = Trace.sample evs := by
  have none : Trace.samples e = [] := List.length_eq_zero_iff.1 ((h.samples_of_append k).trans hm)
  funext n
  rw [Trace.sample, samples_append, none, List.append_nil]
  rfl

/-- A word write hears its frame up to the checkpoint that its code names, or to its end (R180). -/
theorem State.Hears.writeWord {s t : State} {g : Registers} (h : s.Hears t [] [] g) {at_ : WStage → Stage} {i : Index}
    {w : Half} :
    ∃ e, (t.writeWord at_ i w).1.toNat = Frame.code (Trace.sample e) ∧
      s.Hears (t.writeWord at_ i w).2 (Strokes.written i w (t.writeWord at_ i w).1.toNat) e { g with bitcnt := 8#4 } := by
  obtain ⟨e1, h1⟩ := h.opened (st := at_ .start) (st' := at_ .opcode) (st'' := at_ .ack1)
  rw [List.nil_append, List.nil_append] at h1
  unfold State.writeWord
  extract_lets s1 s2 s3 s4
  have c1 : s.Checks s1 0 Strokes.write1 e1 { g with bitcnt := 8#4 } := ⟨h1, write1_counted.2, nofun⟩
  have next2 (ack : ¬ s1.sample = true) : ∃ e, s.Checks s2 1 (Strokes.write2 i) e { g with bitcnt := 8#4 } := c1.next ack
  have next3 {e} (c2 : s.Checks s2 1 (Strokes.write2 i) e { g with bitcnt := 8#4 }) (ack : ¬ s2.sample = true) :
      ∃ e, s.Checks s3 2 (Strokes.write3 i w) e { g with bitcnt := 8#4 } := c2.next ack
  have next4 {e} (c3 : s.Checks s3 2 (Strokes.write3 i w) e { g with bitcnt := 8#4 }) (ack : ¬ s3.sample = true) :
      ∃ e, s.Checks s4 3 (Strokes.write4 i w) e { g with bitcnt := 8#4 } := c3.next ack
  clear_value s1 s2 s3 s4
  split
  · next nack => exact ⟨_, (c1.code_of_nack nack (by decide)).symm, c1.hears⟩
  next ack1 =>
  obtain ⟨e2, c2⟩ := next2 ack1
  split
  · next nack => exact ⟨_, (c2.code_of_nack nack (by decide)).symm, c2.hears⟩
  next ack2 =>
  obtain ⟨e3, c3⟩ := next3 c2 ack2
  split
  · next nack => exact ⟨_, (c3.code_of_nack nack (by decide)).symm, c3.hears⟩
  next ack3 =>
  obtain ⟨e4, c4⟩ := next4 c3 ack3
  split
  · next nack => exact ⟨_, (c4.code_of_nack nack (by decide)).symm, c4.hears⟩
  next ack4 =>
  obtain ⟨e5, closed⟩ := c4.hears.close (st := at_ .stop) (st' := at_ .deselect)
  refine ⟨_, ?_, closed⟩
  rw [c4.hears.sample_of_silent closed rfl]
  exact (code_of_all (c4.passed ack4)).symm

theorem State.Hears.abortPath {s t : State} {l : List Stroke} {evs : List Event} {g : Registers} (h : s.Hears t l evs g)
    {at_ : WStage → Stage} {k : BitVec 4} :
    ∃ e, s.Hears (t.abortPath at_ k) (l ++ Strokes.abort t.par k.toNat) (evs ++ e) g := by
  simp only [State.abortPath, Strokes.abort, code_eq_one]
  split
  · exact ⟨[], by simpa using h⟩
  · exact h.close

/-- A word write with the abort path that follows a missing acknowledge (R182). -/
def State.finishWord (at_ : WStage → Stage) (r : BitVec 4 × State) : State :=
  if r.1 = 0#4 then r.2 else State.abortPath at_ r.1 r.2

/-- The strokes of a word write with this code, its abort path counted (R180, R182). -/
def Strokes.writeFrame (p : Params) (i : Index) (w : Half) (k : Nat) : List Stroke :=
  if k = 0 then Strokes.written i w 0 else Strokes.written i w k ++ Strokes.abort p k

/-- A whole word write hears the frame of its code, which is the first missing acknowledge (R180, R182). -/
theorem State.Hears.finishWord {s t : State} {g : Registers} (h : s.Hears t [] [] g) {at_ : WStage → Stage} {i : Index}
    {w : Half} :
    ∃ e, (t.writeWord at_ i w).1.toNat = Frame.code (Trace.sample e) ∧
      s.Hears (State.finishWord at_ (t.writeWord at_ i w)) (Strokes.writeFrame t.par i w (Frame.code (Trace.sample e))) e
        { g with bitcnt := 8#4 } := by
  obtain ⟨e, code, word⟩ := h.writeWord (at_ := at_) (i := i) (w := w)
  have hpar := writeWord_par at_ i w t
  generalize t.writeWord at_ i w = r at code word hpar
  unfold State.finishWord
  split
  · next good =>
    rw [good] at code word
    exact ⟨e, good ▸ code, by rw [← code]; exact word⟩
  · next bad =>
    obtain ⟨f, aborted⟩ := word.abortPath (at_ := at_) (k := r.1)
    have silent : Strokes.samples (Strokes.abort r.2.par r.1.toNat) = 0 := by
      unfold Strokes.abort
      split <;> rfl
    rw [← word.sample_of_silent aborted silent] at code
    rw [hpar] at aborted
    refine ⟨e ++ f, code, ?_⟩
    rw [← code, Strokes.writeFrame, if_neg (Nat.one_le_iff_ne_zero.1 (code_pos bad))]
    exact aborted

/-! ### Strokes as the frames on the line (R111 to R113) -/

theorem items_acked (d : Bool) (b : Byte) :
    Strokes.items d (Strokes.acked b) = Frame.byte d b ++ Frame.bit true (b.getLsbD 0) := by
  rw [Strokes.acked, Strokes.items_append, Strokes.byte, Strokes.items_bits, Strokes.data_bits]
  exact congrArg _ (List.append_nil _)

@[simp] theorem data_acked (d : Bool) (b : Byte) : Strokes.data d (Strokes.acked b) = true := by
  rw [Strokes.acked, Strokes.data_append]
  rfl

theorem items_close : Strokes.items true Strokes.close = Frame.close := rfl

theorem items_write1 (d : Bool) : Strokes.items d Strokes.write1 = Frame.write1 := by
  rw [Strokes.write1, Strokes.items_append, items_acked]
  rfl

theorem items_write2 (d : Bool) (i : Index) : Strokes.items d (Strokes.write2 i) = Frame.write2 i := by
  rw [Strokes.write2, Strokes.items_append, items_write1, items_acked, addrByte_eq, Frame.write2, List.append_assoc]
  rfl

theorem items_write3 (d : Bool) (i : Index) (w : Half) : Strokes.items d (Strokes.write3 i w) = Frame.write3 i w := by
  rw [Strokes.write3, Strokes.items_append, items_write2, items_acked, hiByte_eq, Frame.write3, List.append_assoc]
  rfl

theorem items_write4 (d : Bool) (i : Index) (w : Half) : Strokes.items d (Strokes.write4 i w) = Frame.write4 i w := by
  rw [Strokes.write4, Strokes.items_append, items_write3, items_acked, loByte_eq, Frame.write4, List.append_assoc]
  rfl

theorem items_readWord (d : Bool) (i : Index) : Strokes.items d (Strokes.readWord i) = Frame.read i := by
  have data2 : Strokes.data d (Strokes.write2 i) = true := by rw [Strokes.write2, Strokes.data_append, data_acked]
  simp only [Strokes.readWord, Strokes.items_append, Strokes.data_append, items_write2, items_acked, data2, data_acked,
    Strokes.released, Strokes.items_bits, Strokes.data_bits]
  rfl

/-- After an acknowledge the line is closed with the data bit high (R112, R182). -/
theorem items_acked_close (d : Bool) (l : List Stroke) (b : Byte) :
    Strokes.items d (l ++ Strokes.acked b ++ Strokes.close) = Strokes.items d (l ++ Strokes.acked b) ++ Frame.close := by
  rw [Strokes.items_append, Strokes.data_append, data_acked, items_close]

/-- The strokes of a word write are the frame that its samples ask for (R112, R182). -/
theorem items_writeFrame (d : Bool) (p : Params) (i : Index) (w : Half) (sample : Nat → Bool) :
    Strokes.items d (Strokes.writeFrame p i w (Frame.code sample)) = Frame.write p i w sample := by
  have closed {l : List Stroke} {b : Byte} {f : List Item} (h : Strokes.items d (l ++ Strokes.acked b) = f) :
      Strokes.items d (l ++ Strokes.acked b ++ Strokes.close) = f ++ Frame.close := by rw [items_acked_close, h]
  unfold Frame.code Frame.write
  split
  · rw [Strokes.writeFrame, if_neg one_ne_zero, Strokes.abort]
    cases p.ack1Cleanup
    · exact (congrArg _ (List.append_nil _)).trans (items_write1 d)
    · exact closed (items_write1 d)
  split
  · exact closed (items_write2 d i)
  split
  · exact closed (items_write3 d i w)
  split
  · exact closed (items_write4 d i w)
  · exact closed (items_write4 d i w)

end Sys2Proof.Machine

namespace Sys2Proof.Machine

/-! ### What strokes leave on the line (R22, R188) -/

/-- The value a stroke leaves on the line. -/
def Stroke.left : Stroke → Half
  | .select | .stop => 0x0038#16
  | .deselect => 0x0000#16
  | .start => 0x0030#16
  | .bit dbs => Frame.high dbs

theorem Stroke.values_getLast (d : Bool) (x : Stroke) : (x.values d).getLast? = some x.left := by cases x <;> rfl

theorem Strokes.values_getLast (d : Bool) (l : List Stroke) (x : Stroke) :
    (Strokes.values d (l ++ [x])).getLast? = some x.left := by
  induction l generalizing d with
  | nil => rw [List.nil_append, Strokes.values, Strokes.values, List.append_nil, x.values_getLast]
  | cons y l ih => rw [List.cons_append, Strokes.values, List.getLast?_append, ih]; rfl

/-- The last stroke of the last events tells the line. -/
theorem State.Leaves.lineLeft_of_items {s t : State} {before evs : List Event} {d : Bool} {l : List Stroke} {x : Stroke}
    (h : s.Leaves t (before ++ evs)) (items : Trace.items evs = Strokes.items d l) (hx : l.getLast? = some x) :
    s.lineLeft t x.left := by
  obtain ⟨l, rfl⟩ := List.getLast?_eq_some_iff.1 hx
  refine h.lineLeft ?_ ?_
  · rw [writes_append, writes_of_items items, List.getLast?_append, Strokes.values_getLast]
    rfl
  · have stroke : x.writes ≠ 0 := by cases x <;> exact nofun
    rw [delays_append, delays_of_items items, Strokes.writes_append]
    simp only [Strokes.writes, List.map_cons, List.map_nil, List.sum_cons, List.sum_nil]
    omega

/-- A word read ends deselected (R188). -/
theorem State.Leaves.lineLeft_of_read {s t : State} {before evs : List Event} {d : Bool} {i : Index}
    (h : s.Leaves t (before ++ evs)) (items : Trace.items evs = Strokes.items d (Strokes.readWord i)) : s.lineLeft t 0x0000#16 :=
  h.lineLeft_of_items (x := .deselect) items (by rw [Strokes.readWord, List.getLast?_append]; rfl)

/-- A word write ends deselected, but for the defect (R182, R228). -/
theorem writeFrame_getLast (p : Params) (i : Index) (w : Half) (k : Nat) :
    (Strokes.writeFrame p i w k).getLast? = some (if k = 1 ∧ p.ack1Cleanup = false then .bit true else .deselect) := by
  unfold Strokes.writeFrame Strokes.abort
  split
  · next h0 =>
    rw [h0, Strokes.written, List.getLast?_append]
    rfl
  split
  · next hdefect =>
    obtain ⟨rfl, -⟩ := hdefect
    rw [List.append_nil, Strokes.written, Strokes.write1, Strokes.acked, ← List.append_assoc, List.getLast?_concat]
  · rw [List.getLast?_append]
    rfl

/-- What a word write leaves on the line, by its code (R188). -/
def Frame.left (p : Params) (k : Nat) : Half := if k = 1 ∧ p.ack1Cleanup = false then 0x0038#16 else 0x0000#16

theorem State.Leaves.lineLeft_of_write {s t : State} {before evs : List Event} {d : Bool} {p : Params} {i : Index} {w : Half}
    {k : Nat} (h : s.Leaves t (before ++ evs)) (items : Trace.items evs = Strokes.items d (Strokes.writeFrame p i w k)) :
    s.lineLeft t (Frame.left p k) := by
  have left := h.lineLeft_of_items items (writeFrame_getLast p i w k)
  rwa [apply_ite Stroke.left] at left

/-! ### `RDWORD` and `WRWORD` (R180, R183) -/

theorem launch_hears {s : State} (hs : s.ready) (st : Stage) :
    s.Hears (State.launch st s) [] [] { s.registers with rdack := 0#3 } :=
  (State.Hears.refl hs).act (.launch st) rfl (by simp [Act.run, launch_of_running hs.running, State.registers])

theorem complete_answers {a : State} (h : a.ready) (status : BitVec 4) (rdata : Half) :
    (State.complete status rdata a).completed a.rdack.toNat status.toNat rdata.toNat := by
  rw [complete_of_running h.running]
  exact ⟨rfl, rfl, response_eq _ _ _, by simp⟩

/-- `RDWORD` as its chain: the read frame, and what it makes of the registers. -/
theorem rdword_hears {i : Index} {s t : State} (hs : s.ready) (h : exec (.rdword i) s = .next t) :
    ∃ evs, s.Hears t (Strokes.readWord i) evs (Registers.read { s.registers with rdack := 0#3 } (Trace.samples evs)) ∧
      t.completed (Frame.acks (Trace.samples evs)).toNat 0 (Frame.word (Trace.samples evs)).toNat := by
  obtain rfl := Host.Outcome.next.inj h
  obtain ⟨evs, read⟩ := (launch_hears hs (.read .select)).readWord (at_ := .read) (i := i)
  refine ⟨evs, read.complete, ?_⟩
  have answers := complete_answers read.ready 0#4 (Frame.word (Trace.samples evs))
  rw [read.rdack, Registers.read, BitVec.zero_or] at answers
  rwa [read.acc]

/-- Settles O24: the chain of the read frame tells the events and where their samples go. -/
theorem rdwordResult : Obligations.RdwordResult := by
  refine ⟨fun w h => index_a w ▸ decode_of_op h, fun i s hs => ?_⟩
  obtain ⟨t, hexec⟩ := exec_next (.rdword i) s
  obtain ⟨evs, hears, completed⟩ := rdword_hears hs hexec
  exact ⟨t, evs, hexec, hears.leaves.ran, hears.items.trans (items_readWord _ i), hears.acc, completed,
    hears.leaves.lineLeft_of_read (before := []) hears.items, exec_untouched hs hexec, hears.widx, hears.wword,
    exec_bufKept hexec nofun, oneTargetOnly _ s t hexec⟩

/-- `WRWORD` completes after its word, with the code for its status (R180, R227). -/
theorem exec_wrword_eq (i : Index) (w : Half) (s : State) :
    exec (.wrword i w) s = .next (State.complete (State.writeWord .word i w (State.launch (.word .select) s)).1 0#16
      (State.finishWord .word (State.writeWord .word i w (State.launch (.word .select) s)))) := by
  simp only [exec, execWrword, State.finishWord]
  split
  · next good => rw [good]
  · rfl

/-- `WRWORD` as its chain: the write frame that its samples ask for, with their code for the status. -/
theorem wrword_hears {i : Index} {w : Half} {s t : State} (hs : s.ready) (h : exec (.wrword i w) s = .next t) :
    ∃ evs, s.Hears t (Strokes.writeFrame s.par i w (Frame.code (Trace.sample evs))) evs
        { s.registers with rdack := 0#3, bitcnt := 8#4 } ∧
      t.completed 0 (Frame.code (Trace.sample evs)) 0 := by
  obtain ⟨evs, code, word⟩ := (launch_hears hs (.word .select)).finishWord (at_ := .word) (i := i) (w := w)
  rw [exec_wrword_eq] at h
  generalize State.writeWord .word i w (State.launch (.word .select) s) = r at h code word
  obtain rfl := Host.Outcome.next.inj h
  have answers := complete_completed word.ready word.rdack r.1 0#16
  rw [launch_par] at word
  rw [code] at answers
  exact ⟨evs, word.complete, answers⟩

/-- Settles O25: the chain of the write frame as far as its first missing acknowledge, and the abort path after it. -/
theorem wrwordResult : Obligations.WrwordResult := by
  refine ⟨fun w h => index_a w ▸ decode_of_op h, fun i w s hs => ?_⟩
  obtain ⟨t, hexec⟩ := exec_next (.wrword i w) s
  obtain ⟨evs, hears, completed⟩ := wrword_hears hs hexec
  exact ⟨t, evs, hexec, hears.leaves.ran, hears.items.trans (items_writeFrame _ _ _ _ _), completed,
    hears.leaves.lineLeft_of_write (before := []) hears.items, exec_untouched hs hexec,
    ⟨hears.acc, hears.widx, hears.wword⟩, exec_bufKept hexec nofun,
    oneTargetOnly _ s t hexec⟩

theorem code_le_four (sample : Nat → Bool) : Frame.code sample ≤ 4 := by
  unfold Frame.code
  split_ifs <;> decide

/-- Settles O26: the line and `BITCNT` as the results of the two word operations leave them. -/
theorem wordOperationExitState : Obligations.WordOperationExitState := by
  intro i s t hs hexec
  constructor
  · rintro ⟨k, rfl⟩
    obtain ⟨evs, hears, -⟩ := rdword_hears hs hexec
    obtain ⟨line, -⟩ := hears.leaves.lineLeft_of_read (before := []) hears.items
    exact ⟨line, hears.bitcnt⟩
  · rintro k w rfl
    obtain ⟨evs, hears, -, -, hrsp, -⟩ := wrword_hears hs hexec
    obtain ⟨line, -⟩ := hears.leaves.lineLeft_of_write (before := []) hears.items
    refine ⟨hears.bitcnt, ?_⟩
    rw [line, hrsp, rsp_eq_one (code_le_four _), Frame.left]
    split
    · next defect => exact iff_of_false (by decide) (not_not_intro defect)
    · next deselected => exact iff_of_true rfl deselected

end Sys2Proof.Machine

namespace Sys2Proof.Machine

/-! ### The words of `RDALL` (R200, R204) -/

/-- A word of `RDALL` reads its frame, and the word goes to its entry of `BUF` (R200). -/
theorem rdallWord_hears {s : State} (h : s.ready) :
    ∃ e, s.Hears s.rdallWord (Strokes.readWord (Operand.slot s.widx)) e
      { s.registers.read (Trace.samples e) with
        widx := s.widx + 1#8
        buf := Table.put (Operand.slot s.widx).toNat (Frame.word (Trace.samples e)) s.buf } := by
  obtain ⟨e, read⟩ := (State.Hears.refl h).readWord (at_ := .aWord (Operand.slot s.widx)) (i := Operand.slot s.widx)
  refine ⟨e, ?_⟩
  rw [State.rdallWord, read.acc]
  exact read.bufWrite.countWord

/-- The missing acknowledges that `RDALL` has recorded after these words (R32, R200). -/
def Frame.record (words : List (List Event)) : Nat :=
  words.foldl (fun a evs => a ||| (Frame.acks (Trace.samples evs)).toNat) 0

/-- From `s` to `t`, inside `RDALL`, these words were read and stored (R200). -/
structure State.Loads (s t : State) (words : List (List Event)) : Prop where
  leaves : s.Leaves t words.flatten
  widx : t.widx.toNat = words.length
  wword : t.wword = s.wword
  rdack : t.rdack.toNat = Frame.record words
  entries : ∀ (k : Index) (evs : List Event), words[k.toNat]? = some evs →
    Trace.items evs = Frame.read k ∧ Table.get k.toNat t.buf = some (Frame.word (Trace.samples evs))
  others : ∀ k, words.length ≤ k → Table.get k t.buf = Table.get k s.buf
  last : words ≠ [] → t.bitcnt = 8#4 ∧ s.lineLeft t 0x0000#16 ∧ Table.get (words.length - 1) t.buf = some t.acc

theorem State.Loads.word {s t : State} {words : List (List Event)} (h : s.Loads t words) (hlen : words.length < 128) :
    ∃ e, s.Loads t.rdallWord (words ++ [e]) := by
  obtain ⟨e, hears⟩ := rdallWord_hears h.leaves.ready
  have hslot : (Operand.slot t.widx).toNat = words.length := by rw [slot_toNat (by rw [h.widx]; omega), h.widx]
  have leaves := h.leaves.trans hears.leaves
  have hbuf := hears.buf
  rw [hslot] at hbuf
  refine ⟨e, by simpa using leaves, ?_, hears.wword.trans h.wword, ?_, fun k evs hk => ?_, fun k hk => ?_, fun _ => ?_⟩
  · rw [hears.widx, BitVec.toNat_add, h.widx, List.length_append]
    simp
    omega
  · rw [hears.rdack, Frame.record, List.foldl_append]
    exact (BitVec.toNat_or _ _).trans (by rw [State.registers, h.rdack]; rfl)
  · rw [hbuf]
    rcases Nat.lt_trichotomy k.toNat words.length with hlt | heq | hgt
    · rw [List.getElem?_append_left hlt] at hk
      rw [Table.get_put_other (by omega)]
      exact h.entries k evs hk
    · rw [heq, List.getElem?_concat_length, Option.some_inj] at hk
      subst hk
      rw [heq, Table.get_put_self, BitVec.eq_of_toNat_eq (heq.trans hslot.symm)]
      exact ⟨hears.items.trans (items_readWord _ _), rfl⟩
    · rw [List.getElem?_eq_none (by simp; omega)] at hk
      cases hk
  · rw [List.length_append, List.length_singleton] at hk
    rw [hbuf, Table.get_put_other (by omega), h.others k (by omega)]
  · refine ⟨hears.bitcnt, leaves.lineLeft_of_read hears.items, ?_⟩
    rw [hbuf, List.length_append, List.length_singleton, Nat.add_sub_cancel, Table.get_put_self, hears.acc]
    rfl

/-- The words that are left of `RDALL` are read and stored after those before them. -/
theorem State.Loads.words {s t : State} {n : Nat} {words : List (List Event)} (h : s.Loads t words)
    (hlen : words.length + n = 128) :
    ∃ all, all.length = 128 ∧ s.Loads (t.rdallWords n) all := by
  induction n generalizing t words with
  | zero => exact ⟨words, hlen, h⟩
  | succ n ih =>
    obtain ⟨e, next⟩ := h.word (by omega)
    exact ih next (by rw [List.length_append, List.length_singleton]; omega)

theorem complete_lineLeft {s a : State} {status : BitVec 4} {rdata v : Half} :
    s.lineLeft (State.complete status rdata a) v ↔ s.lineLeft a v := by
  simp [State.lineLeft, moduleAt_congr (complete_modules status rdata a)]

/-- Settles O27: word after word is read and stored, and the completion keeps what the last one leaves. -/
theorem rdallResult : Obligations.RdallResult := by
  refine ⟨fun w h => decode_of_op h, fun s hs => ?_⟩
  have begun := (launch_hears hs (.aWord 0#7 .select)).setWidx (v := 0#8)
  have started : s.Loads _ [] := ⟨begun.leaves, congrArg BitVec.toNat begun.widx, begun.wword, congrArg BitVec.toNat begun.rdack,
    nofun, fun k _ => congrArg (Table.get k) begun.buf, fun h => absurd rfl h⟩
  obtain ⟨words, hlen, loads⟩ := started.words (n := 128) rfl
  have hexec : exec .rdall s = .next (State.complete 0#4 0#16
    (State.rdallWords 128 (State.setWidx 0#8 (State.launch (.aWord 0#7 .select) s)))) := rfl
  generalize State.rdallWords 128 (State.setWidx 0#8 (State.launch (.aWord 0#7 .select) s)) = u at loads hexec
  have answers := complete_answers loads.leaves.ready 0#4 0#16
  rw [loads.rdack] at answers
  obtain ⟨hbitcnt, hline, hacc⟩ := loads.last (by rintro rfl; cases hlen)
  rw [hlen] at hacc
  refine ⟨_, words, hexec, hlen, ?_, fun k evs hk => ?_, answers, ?_, ?_, ?_, ?_, fun k hk => ?_, exec_untouched hs hexec, ?_,
    oneTargetOnly _ s _ hexec⟩
  · simpa [State.ran] using loads.leaves.ran
  · simpa using loads.entries k evs hk
  · simpa using hacc
  · simpa using hbitcnt
  · exact BitVec.eq_of_toNat_eq (by simpa [hlen] using loads.widx)
  · exact complete_lineLeft.2 hline
  · simpa using loads.others k (hlen ▸ hk)
  · simpa using loads.wword

end Sys2Proof.Machine

namespace Sys2Proof.Machine

/-! ### The words of `WRALL` (R201, R204) -/

/-- A word of `WRALL` is a whole word write of what its entry of `BUF` reads as (R76, R201). -/
theorem wrallWord_hears {s : State} (h : s.ready) :
    ∃ e, s.wrallWord.1.toNat = Frame.code (Trace.sample e) ∧
      s.Hears (State.finishWord (.bWord (Operand.slot s.widx)) s.wrallWord)
        (Strokes.writeFrame s.par (Operand.slot s.widx) (s.bufValue (Operand.slot s.widx)) (Frame.code (Trace.sample e))) e
        { s.registers with bitcnt := 8#4, wword := s.bufValue (Operand.slot s.widx) } := by
  have begun : s.Hears s.beginWrite [] [] { s.registers with wword := s.bufValue (Operand.slot s.widx) } :=
    (State.Hears.refl h).setWword.bufTouch.enter
  have hpar : s.beginWrite.par = s.par := by simp [State.beginWrite]
  have word := begun.finishWord (at_ := .bWord (Operand.slot s.widx)) (i := Operand.slot s.widx) (w := s.beginWrite.wword)
  rw [begun.wword, hpar] at word
  rw [State.wrallWord, begun.wword]
  exact word

/-- From `s` to `t`, inside `WRALL`, these words of the buffer were written, all but the last one without a missing acknowledge
(R201). -/
structure State.Stores (s t : State) (words : List (Half × List Event)) : Prop where
  leaves : s.Leaves t (words.map (·.2)).flatten
  par : t.par = s.par
  acc : t.acc = s.acc
  rdack : t.rdack = 0#3
  buf : t.buf = s.buf
  entries : ∀ (k : Index) (w : Half) (evs : List Event), words[k.toNat]? = some (w, evs) →
    Trace.items evs = Frame.write s.par k w (Trace.sample evs) ∧
    (∀ v, Table.get k.toNat s.buf = some v → w = v) ∧
    (k.toNat + 1 < words.length → Frame.code (Trace.sample evs) = 0)
  last : ∀ x, words.getLast? = some x → t.bitcnt = 8#4 ∧ ∃ k, Trace.items x.2 = Frame.write s.par k x.1 (Trace.sample x.2)

/-- One more word, when all before it are acknowledged. -/
theorem State.Stores.word {s t u : State} {words : List (Half × List Event)} {e : List Event} {x : BitVec 8}
    (h : s.Stores t words) (acked : ∀ y ∈ words, Frame.code (Trace.sample y.2) = 0)
    (hslot : (Operand.slot t.widx).toNat = words.length)
    (hears : t.Hears u (Strokes.writeFrame s.par (Operand.slot t.widx) (t.bufValue (Operand.slot t.widx))
      (Frame.code (Trace.sample e))) e
      { t.registers with bitcnt := 8#4, widx := x, wword := t.bufValue (Operand.slot t.widx) }) (hpar : u.par = t.par) :
    s.Stores u (words ++ [(t.bufValue (Operand.slot t.widx), e)]) := by
  have items := hears.items.trans (items_writeFrame _ _ _ _ _)
  refine ⟨by simpa using h.leaves.trans hears.leaves, hpar.trans h.par, hears.acc.trans h.acc, hears.rdack.trans h.rdack,
    hears.buf.trans h.buf, fun k w evs hk => ?_, fun y hy => ?_⟩
  · rcases Nat.lt_trichotomy k.toNat words.length with hlt | heq | hgt
    · rw [List.getElem?_append_left hlt] at hk
      obtain ⟨hitems, hword, -⟩ := h.entries k w evs hk
      exact ⟨hitems, hword, fun _ => acked _ (List.mem_of_getElem? hk)⟩
    · rw [heq, List.getElem?_concat_length, Option.some_inj, Prod.mk.injEq] at hk
      obtain ⟨rfl, rfl⟩ := hk
      obtain rfl := BitVec.eq_of_toNat_eq (heq.trans hslot.symm)
      refine ⟨items, fun v hv => ?_, fun hlt => ?_⟩
      · exact bufValue_of_written (h.buf ▸ hv)
      · rw [List.length_append, List.length_singleton] at hlt
        omega
    · rw [List.getElem?_eq_none (by simp; omega)] at hk
      cases hk
  · rw [List.getLast?_concat, Option.some_inj] at hy
    subst hy
    exact ⟨hears.bitcnt, _, items⟩

theorem State.Stores.complete {s t : State} {words : List (Half × List Event)} (h : s.Stores t words) (status : BitVec 4)
    (rdata : Half) : s.Stores (State.complete status rdata t) words where
  leaves := by simpa using h.leaves.trans ((State.Hears.refl h.leaves.ready).complete (status := status) (rdata := rdata)).leaves
  par := (complete_par _ _ _).trans h.par
  acc := (complete_acc _ _ _).trans h.acc
  rdack := (complete_rdack _ _ _).trans h.rdack
  buf := (complete_buf _ _ _).trans h.buf
  entries := h.entries
  last := by simpa using h.last

theorem finishWord_par (at_ : WStage → Stage) (r : BitVec 4 × State) : (State.finishWord at_ r).par = r.2.par := by
  have run : r.2.Runs True 0 (State.abortPath at_ r.1 r.2) := (State.Runs.refl 0).abortPath
  unfold State.finishWord
  split
  · rfl
  · exact run.par

/-- What `WRALL` answers at `t` after `n` words, the last of them with this code (R201, R204). -/
def State.AnswersWrall (t : State) (n code : Nat) : Prop :=
  if code = 0 then n = 128 ∧ t.completed 0 0 0 ∧ t.widx = 128#8
  else t.completed 0 1 (256 * (n - 1) + code) ∧ t.widx.toNat = n - 1

/-- The words that are left of `WRALL`, when those before them are acknowledged: up to the first that is not, or all. -/
theorem State.Stores.words {s t : State} {n : Nat} {words : List (Half × List Event)} (h : s.Stores t words)
    (acked : ∀ y ∈ words, Frame.code (Trace.sample y.2) = 0) (hwidx : t.widx.toNat = words.length)
    (hlen : words.length + n = 128) :
    ∃ all x, s.Stores (t.wrallWords n) all ∧ all.length ≤ 128 ∧ all.getLast? = some x ∧
      (t.wrallWords n).AnswersWrall all.length (Frame.code (Trace.sample x.2)) := by
  induction n generalizing t words with
  | zero =>
    have hne : words ≠ [] := by rintro rfl; cases hlen
    refine ⟨words, words.getLast hne, h.complete _ _, hlen.le, List.getLast?_eq_some_getLast hne, ?_⟩
    rw [State.AnswersWrall, if_pos (acked _ (List.getLast_mem hne))]
    exact ⟨hlen, complete_completed h.leaves.ready h.rdack 0#4 0#16,
      (complete_widx _ _ _).trans (BitVec.eq_of_toNat_eq (hwidx.trans hlen))⟩
  | succ n ih =>
    have hslot : (Operand.slot t.widx).toNat = words.length := by rw [slot_toNat (by omega), hwidx]
    obtain ⟨-, hpar, -⟩ := wrallWord_kept t
    obtain ⟨e, code, word⟩ := wrallWord_hears h.leaves.ready
    rw [h.par] at word
    rw [wrallWords_succ]
    generalize t.wrallWord = r at hpar code word ⊢
    split
    · next good =>
      rw [State.finishWord, if_pos good] at word
      refine ih (h.word acked hslot word.countWord (by simpa [State.countWord] using hpar)) (fun y hy => ?_) ?_ ?_
      · rcases List.mem_append.1 hy with hy | hy
        · exact acked y hy
        · rw [List.mem_singleton.1 hy, ← code, good]
          rfl
      · rw [word.countWord.widx, List.length_append, List.length_singleton]
        exact (succ_toNat (x := t.widx) (n := n) (by omega) (by omega)).trans (by omega)
      · rw [List.length_append, List.length_singleton]
        omega
    · next bad =>
      have raised (rdata : Half) : State.raiseNoAck (.bWord (Operand.slot t.widx)) r.1 1#4 rdata r.2 =
          State.complete 1#4 rdata (State.finishWord (.bWord (Operand.slot t.widx)) r) := by
        rw [State.raiseNoAck, State.finishWord, if_neg bad]
      have stores := h.word acked hslot word ((finishWord_par _ r).trans hpar)
      rw [raised]
      refine ⟨_, _, stores.complete _ _, by simp; omega, List.getLast?_concat, ?_⟩
      have answers := complete_completed stores.leaves.ready stores.rdack 1#4 (Operand.failure (Operand.slot t.widx) r.1)
      rw [failure_toNat, hslot, code] at answers
      rw [State.AnswersWrall, if_neg (by rw [← code]; exact Nat.one_le_iff_ne_zero.1 (code_pos bad)), List.length_append,
        List.length_singleton, Nat.add_sub_cancel]
      exact ⟨answers, by rw [complete_widx, word.widx]; exact hwidx⟩

/-- Settles O28: word after word is written until one misses an acknowledge, and the last one leaves the line. -/
theorem wrallResult : Obligations.WrallResult := by
  refine ⟨fun w h => decode_of_op h, fun s hs => ?_⟩
  have begun := (launch_hears hs (.bWord 0#7 .select)).setWidx (v := 0#8)
  have started : s.Stores _ [] := ⟨begun.leaves, by simp, begun.acc, begun.rdack, begun.buf, nofun, nofun⟩
  have hexec : exec .wrall s = .next
    (State.wrallWords 128 (State.setWidx 0#8 (State.launch (.bWord 0#7 .select) s))) := rfl
  obtain ⟨words, x, stores, hlen, hlast, answers⟩ := started.words (n := 128) nofun (congrArg BitVec.toNat begun.widx) rfl
  generalize State.wrallWords 128 (State.setWidx 0#8 (State.launch (.bWord 0#7 .select) s)) = t at stores answers hexec
  obtain ⟨hbitcnt, k, items⟩ := stores.last x hlast
  refine ⟨t, words, hexec, stores.leaves.ran, hlen, stores.entries, ⟨x, hlast, answers, ?_⟩, hbitcnt, exec_untouched hs hexec,
    stores.acc, exec_bufKept hexec nofun, oneTargetOnly _ s t hexec⟩
  obtain ⟨before, rfl⟩ := List.getLast?_eq_some_iff.1 hlast
  have leaves : s.Leaves t ((before.map (·.2)).flatten ++ x.2) := by simpa using stores.leaves
  exact leaves.lineLeft_of_write (items.trans (items_writeFrame false _ _ _ _).symm)

end Sys2Proof.Machine

namespace Sys2Proof.Machine

/-! ### The buffer commands (R202, R203) -/

/-- Settles O15: the table that `BUFWR` leaves has the word under its index and is the old one elsewhere. -/
theorem bufwrResult : Obligations.BufwrResult :=
  ⟨fun w h => index_a w ▸ decode_of_op h,
    fun _ _ _ hs => ⟨_, exec_bufwr hs, rfl, Table.get_put_self _ _ _, fun _ hk => Table.get_put_other hk _ _⟩⟩

/-- Settles O13: `INDEX` is the low part of `A`, and a running state answers the written entry. -/
theorem bufrdResult : Obligations.BufrdResult :=
  ⟨fun w h => index_a w ▸ decode_of_op h, fun _ _ _ hs hv => exec_bufrd hs hv⟩

end Sys2Proof.Machine

namespace Sys2Proof.Machine

/-! ### The reserved codes (R114, R224), and the block at rest (R237, R251) -/

/-- An illegal command in any running state (R224): the response is the status alone, `RDACK` being cleared at the launch. -/
theorem illegal_of_running {s : State} (h : s.blocked = false) :
    State.illegal s = { s with busy := false, seq := .idle, rdack := 0#3, rsp := 0x000F0000#32 } := by
  have launched : (State.launch (.prim .illegal) s).blocked = false := by simpa [State.blocked] using h
  rw [State.illegal, complete_of_running launched, launch_of_running h, response_eq]
  rfl

/-- Settles O17: `OP` alone tells the three codes, and each of them runs the one illegal command. -/
theorem reservedCodes : Obligations.ReservedCodes := by
  refine ⟨fun w => ⟨decode_of_op, decode_of_op, decode_of_op⟩, fun i s hi hs => ?_⟩
  have hexec : exec i s = .next (State.illegal s) := by rcases hi with rfl | rfl | rfl <;> rfl
  rw [hexec, illegal_of_running hs]

/-- Settles O10: no reset is due, nothing runs, and there is no request to take. -/
theorem idleDoesNothing : Obligations.IdleDoesNothing := by
  intro s hbusy hscript hrst
  have hdue : s.resetDue = false := by simp [State.resetDue, hrst]
  simp [step, hdue, hbusy, hscript]

end Sys2Proof.Machine

namespace Sys2Proof.Machine

/-! ### A command with a reset to come, beside the same command with none (R253)

The two runs do the same until the reset stops one of them; from there its operations are void. What they decide by is then no
longer the same, so the relation asks for that only while both run. -/

/-- The state with `rst` to rise after `m` more events (R250). -/
def State.resetIn (m : Nat) (s : State) : State := { s with rst := some m }

/-- From `s` to the ready state `u` the events `evs` took place, at the target of `s`. -/
structure State.Went (s u : State) (evs : List Event) : Prop where
  ready : u.ready
  base : u.base = s.base
  ran : s.ran u evs

/-- The command from `s` at `u`, with no reset to come, and at `t`, with one to come after `n` events: either it is still to
come, and `t` is `u` in all else, or it stopped `t` after the first `n` events, with no response. `Q` is what is known of `u`
in the first case. -/
inductive State.Heeds (s : State) (n : Nat) (Q : State → Prop) (u : State) : State → Prop
  | ahead {evs : List Event} (went : s.Went u evs) (hlt : evs.length < n) (hQ : Q u) :
      State.Heeds s n Q u (u.resetIn (n - evs.length))
  | stopped {evs : List Event} {t : State} (went : s.Went u evs) (hle : n ≤ evs.length) (cut : s.ran t (evs.take n))
      (rst : t.rst = some 0) (rsp : t.rsp = s.rsp) : State.Heeds s n Q u t

/-- The command is complete (R141). -/
def State.done (s : State) : Prop := s.busy = false ∧ s.seq = .idle

/-- The two runs of a command from `s` that has not written its response. -/
def State.InStep (s : State) (n : Nat) : State → State → Prop := State.Heeds s n (·.rsp = s.rsp)

theorem blocked_of_rst {t : State} (h : t.rst = some 0) : t.blocked = true := by simp [State.blocked, h]

theorem resetIn_running {s : State} (h : s.ready) {m : Nat} (hm : 0 < m) : (s.resetIn m).blocked = false := by
  simp [State.blocked, State.resetIn, h.1.1, Nat.ne_of_gt hm]

/-- A stopped sequence stays where it is (R74, R253). -/
theorem State.Runs.of_blocked {s t : State} {k : Nat} (runs : s.Runs True k t) (h : s.blocked = true) : t = s :=
  (eq_kept h).runs runs rfl

theorem State.Went.runs {buf : Prop} {k : Nat} {s u v : State} {evs : List Event} (h : s.Went u evs) (runs : u.Runs buf k v) :
    ∃ more, s.Went v (evs ++ more) := by
  obtain ⟨ready, more, ran, _⟩ := runs.writes_le_delays h.ready
  exact ⟨more, ready, runs.base.trans h.base, h.ran.trans ran h.base⟩

/-! ### One operation -/

section ResetIn

variable {s : State} (h : s.ready) {m : Nat}
include h

theorem live_resetIn {f : State → State} {k : Nat} (hm : 0 < m) (hf : f (s.resetIn m) = (f s).resetIn k) :
    State.live f (s.resetIn m) = (State.live f s).resetIn k := by
  rw [State.live_of_running (resetIn_running h hm), State.live_of_running h.running, hf]

theorem lineWrite_resetIn (v : Half) : State.lineWrite v (s.resetIn (m + 1)) = (State.lineWrite v s).resetIn m := by
  refine live_resetIn h m.succ_pos ?_
  have hmodule : (s.resetIn (m + 1)).moduleAt (s.resetIn (m + 1)).base = s.moduleAt s.base := rfl
  simp only [hmodule, h.2, reduceCtorEq, if_false]
  rfl

theorem delay_resetIn : State.delay (s.resetIn (m + 1)) = (State.delay s).resetIn m := live_resetIn h m.succ_pos rfl

theorem readSample_resetIn : State.readSample (s.resetIn (m + 1)) = (State.readSample s).resetIn m := by
  refine live_resetIn h m.succ_pos ?_
  have hmodule : (s.resetIn (m + 1)).moduleAt (s.resetIn (m + 1)).base = s.moduleAt s.base := rfl
  simp only [hmodule, h.2, reduceCtorEq, if_false]
  rfl

/-- An act that is no event brings the reset no nearer. -/
theorem Act.run_resetIn {o : Act} (ho : o.events s = []) (hm : 0 < m) : o.run (s.resetIn m) = (o.run s).resetIn m := by
  cases o
  case writeDelay | delay | readSample => cases ho
  all_goals
    dsimp only [Act.run]
    refine live_resetIn h hm ?_
  case noteAck k => cases hs : s.sample <;> simp [State.resetIn, hs]
  case bufTouch i => cases hb : (Table.get i.toNat s.buf).isSome <;> simp [State.resetIn, hb]
  all_goals rfl

end ResetIn

section Heeds

variable {s : State} {n : Nat} {Q Q' : State → Prop} {u t : State}

/-- Once stopped, the one run stays where it is while the other goes on. -/
theorem State.Heeds.stay {evs more : List Event} {v : State} (went : s.Went v (evs ++ more)) (hle : n ≤ evs.length)
    (cut : s.ran t (evs.take n)) (rst : t.rst = some 0) (rsp : t.rsp = s.rsp) : s.Heeds n Q v t :=
  .stopped went (hle.trans (by simp)) (by rwa [List.take_append_of_le_length hle]) rst rsp

/-- Operations that go by what the state holds need a look only while both runs do the same: once stopped, they are void. -/
theorem State.Heeds.sync (h : s.Heeds n Q u t) {f : State → State} {k : Nat} (runs : ∀ v : State, v.Runs True k (f v))
    (same : ∀ m, t = u.resetIn m → s.Heeds n Q' (f u) (f t)) : s.Heeds n Q' (f u) (f t) := by
  cases h with
  | ahead => exact same _ rfl
  | stopped went hle cut rst rsp =>
    obtain ⟨more, went⟩ := went.runs (runs u)
    rw [(runs t).of_blocked (blocked_of_rst rst)]
    exact .stay went hle cut rst rsp

theorem State.Went.silent {evs : List Event} (h : s.Went u evs) {o : Act} (ho : o.events u = []) : s.Went (o.run u) evs := by
  obtain ⟨ready, ran⟩ := o.run_performed h.ready
  obtain ⟨_, base, _⟩ := o.run_latchesKept u
  have ran := h.ran.trans ran h.base
  rw [ho, List.append_nil] at ran
  exact ⟨ready, base.trans h.base, ran⟩

/-- An act that is no event. -/
theorem State.Heeds.silent (h : s.Heeds n Q u t) (o : Act) (ho : o.events u = []) (hQ : u.ready → Q u → Q' (o.run u)) :
    s.Heeds n Q' (o.run u) (o.run t) := by
  cases h with
  | ahead went hlt known =>
    rw [Act.run_resetIn went.ready ho (by omega)]
    exact .ahead (went.silent ho) hlt (hQ went.ready known)
  | stopped went hle cut rst rsp =>
    rw [o.run_blocked (blocked_of_rst rst)]
    exact .stopped (went.silent ho) hle cut rst rsp

/-- An event: the last one that the reset lets through leaves the response as it is. -/
theorem State.InStep.event (h : s.InStep n u t) {f : State → State} {e : Event} (performs : u.ready → u.Performs (f u) [e])
    (resetIn : ∀ m, u.ready → f (u.resetIn (m + 1)) = (f u).resetIn m) (void : t.blocked = true → f t = t) :
    s.InStep n (f u) (f t) := by
  have after {evs} (went : s.Went u evs) : s.Went (f u) (evs ++ [e]) :=
    have h := performs went.ready
    ⟨h.ready, h.base.trans went.base, went.ran.trans h.ran went.base⟩
  cases h with
  | @ahead evs went hlt rsp =>
    have rsp := (performs went.ready).rsp.trans rsp
    obtain ⟨m, hm⟩ := Nat.exists_eq_add_of_lt hlt
    rw [show n - evs.length = m + 1 by omega, resetIn m went.ready]
    cases m with
    | zero =>
      refine .stopped (after went) (by simp; omega) ?_ rfl rsp
      rw [List.take_of_length_le (by simp; omega)]
      exact (after went).ran
    | succ m =>
      rw [show m + 1 = n - (evs ++ [e]).length by simp; omega]
      exact .ahead (after went) (by simp; omega) rsp
  | stopped went hle cut rst rsp =>
    rw [void (blocked_of_rst rst)]
    exact .stay (after went) hle cut rst rsp

/-- Every act of a command but its start and its completion. -/
theorem State.InStep.act (h : s.InStep n u t) (o : Act) (hrank : o.rank ≤ 2) : s.InStep n (o.run u) (o.run t) := by
  have delay {u t : State} (h : s.InStep n u t) : s.InStep n u.delay t.delay :=
    h.event delay_performs (fun _ hu => delay_resetIn hu) delay_blocked
  cases o
  case writeDelay v =>
    exact delay (h.event (lineWrite_performs v) (fun _ hu => lineWrite_resetIn hu v) fun hb => lineWrite_blocked hb v)
  case delay => exact delay h
  case readSample => exact h.event (fun hu => (readSample_performs hu).1) (fun _ hu => readSample_resetIn hu) readSample_blocked
  case launch | complete => simp [Act.rank] at hrank
  all_goals exact State.Heeds.silent h _ rfl (by simp [Act.run])

end Heeds

/-! ### The operations of a command -/

namespace State.InStep

section Operations

variable {s : State} {n : Nat} {u t : State} (h : s.InStep n u t)
include h

/-- While both runs do the same, what a command decides by is the same. -/
theorem sync {f : State → State} {k : Nat} (runs : ∀ v : State, v.Runs True k (f v))
    (same : ∀ m, s.InStep n u (u.resetIn m) → s.InStep n (f u) (f (u.resetIn m))) : s.InStep n (f u) (f t) :=
  Heeds.sync h runs fun m e => e ▸ same m (e ▸ h)

theorem writeDelay {v : Half} : s.InStep n (u.writeDelay v) (t.writeDelay v) := h.act (.writeDelay v) (by simp [Act.rank])

theorem enter {st : Stage} : s.InStep n (u.enter st) (t.enter st) := h.act (.enter st) (by simp [Act.rank])

theorem setBitcnt {v : BitVec 4} : s.InStep n (u.setBitcnt v) (t.setBitcnt v) := h.act (.setBitcnt v) (by simp [Act.rank])

theorem noteAck {k : Nat} : s.InStep n (u.noteAck k) (t.noteAck k) := h.act (.noteAck k) (by simp [Act.rank])

theorem setWidx {v : BitVec 8} : s.InStep n (u.setWidx v) (t.setWidx v) := h.act (.setWidx v) (by simp [Act.rank])

theorem bufTouch {i : Index} : s.InStep n (u.bufTouch i) (t.bufTouch i) := h.act (.bufTouch i) (by simp [Act.rank])

theorem bufWrite {i : Index} {v : Half} : s.InStep n (u.bufWrite i v) (t.bufWrite i v) :=
  h.act (.bufWrite i v) (by simp [Act.rank])

theorem bitClk {dbs last : Bool} : s.InStep n (u.bitClk dbs last) (t.bitClk dbs last) :=
  h.writeDelay.writeDelay.writeDelay.act .readSample (by decide)

theorem selectSeq : s.InStep n u.selectSeq t.selectSeq := h.writeDelay.writeDelay

theorem deselectSeq : s.InStep n u.deselectSeq t.deselectSeq := h.writeDelay

theorem startSeq : s.InStep n u.startSeq t.startSeq :=
  h.sync (fun _ => (Runs.refl 0).startSeq) fun _ h => h.writeDelay.writeDelay.writeDelay.writeDelay

theorem stopSeq : s.InStep n u.stopSeq t.stopSeq :=
  h.sync (fun _ => (Runs.refl 0).stopSeq) fun _ h => h.writeDelay.writeDelay.writeDelay.writeDelay

/-- A bit clock that holds the data bit on the line. -/
theorem bitClkHeld {dbs : Bool} : s.InStep n (u.bitClk dbs u.lastd) (t.bitClk dbs t.lastd) :=
  h.sync (f := fun v => v.bitClk dbs v.lastd) (fun _ => (Runs.refl 0).bitClk) fun _ h => h.bitClk

theorem countBit : s.InStep n u.countBit t.countBit := h.sync (fun _ => (Runs.refl 0).setBitcnt) fun _ h => h.setBitcnt

theorem sendBits {b : Byte} {m : Nat} : s.InStep n (u.sendBits b m) (t.sendBits b m) := by
  induction m generalizing u t with
  | zero => exact h
  | succ m ih => exact h.sync (fun _ => (Runs.refl 0).sendBits) fun _ h => ih h.bitClkHeld.countBit

theorem sendByte {b : Byte} : s.InStep n (u.sendByte b) (t.sendByte b) := h.setBitcnt.sendBits

/-- A byte and its acknowledge. -/
theorem checkpoint {st st' : Stage} {b : Byte} :
    s.InStep n (State.ackChk (State.enter st' (State.sendByte b (State.enter st u))))
      (State.ackChk (State.enter st' (State.sendByte b (State.enter st t)))) := h.enter.sendByte.enter.bitClkHeld

theorem recvBits {m : Nat} : s.InStep n (u.recvBits m) (t.recvBits m) := by
  induction m generalizing u t with
  | zero => exact h
  | succ m ih => exact ih (h.bitClkHeld.act .shiftAcc (by decide)).countBit

theorem recvByte : s.InStep n u.recvByte t.recvByte := h.setBitcnt.recvBits

theorem beginRead {at_ : RStage → Stage} : s.InStep n (u.beginRead at_) (t.beginRead at_) :=
  (h.act (.setAcc 0#16) (by decide)).enter

theorem readWord {at_ : RStage → Stage} {i : Index} : s.InStep n (u.readWord at_ i) (t.readWord at_ i) :=
  have addressed := h.selectSeq.enter.startSeq.checkpoint.noteAck.checkpoint.noteAck
  have received := addressed.enter.startSeq.checkpoint.noteAck.enter.recvByte.enter.bitClkHeld.enter.recvByte.enter.bitClkHeld
  received.enter.stopSeq.enter.deselectSeq

theorem countWord : s.InStep n u.countWord t.countWord := h.sync (fun _ => (Runs.refl 0).setWidx) fun _ h => h.setWidx

/-- The word read goes to the buffer. -/
theorem storeAcc {i : Index} : s.InStep n (u.bufWrite i u.acc) (t.bufWrite i t.acc) :=
  h.sync (f := fun v => v.bufWrite i v.acc) (fun _ => (Runs.refl 0).bufWrite trivial) fun _ h => h.bufWrite

theorem rdallWord : s.InStep n u.rdallWord t.rdallWord :=
  h.sync (fun _ => (Runs.refl 0).rdallWord trivial) fun m h => by
    have index : (u.resetIn m).widx = u.widx := rfl
    unfold State.rdallWord
    rw [index]
    exact h.beginRead.readWord.storeAcc.countWord

theorem rdallWords {m : Nat} : s.InStep n (u.rdallWords m) (t.rdallWords m) := by
  induction m generalizing u t with
  | zero => exact h
  | succ m ih => exact ih h.rdallWord

theorem beginWrite : s.InStep n u.beginWrite t.beginWrite :=
  h.sync (fun _ => (Runs.refl 0).beginWrite) fun _ h => (h.act (.setWword _) le_rfl).bufTouch.enter

theorem abortPath {at_ : WStage → Stage} {c : BitVec 4} : s.InStep n (u.abortPath at_ c) (t.abortPath at_ c) :=
  h.sync (fun _ => (Runs.refl 0).abortPath) fun m h => by
    have build : (u.resetIn m).par = u.par := rfl
    unfold State.abortPath
    rw [build]
    split
    · exact h
    · exact h.enter.stopSeq.enter.deselectSeq

/-- A command completes as it would with no reset to come, or its completion is void. -/
theorem complete {status : BitVec 4} {rdata : Half} :
    s.Heeds n State.done (u.complete status rdata) (t.complete status rdata) :=
  Heeds.silent h (.complete status rdata) rfl fun ready _ => by
    rw [Act.run, complete_of_running ready.running]
    exact ⟨rfl, rfl⟩

/-- A completion whose data word is taken from the state. -/
theorem completeWith {status : BitVec 4} (rdata : State → Half) (hd : ∀ m v, rdata (v.resetIn m) = rdata v) :
    s.Heeds n State.done (u.complete status (rdata u)) (t.complete status (rdata t)) :=
  Heeds.sync h (f := fun v => v.complete status (rdata v)) (fun _ => (Runs.refl 0).complete) fun m same => by
    subst same
    rw [hd]
    exact h.complete

end Operations

end State.InStep

/-! ### A word write -/

/-- The two runs of a word write, the second one from `v`: they end at the same checkpoint, or the reset stopped the second. -/
structure State.WordInStep (s : State) (n : Nat) (v : State) (p q : BitVec 4 × State) : Prop where
  inStep : s.InStep n p.2 q.2
  code : q.2.blocked = true ∨ q.1 = p.1
  void : v.blocked = true → q.2 = v

section Word

variable {s : State} {n : Nat} {u t v : State} {p q : BitVec 4 × State}

theorem State.InStep.stopped_or_same (h : s.InStep n u t) : t.blocked = true ∨ ∃ m, t = u.resetIn m := by
  cases h with
  | ahead => exact .inr ⟨_, rfl⟩
  | stopped _ _ _ rst => exact .inl (blocked_of_rst rst)

/-- A word write fails at a checkpoint or goes on after it (R180). -/
theorem State.WordInStep.checked {k : BitVec 4} (rest : s.WordInStep n t p q) (h : s.InStep n u t)
    (void : v.blocked = true → t = v) :
    s.WordInStep n v (if u.sample = true then (k, u) else p) (if t.sample = true then (k, t) else q) := by
  rcases h.stopped_or_same with hb | ⟨m, rfl⟩
  · have stay : (if t.sample = true then (k, t) else q).2 = t := by
      split
      · rfl
      · exact rest.void hb
    refine ⟨?_, .inl (by rw [stay]; exact hb), fun hv => stay.trans (void hv)⟩
    rw [stay]
    split
    · exact h
    · exact rest.void hb ▸ rest.inStep
  · have sample : (u.resetIn m).sample = u.sample := rfl
    rw [sample]
    split
    · exact ⟨h, .inr rfl, void⟩
    · exact ⟨rest.inStep, rest.code, fun hv => (rest.void (void hv ▸ hv)).trans (void hv)⟩

theorem State.InStep.writeWord (h : s.InStep n u t) {at_ : WStage → Stage} {i : Index} {w : Half} :
    s.WordInStep n t (u.writeWord at_ i w) (t.writeWord at_ i w) := by
  have void {st st' : Stage} {b : Byte} {v : State} :
      v.blocked = true → State.ackChk (State.enter st' (State.sendByte b (State.enter st v))) = v :=
    (State.Runs.refl 0).enter.sendByte.enter.ackChk.of_blocked
  unfold State.writeWord
  extract_lets u1 u2 u3 u4 t1 t2 t3 t4
  have h1 : s.InStep n u1 t1 := h.selectSeq.enter.startSeq.checkpoint
  have h2 : s.InStep n u2 t2 := h1.checkpoint
  have h3 : s.InStep n u3 t3 := h2.checkpoint
  have h4 : s.InStep n u4 t4 := h3.checkpoint
  have void1 : t.blocked = true → t1 = t := (State.Runs.refl 0).writeCode.of_blocked
  have void2 : t1.blocked = true → t2 = t1 := void
  have void3 : t2.blocked = true → t3 = t2 := void
  have void4 : t3.blocked = true → t4 = t3 := void
  clear_value u1 u2 u3 u4 t1 t2 t3 t4
  refine .checked (.checked (.checked (.checked ?_ h4 void4) h3 void3) h2 void2) h1 void1
  exact ⟨h4.enter.stopSeq.enter.deselectSeq, .inr rfl, (State.Runs.refl 0).enter.stopSeq.enter.deselectSeq.of_blocked⟩

/-- The word that `WRALL` holds. -/
theorem State.InStep.writeHeld (h : s.InStep n u t) {at_ : WStage → Stage} {i : Index} :
    s.WordInStep n t (u.writeWord at_ i u.wword) (t.writeWord at_ i t.wword) := by
  rcases h.stopped_or_same with hb | ⟨m, rfl⟩
  · have stay (w : Half) : (t.writeWord at_ i w).2 = t := (State.Runs.refl 0).writeWord.of_blocked hb
    refine ⟨?_, .inl (by rw [stay]; exact hb), fun _ => stay _⟩
    rw [stay, ← stay u.wword]
    exact h.writeWord.inStep
  · have word : (u.resetIn m).wword = u.wword := rfl
    rw [word]
    exact h.writeWord

/-- What follows a word write goes by its checkpoint. -/
theorem State.WordInStep.andThen (h : s.WordInStep n v p q) {Q : State → Prop} {f : BitVec 4 → State → State} {k : Nat}
    (runs : ∀ c (v : State), v.Runs True k (f c v)) (same : ∀ c, s.Heeds n Q (f c p.2) (f c q.2)) :
    s.Heeds n Q (f p.1 p.2) (f q.1 q.2) := by
  have code : f q.1 q.2 = f p.1 q.2 := by
    rcases h.code with hb | hcode
    · rw [(runs q.1 q.2).of_blocked hb, (runs p.1 q.2).of_blocked hb]
    · rw [hcode]
  rw [code]
  exact same p.1

/-- The command goes on with `good`, or takes the abort path and completes (R180, R182). -/
theorem State.WordInStep.wordEnd (h : s.WordInStep n v p q) {at_ : WStage → Stage} {good : State → State} {k : Nat}
    (status : BitVec 4 → BitVec 4) (rdata : BitVec 4 → Half) (runs : ∀ v : State, v.Runs True k (good v))
    (same : s.Heeds n State.done (good p.2) (good q.2)) :
    s.Heeds n State.done (State.wordEnd at_ good (fun c => State.complete (status c) (rdata c)) p)
      (State.wordEnd at_ good (fun c => State.complete (status c) (rdata c)) q) := by
  refine h.andThen (k := k) (f := fun c v => State.wordEnd at_ good (fun c => State.complete (status c) (rdata c)) (c, v))
    (fun c v => ?_) fun c => ?_
  all_goals
    unfold State.wordEnd
    split
  · exact runs v
  · exact ((State.Runs.refl 0).abortPath.complete).mono (Nat.zero_le k)
  · exact same
  · exact h.inStep.abortPath.complete

end Word

/-! ### Whole commands -/

section Commands

variable {s : State} {n : Nat}

theorem State.InStep.wrallWords {m : Nat} {u t : State} (h : s.InStep n u t) :
    s.Heeds n State.done (u.wrallWords m) (t.wrallWords m) := by
  induction m generalizing u t with
  | zero => exact h.complete
  | succ m ih =>
    refine State.Heeds.sync h (fun _ => (State.Runs.refl 0).wrallWords) ?_
    rintro r rfl
    have index : (u.resetIn r).widx = u.widx := rfl
    rw [wrallWords_succ, wrallWords_succ, State.wrallWord, State.wrallWord, index]
    have word := h.beginWrite.writeHeld (at_ := .bWord (Operand.slot u.widx)) (i := Operand.slot u.widx)
    exact word.wordEnd (good := fun v => State.wrallWords m (State.countWord v)) (fun _ => 1#4)
      (Operand.failure (Operand.slot u.widx)) (fun _ => (State.Runs.refl 0).setWidx.wrallWords) (ih word.inStep.countWord)

/-- Every command does what it would with no reset to come, as far as the reset lets it. -/
theorem State.InStep.exec {u t : State} (i : Instr) (h : s.InStep n u t) :
    ∃ u' t', exec i u = .next u' ∧ exec i t = .next t' ∧ s.Heeds n State.done u' t' := by
  have start (st : Stage) : s.InStep n (u.launch st) (t.launch st) := State.Heeds.silent h (.launch st) rfl (by simp [Act.run])
  cases i <;> refine ⟨_, _, rfl, rfl, ?_⟩
  case bitclk => exact (start _).bitClk.completeWith (fun v => Operand.bitData v.sample) fun _ _ => rfl
  case rdword => exact (start _).beginRead.readWord.completeWith State.acc fun _ _ => rfl
  case bufrd j =>
    refine State.Heeds.sync (start _) (f := fun v => State.complete 0#4 (v.bufValue j) (State.bufTouch j v))
      (fun _ => (State.Runs.refl 0).bufTouch.complete) fun m same => ?_
    have value : State.bufValue (t.launch (.prim .bufrd)) j = State.bufValue (u.launch (.prim .bufrd)) j := by rw [same]; rfl
    rw [value]
    exact (start _).bufTouch.complete
  case wrword =>
    have word {i w} := (start (.word .select)).writeWord (at_ := .word) (i := i) (w := w)
    exact word.wordEnd (good := State.complete 0#4 0#16) id (fun _ => 0#16) (fun _ => (State.Runs.refl 0).complete)
      word.inStep.complete
  case wrall => exact (start _).setWidx.wrallWords
  case delay => exact ((start _).act .delay (by decide)).complete
  case select => exact (start _).selectSeq.complete
  case deselect => exact (start _).deselectSeq.complete
  case start => exact (start _).startSeq.complete
  case stop => exact (start _).stopSeq.complete
  case rdall => exact (start _).setWidx.rdallWords.complete
  case bufwr => exact (start _).bufWrite.complete
  case sendop | eeWrite | eeRead => exact (start _).sendByte.complete
  case reserved0 | reservedE | reservedF => exact (start _).complete

/-- Before the first event; with `n = 0` the reset is already due. -/
theorem inStep_start {s : State} (hport : s.mport.req = false) (hrst : s.rst = some n)
    (hgrants : (s.moduleAt s.base).grants = none) : s.InStep n { s with rst := none } s := by
  have went : s.Went { s with rst := none } [] := ⟨⟨⟨hport, rfl⟩, hgrants⟩, rfl, rfl, nofun⟩
  cases n with
  | zero => exact .stopped went le_rfl ⟨rfl, nofun⟩ hrst rfl
  | succ n =>
    have ahead : s.InStep (n + 1) { s with rst := none } (State.resetIn (n + 1) { s with rst := none }) :=
      .ahead went (Nat.succ_pos n) rfl
    have here : State.resetIn (n + 1) { s with rst := none } = s := by simp [State.resetIn, ← hrst]
    rwa [here] at ahead

end Commands

/-- Settles O54: both runs do the same up to the reset, which is due where it stopped the command. -/
theorem resetAbandonsCommand : Obligations.ResetAbandonsCommand := by
  intro i s n hport hrst hgrants
  obtain ⟨u, t, hu, ht, heeds⟩ := (inStep_start hport hrst hgrants).exec i
  cases heeds with
  | @ahead full went hlt done =>
    refine ⟨_, u, full, ht, hu, went.ran, ?_, fun _ => ⟨rfl, done⟩, fun hle => by omega⟩
    rw [List.take_of_length_le hlt.le]
    exact went.ran
  | @stopped full t went hle cut rst rsp =>
    have due : t.resetDue = true := by simp [State.resetDue, rst]
    exact ⟨t, u, full, ht, hu, went.ran, cut, fun hlt => by omega, fun _ => ⟨rst, rsp, if_pos due⟩⟩

end Sys2Proof.Machine
